-- ==== Sys2Proof/Word.lean ====
section
/-! DEFINITION. The words the block's interface carries: the 32-bit transaction word of rule R80 and the byte of
every bus and wave RAM access (rules R61, R81). -/

namespace Sys2Proof

/-- One transaction word: every input of the block is one of these (R80). -/
abbrev Word := BitVec 32

/-- One byte: the unit of every bus transaction and every wave RAM access (R61). -/
abbrev Byte := BitVec 8

end Sys2Proof
end

