-- ==== Sys2Proof/Config.lean ====
section
/-! DEFINITION. What an implementation of the block fixes and the spec leaves OPEN (R5), and the values outside
agents choose (R9 `draw`). Every constant here is opaque: no proof can see its value, so a claim holds for every
value the spec admits. The parameters the spec DECIDES (GZX_FN, MSB_CLK_EDGE, ...) are not here but in
Machine/Flags.lean and Machine/Operands.lean, one definition each. -/

namespace Sys2Proof

/-- The width check of an OPEN-width value (R82, R85): `v` fits `n` bits. (`v = 0` fits every width; the first
test says so without looking at the width, so that a zero payload can be evaluated whatever the open width is.) -/
def fitsWidth (v n : Nat) : Bool := v == 0 || decide (v < 2 ^ n)

/-- The two parallel I/O adapters outside the block (R8). -/
inductive Pia where
  | pia0
  | pia1
  deriving DecidableEq, Repr, Inhabited

/-- The edge and port inputs of a parallel I/O adapter (R185). Only `ca1` is named by the spec; the other names are
PRESUMED, the adapter family's (log 19; safe: no step reads them). -/
inductive PiaInput where
  | ca1
  | ca2
  | cb1
  | cb2
  | portA (bit : Fin 8)
  | portB (bit : Fin 8)
  deriving DecidableEq, Repr, Inhabited

/-- A place on an adapter: which adapter and which of its pins (R185). -/
structure PiaPin where
  pia : Pia
  pin : PiaInput
  deriving DecidableEq, Repr, Inhabited

/-- The block's pin-driven inputs, each driven by adapter port bits (R185; R5 PIN_MAP). -/
inductive PinInput where
  | run
  | notLoad
  | notWpe
  | notEload
  | ws
  | pitch
  | octave
  deriving DecidableEq, Repr

/-- The three forwarded reads whose data an outside agent chooses (R170, R172, R174). -/
inductive DrawSource where
  | pia0Read
  | pia1Read
  | ptmRead
  deriving DecidableEq, Repr

namespace Config

/-- PITCH_BITS: OPEN, at most 16 (R5, R82; D28). -/
opaque pitchBits : Fin 17

/-- OCTAVE_BITS: OPEN, at most 16 (R5, R82; D28). -/
opaque octaveBits : Fin 17

/-- RATE_TABLE: the static 64 x 64 divider table, OPEN (R100; D22). -/
opaque rateTable : BitVec 6 → BitVec 6 → Bool

/-- PIA_RS: the register-select remap of the adapter windows, OPEN, a bijection on 0..3 (R87; D31). -/
opaque piaRs : Equiv.Perm (BitVec 2)

/-- INIT_WAVE_RAM: the byte each wave RAM cell holds at power-on, a draw (R11, R222; D37). -/
opaque initWaveRam : BitVec 14 → Byte

/-- The data the n-th forwarded read returns: a draw of the agent that is read (R170, R172, R174; D39). -/
opaque readDraw : DrawSource → Nat → Byte

/-- SAMPLE_PERIOD: the sample-timer period for a pitch and an octave, OPEN and timing only: it describes the
host's timer service and no rule of the block reads it (R182, R231; D29). -/
opaque samplePeriod : Nat → Nat → Nat

/-- ZX_ROUTE: the adapter inputs that receive zx ("edge-sense inputs", a plural), OPEN (R128; D30). -/
opaque zxRoute : List PiaPin

/-- ZCINT_ROUTE: the adapter input that receives the zero-crossing interrupt pulse, OPEN (R127; D30). -/
opaque zcintRoute : PiaPin

/-- TRI_ROUTE: the adapter input that receives the tri latch output, OPEN (R113; D30). -/
opaque triRoute : PiaPin

/-- PIN_MAP: the adapter port bits that drive each pin input, OPEN (R5, R185; D26). The model takes each pin
change as an event of its own, so no rule of the block reads the map. -/
opaque pinMap : PinInput → List PiaPin

end Config

end Sys2Proof
end

