-- ==== Sys2Proof/Syntax.lean ====
section
/-! DEFINITION. The instructions of the block: the bus transactions and input events of rule R80, one constructor
per row of spec/opcode_table.json, in the table's order, with every operand a row carries. -/

namespace Sys2Proof

/-- One transaction of the block. `data` is a bus write's byte (carried even where the rule ignores it, so that
no bit of a word is dropped), `offLo` the low offset bits of a forwarding window, `v` an event's payload. -/
inductive Instr where
  /-- WAVE_WR: write the wave RAM data port (R161). -/
  | waveWr (data : Byte)
  /-- WAVE_RD: read the wave RAM data port (R162). -/
  | waveRd
  /-- ENVDN_WR: select direction DOWN by a write; the data is ignored (R163). -/
  | envdnWr (data : Byte)
  /-- ENVDN_RD: select direction DOWN by a read (R163). -/
  | envdnRd
  /-- ENVUP_WR: select direction UP by a write; the data is ignored (R164). -/
  | envupWr (data : Byte)
  /-- ENVUP_RD: select direction UP by a read (R164). -/
  | envupRd
  /-- VOL_WR: write the volume latch (R165). -/
  | volWr (data : Byte)
  /-- VOL_RD: read offset 5, the constant 0xFF (R166). -/
  | volRd
  /-- FLT_WR: write the filter latch (R167). -/
  | fltWr (data : Byte)
  /-- FLT_RD: read the write-only offset 6 (R168). -/
  | fltRd
  /-- PIA0_WR: a write forwarded to PIA 0 (R169). -/
  | pia0Wr (offLo : BitVec 2) (data : Byte)
  /-- PIA0_RD: a read forwarded to PIA 0 (R170). -/
  | pia0Rd (offLo : BitVec 2)
  /-- PIA1_WR: a write forwarded to PIA 1 (R171). -/
  | pia1Wr (offLo : BitVec 2) (data : Byte)
  /-- PIA1_RD: a read forwarded to PIA 1 (R172). -/
  | pia1Rd (offLo : BitVec 2)
  /-- PTM_WR: a write forwarded to the timer (R173). -/
  | ptmWr (offLo : BitVec 3) (data : Byte)
  /-- PTM_RD: a read forwarded to the timer (R174). -/
  | ptmRd (offLo : BitVec 3)
  /-- UNK_WR.1: a write of the undecoded offset 1 (R175). -/
  | unkWr1 (data : Byte)
  /-- UNK_WR.2: a write of the undecoded offset 2 (R175). -/
  | unkWr2 (data : Byte)
  /-- UNK_WR.7: a write of the undecoded offset 7 (R175). -/
  | unkWr7 (data : Byte)
  /-- UNK_RD.1: a read of the undecoded offset 1 (R176). -/
  | unkRd1
  /-- UNK_RD.2: a read of the undecoded offset 2 (R176). -/
  | unkRd2
  /-- UNK_RD.7: a read of the undecoded offset 7 (R176). -/
  | unkRd7
  /-- PIN_RUN: the run pin takes a level (R143). -/
  | pinRun (v : Bool)
  /-- PIN_NOT_LOAD: the active-low load pin takes a level (R142). -/
  | pinNotLoad (v : Bool)
  /-- PIN_NOT_WPE: the active-low write-protect pin takes a level (R149). -/
  | pinNotWpe (v : Bool)
  /-- PIN_NOT_ELOAD: the active-low envelope-load pin takes a level (R148). -/
  | pinNotEload (v : Bool)
  /-- PIN_WS: the write-select register (R150). -/
  | pinWs (v : BitVec 7)
  /-- PIN_PITCH: the pitch register, PITCH_BITS wide (R151). -/
  | pinPitch (v : Nat)
  /-- PIN_OCTAVE: the octave register, OCTAVE_BITS wide (R151). -/
  | pinOctave (v : Nat)
  /-- ECLK: the envelope clock input takes a level (R117). -/
  | eclk (v : Bool)
  /-- DIV_TICK: one divider clock tick (R102). -/
  | divTick
  /-- PTM_O1: the timer's output 1 takes a level (R180). -/
  | ptmO1 (v : Bool)
  /-- PTM_O2: the timer's output 2 takes a level (R180). -/
  | ptmO2 (v : Bool)
  /-- PTM_O3: the timer's output 3 takes a level (R180). -/
  | ptmO3 (v : Bool)
  /-- IRQ_IN0: PIA 0's interrupt line A takes a level (R181). -/
  | irqIn0 (v : Bool)
  /-- IRQ_IN1: PIA 0's interrupt line B takes a level (R181). -/
  | irqIn1 (v : Bool)
  /-- IRQ_IN2: PIA 1's interrupt line A takes a level (R181). -/
  | irqIn2 (v : Bool)
  /-- IRQ_IN3: PIA 1's interrupt line B takes a level (R181). -/
  | irqIn3 (v : Bool)
  /-- IRQ_IN4: the timer's interrupt line takes a level (R181). -/
  | irqIn4 (v : Bool)
  /-- RESET: device reset (R220). -/
  | reset
  /-- SAMPLE_TICK: one tick of the sample timer (R130). -/
  | sampleTick
  /-- PULL_SAMPLE: the mixer pulls one sample (R132). -/
  | pullSample
  /-- SAVE: take a save-state image (R183). -/
  | save
  /-- RESTORE: load the image that travels beside the word (R184). -/
  | restore
  deriving DecidableEq, Repr

/-- Why a word is not well formed (R85), one name per case of the rule. -/
inductive Reject where
  /-- A BW or BR word with bit 29 set. -/
  | reservedBit29
  /-- A BW or BR word whose offset is 0x18..0x1F. -/
  | offsetOutOfRange
  /-- A BW or BR word with bits 23:8 non-zero. -/
  | reservedBits
  /-- A BR word with a non-zero data field. -/
  | readDataNotZero
  /-- An EV word whose code R83 does not list. -/
  | unknownInputEvent
  /-- An HE word whose code R84 does not list. -/
  | unknownHostEvent
  /-- An EV or HE word with bits 23:16 non-zero. -/
  | eventReservedBits
  /-- An EV or HE word with payload bits above the event's width non-zero. -/
  | payloadTooWide
  deriving DecidableEq, Repr

end Sys2Proof
end

