-- ==== Sys2Proof/Machine/State.lean ====
section
/-! DEFINITION. The block's state: every field of rules R11 to R49 in eight groups, in rule order, and beside them
what a step takes from outside and yields (R7, R50). Plain data throughout. -/

namespace Sys2Proof.Machine

/-- Written wave RAM bytes as (address, byte) pairs, addresses strictly rising (R11). An unlisted address holds no
written byte; what reading it gives is decided once, by `State.waveRead`. -/
abbrev Memory := List Host.Cell

/-- `DOWN` or `UP` (R19). -/
inductive EnvDir where
  | down
  | up
  deriving DecidableEq, Repr

/-- The wave address and the sample path, rules R12 to R17. -/
structure Sequencer where
  /-- R12: the lower wave address counter. -/
  lsb : BitVec 7
  /-- R13: the upper wave address register, stored as 8 bits. -/
  msb : BitVec 8
  /-- R15: the "new address" flag. -/
  newAddr : Bool
  /-- R16: the current wave byte. -/
  waveByte : Byte
  /-- R17: the audio sample, a signed 16-bit value. -/
  currentSample : BitVec 16
  deriving DecidableEq, Repr

/-- The envelope generator and its divider, rules R18 to R27. -/
structure EnvGen where
  /-- R18: the envelope value. -/
  env : Byte
  /-- R19: the envelope direction. -/
  envDir : EnvDir
  /-- R20: the direction control latch. -/
  envDirCtrl : EnvDir
  /-- R21: the divider selector. -/
  edivRate : BitVec 6
  /-- R22: the terminal flag. -/
  tri : Bool
  /-- R23: the latch output tri is propagated to. -/
  triOut : Bool
  /-- R24: the divider cycle counter. -/
  edivCount : BitVec 6
  /-- R25: the divider's fire output. -/
  edivOut : Bool
  /-- R26: the envelope clock input. -/
  eclk : Bool
  /-- R27: the composite envelope clock. -/
  envClk : Bool
  deriving DecidableEq, Repr

/-- The latches of the register file, rules R28 and R29. -/
structure Latches where
  /-- R28: the volume latch. -/
  volLatch : Byte
  /-- R29: the filter latch. -/
  fltLatch : Byte
  deriving DecidableEq, Repr

/-- The control-line booleans, rules R30 to R43. -/
structure Lines where
  /-- R30 -/
  run : Bool
  /-- R31 -/
  notLoad : Bool
  /-- R32 -/
  notWpe : Bool
  /-- R33 -/
  notEload : Bool
  /-- R34 -/
  permitEload : Bool
  /-- R35 -/
  zx : Bool
  /-- R36 -/
  zxFfClk : Bool
  /-- R37 -/
  zxFf : Bool
  /-- R38 -/
  gzx : Bool
  /-- R39 -/
  notRstb : Bool
  /-- R40 -/
  upperLoad : Bool
  /-- R41 -/
  msbClk : Bool
  /-- R42 -/
  ptmC1 : Bool
  /-- R43 -/
  rstbX : Bool
  deriving DecidableEq, Repr

/-- The pin-driven registers, rules R44 and R45. -/
structure PinRegs where
  /-- R44: the write-select register. -/
  ws : BitVec 7
  /-- R45: PITCH_BITS wide; the width is OPEN, so the value is a number and its bound an invariant. -/
  pitch : Nat
  /-- R45: OCTAVE_BITS wide. -/
  octave : Nat
  deriving DecidableEq, Repr

/-- The interface to the programmable timer and the sample timer, rules R46 to R48. -/
structure PtmLines where
  /-- R46: `ptm_o[1]`. -/
  o1 : Bool
  /-- R46: `ptm_o[2]`. -/
  o2 : Bool
  /-- R46: `ptm_o[3]`. -/
  o3 : Bool
  /-- R47: `ptm_gate[1]`, true = asserted. -/
  gate1 : Bool
  /-- R47: `ptm_gate[2]`. -/
  gate2 : Bool
  /-- R47: `ptm_gate[3]`. -/
  gate3 : Bool
  /-- R48: whether the periodic sample timer is armed. -/
  sampleTimerEnabled : Bool
  deriving DecidableEq, Repr

/-- The interrupt lines, rule R49. -/
structure IrqLines where
  /-- `irq_in[0]`: PIA 0 line A. -/
  in0 : Bool
  /-- `irq_in[1]`: PIA 0 line B. -/
  in1 : Bool
  /-- `irq_in[2]`: PIA 1 line A. -/
  in2 : Bool
  /-- `irq_in[3]`: PIA 1 line B. -/
  in3 : Bool
  /-- `irq_in[4]`: the timer. -/
  in4 : Bool
  /-- `irq_out`: their OR. -/
  out : Bool
  deriving DecidableEq, Repr

/-- Every field of rules R11 to R49, in rule order: what a save-state image holds (R52). -/
structure Block where
  ram : Memory
  seq : Sequencer
  eg : EnvGen
  latches : Latches
  lines : Lines
  pins : PinRegs
  ptm : PtmLines
  irq : IrqLines
  deriving DecidableEq, Repr

/-- The three gate lines of the timer (R47). -/
inductive TimerGate where
  | gate1
  | gate2
  | gate3
  deriving DecidableEq, Repr

/-- The direction of a bus access, for the diagnostic event (R175, R176). -/
inductive BusAccess where
  | read
  | write
  deriving DecidableEq, Repr

/-- The output events of rule R50. -/
inductive OutEvent where
  /-- ZX_OUT(v), R128. -/
  | zxOut (v : Bool)
  /-- ZCINT(v), R127. -/
  | zcint (v : Bool)
  /-- TRI_OUT(v), R113. -/
  | triOut (v : Bool)
  /-- PTM_C1(v), R129. -/
  | ptmC1 (v : Bool)
  /-- PTM_GATE(i, v), R143. -/
  | ptmGate (i : TimerGate) (v : Bool)
  /-- TIMER_START(pitch, octave), R143, R182. -/
  | timerStart (pitch octave : Nat)
  /-- TIMER_STOP, R143, R182. -/
  | timerStop
  /-- TIMER_REPROGRAM(pitch, octave), R151, R182. -/
  | timerReprogram (pitch octave : Nat)
  /-- IRQ(v), R181. -/
  | irq (v : Bool)
  /-- PIA_WR(k, rs, d), R169, R171. -/
  | piaWr (k : Pia) (rs : BitVec 2) (d : Byte)
  /-- PIA_RD(k, rs), R170, R172. -/
  | piaRd (k : Pia) (rs : BitVec 2)
  /-- PTM_WR(rs, d), R173. -/
  | ptmWr (rs : BitVec 3) (d : Byte)
  /-- PTM_RD(rs), R174. -/
  | ptmRd (rs : BitVec 3)
  /-- DIAG_UNKNOWN(rw, offset), R175, R176: diagnostic; no statement may depend on it (R50). -/
  | diagUnknown (rw : BusAccess) (off : Nat)
  deriving DecidableEq, Repr

/-- One value of a save-state image: the wave RAM's bytes in address order, or a register's number. An image from
outside may hold anything; `Block.ofImage?` says which images are complete and well typed (R184). -/
inductive FieldValue where
  | ram (bytes : List Byte)
  | num (n : Nat)
  deriving DecidableEq, Repr

/-- A save-state image: field values in the order of rules R11 to R49 (R52, R183). -/
abbrev Image := List FieldValue

/-- One delivered input: a transaction word (R80) and the image that travels beside it, if any (R84). -/
structure Input where
  word : Word
  image : Option Image
  deriving DecidableEq, Repr

/-- The result value of a step that has one (R7). -/
inductive Result where
  /-- The read data of a bus read. -/
  | data (d : Byte)
  /-- The signed 16-bit sample of PULL_SAMPLE (R132). -/
  | sample (v : BitVec 16)
  /-- The image of SAVE (R183). -/
  | image (img : Image)
  deriving DecidableEq, Repr

/-- The machine's state: the block's fields, the words delivered and not yet performed, and the outputs and the
result of the step. `draws` is the MODEL's own field: it counts forwarded reads, and the n-th of them returns
the opaque `Config.readDraw _ n` (R9 `draw`). -/
structure State extends Block where
  /-- The delivered words the block has not performed yet, the next one first (R6, R80, R187). -/
  inputs : List Input
  /-- The image beside the word being performed (R84). -/
  carried : Option Image
  /-- The output events of the step, in the order emitted (R7, R50). -/
  outputs : List OutEvent
  /-- The result value of the step (R7). -/
  result : Option Result
  /-- How many forwarded reads have drawn their data. -/
  draws : Nat
  deriving DecidableEq, Repr

/-- The block never faults: "The block raises no exception" (R7, R200). There is no fault reason. -/
inductive Fault where
  deriving DecidableEq, Repr

/-- Why there is no step (R7, R200). Every refusal is safe: it errs toward unprovable (R85, D3, D42, D44). -/
inductive Refusal where
  /-- An instruction without a meaning; raised by no arm of `exec`. Safe. -/
  | notModelled (mnemonic : String)
  /-- The word is not well formed; raised by `step` (R85). Safe. -/
  | malformed (why : Reject)
  /-- TIMER_DISABLED: a SAMPLE_TICK while the sample timer is disabled; raised by SAMPLE_TICK (R130). Safe. -/
  | timerDisabled
  /-- BAD_IMAGE: an image that is incomplete, ill typed or inconsistent; raised by RESTORE (R184). Safe. -/
  | badImage
  /-- The input stream has ended; raised by `step` when no word is delivered (R187). Safe. -/
  | inputEnded
  deriving DecidableEq, Repr

/-! ### Reset values (R12 to R49, R220) -/

/-- The block's fields right after power-on: the reset value of each of rules R12 to R49, and no wave RAM byte
written (R222). -/
def Block.reset : Block where
  ram := []
  seq := { lsb := 0#7, msb := 0x80#8, newAddr := false, waveByte := 0x80#8, currentSample := 0#16 }
  eg := { env := 0#8, envDir := .down, envDirCtrl := .down, edivRate := 0x03#6, tri := true, triOut := true,
          edivCount := 0#6, edivOut := false, eclk := false, envClk := false }
  latches := { volLatch := 0#8, fltLatch := 0#8 }
  lines := { run := false, notLoad := true, notWpe := true, notEload := true, permitEload := false, zx := false,
             zxFfClk := false, zxFf := false, gzx := false, notRstb := true, upperLoad := false,
             msbClk := false, ptmC1 := false, rstbX := false }
  pins := { ws := 0#7, pitch := 0, octave := 0 }
  ptm := { o1 := false, o2 := false, o3 := false, gate1 := true, gate2 := true, gate3 := true,
           sampleTimerEnabled := false }
  irq := { in0 := false, in1 := false, in2 := false, in3 := false, in4 := false, out := false }

/-- The machine right after reset at power-on (R220, R222): no word delivered yet, no step taken. -/
def State.reset : State where
  toBlock := Block.reset
  inputs := []
  carried := none
  outputs := []
  result := none
  draws := 0

/-! ### Updates, one per group -/

/-- Write fields of the sequencer. -/
def State.onSeq (s : State) (f : Sequencer → Sequencer) : State := { s with seq := f s.seq }

/-- Write fields of the envelope generator. -/
def State.onEg (s : State) (f : EnvGen → EnvGen) : State := { s with eg := f s.eg }

/-- Write fields of the latches. -/
def State.onLatches (s : State) (f : Latches → Latches) : State := { s with latches := f s.latches }

/-- Write control lines. -/
def State.onLines (s : State) (f : Lines → Lines) : State := { s with lines := f s.lines }

/-- Write pin-driven registers. -/
def State.onPins (s : State) (f : PinRegs → PinRegs) : State := { s with pins := f s.pins }

/-- Write the timer's lines. -/
def State.onPtm (s : State) (f : PtmLines → PtmLines) : State := { s with ptm := f s.ptm }

/-- Write the interrupt lines. -/
def State.onIrq (s : State) (f : IrqLines → IrqLines) : State := { s with irq := f s.irq }

/-- Replace the wave RAM. -/
def State.withRam (s : State) (m : Memory) : State := { s with ram := m }

/-- Give the step a result value (R7). -/
def State.withResult (s : State) (r : Result) : State := { s with result := some r }

/-- `emit E(args)`: append an output event to the step's list (R9, R50). -/
def State.emit (s : State) (e : OutEvent) : State := { s with outputs := s.outputs ++ [e] }

end Sys2Proof.Machine
end

