-- ==== Sys2Proof/Machine/Flags.lean ====
section
/-! DEFINITION. What each derived line and value is as a function of its inputs: one definition per formula, so that
a decided parameter of R5 has one place. -/

namespace Sys2Proof.Machine

/-! ### Envelope -/

/-- `((dir==UP ? ~value : value) >> 2) & 0x3C | 0x03` (R110). -/
def edivRateOf (dir : EnvDir) (env : Byte) : BitVec 6 :=
  let v : Byte := match dir with
    | .up => 0xFF#8 ^^^ env
    | .down => env
  (((v >>> 2) &&& 0x3C#8) ||| 0x03#8).setWidth 6

/-- "tri asserted only at 0x00 (down) or 0xFF (up)" (R111). -/
def triOf (dir : EnvDir) (env : Byte) : Bool :=
  (dir == .down && env == 0x00#8) || (dir == .up && env == 0xFF#8)

/-- One envelope clock: down or up by one, modulo 256 (R114). -/
def envStep (dir : EnvDir) (env : Byte) : Byte :=
  match dir with
  | .down => env - 1
  | .up => env + 1

/-- `(not_load AND eclk) OR (NOT not_load AND ediv_out)` (R115). -/
def envClkOf (notLoad eclk edivOut : Bool) : Bool := (notLoad && eclk) || (!notLoad && edivOut)

/-! ### Control network -/

/-- `zx = bit6(LSB)` (R121). -/
def zxOf (lsb : BitVec 7) : Bool := lsb.getLsbD 6

/-- ZX_FF_CLK_FN: the flip-flop clock is zx (R125; D9). -/
def zxFfClkOf (zx : Bool) : Bool := zx

/-- `NOT not_load AND zx` (R123). -/
def msbClkOf (notLoad zx : Bool) : Bool := !notLoad && zx

/-- MSB_CLK_EDGE: the level msb_clk has after the edge that increments the MSB, the falling edge (R123; D10). -/
def msbClkActiveLevel : Bool := false

/-- `NOT not_load AND zx_ff_clk` (R129). -/
def ptmC1Of (notLoad zxFfClk : Bool) : Bool := !notLoad && zxFfClk

/-- `run XOR NOT not_load` (R133). -/
def rstbXOf (run notLoad : Bool) : Bool := run ^^ !notLoad

/-- GZX_FN: `zx_ff OR NOT not_rstb` (R145; D7). -/
def gzxOf (zxFf notRstb : Bool) : Bool := zxFf || !notRstb

/-- UPPER_LOAD_FN: `gzx OR NOT not_rstb` (R146; D8). -/
def upperLoadOf (gzx notRstb : Bool) : Bool := gzx || !notRstb

/-- PERMIT_ELOAD_FN: `gzx AND NOT not_eload` (R147; D6). -/
def permitEloadOf (gzx notEload : Bool) : Bool := gzx && !notEload

/-- The level OR of the five interrupt sources (R181). -/
def irqOf (q : IrqLines) : Bool := q.in0 || q.in1 || q.in2 || q.in3 || q.in4

/-! ### Sample path -/

/-- `asr(v, n) = floor(v / 2^n)` (R9). -/
def asr (v : Int) (n : Nat) : Int := v / 2 ^ n

/-- `trunc16(asr(sext_8(wave_byte XOR 0x80) * env * vol_latch, 8))` (R131; D20). -/
def sampleOf (waveByte env volLatch : Byte) : BitVec 16 :=
  BitVec.ofInt 16 (asr ((waveByte ^^^ 0x80#8).toInt * env.toNat * volLatch.toNat) 8)

/-- What the mixer receives: the sample while run, else silence (R132; D48). -/
def mixerSample (run : Bool) (currentSample : BitVec 16) : BitVec 16 := if run then currentSample else 0#16

end Sys2Proof.Machine
end

