-- ==== Sys2Proof/WellFormed.lean ====
section
/-! DEFINITION. Which instruction terms a word can carry. Every operand but two has its width in its type; the
pitch and octave payloads have an OPEN width, checked here (R82, R85, R151). -/

namespace Sys2Proof

/-- A term is well formed when its payload fits the event's width (R85). -/
def Instr.wellFormed : Instr → Bool
  | .waveWr _ => true
  | .waveRd => true
  | .envdnWr _ => true
  | .envdnRd => true
  | .envupWr _ => true
  | .envupRd => true
  | .volWr _ => true
  | .volRd => true
  | .fltWr _ => true
  | .fltRd => true
  | .pia0Wr _ _ => true
  | .pia0Rd _ => true
  | .pia1Wr _ _ => true
  | .pia1Rd _ => true
  | .ptmWr _ _ => true
  | .ptmRd _ => true
  | .unkWr1 _ => true
  | .unkWr2 _ => true
  | .unkWr7 _ => true
  | .unkRd1 => true
  | .unkRd2 => true
  | .unkRd7 => true
  | .pinRun _ => true
  | .pinNotLoad _ => true
  | .pinNotWpe _ => true
  | .pinNotEload _ => true
  | .pinWs _ => true
  | .pinPitch v => fitsWidth v Config.pitchBits.val
  | .pinOctave v => fitsWidth v Config.octaveBits.val
  | .eclk _ => true
  | .divTick => true
  | .ptmO1 _ => true
  | .ptmO2 _ => true
  | .ptmO3 _ => true
  | .irqIn0 _ => true
  | .irqIn1 _ => true
  | .irqIn2 _ => true
  | .irqIn3 _ => true
  | .irqIn4 _ => true
  | .reset => true
  | .sampleTick => true
  | .pullSample => true
  | .save => true
  | .restore => true

end Sys2Proof
end

