-- ==== Sys2Proof/Decode.lean ====
section
/-! DEFINITION. The decoder, total on every 32-bit word and rejecting by name (R80 to R88), the encoder beside it
(R81, R82), and the opcode table as rows of data. Fields are read with `bits`, so no later file sees raw words. -/

namespace Sys2Proof

/-- `w[hi:lo]`, the bits hi down to lo as a number (R9). -/
def bits (w : Word) (hi lo : Nat) : Nat := w.toNat / 2 ^ lo % 2 ^ (hi + 1 - lo)

/-! ### Words (R81, R82) -/

/-- The word of `write(off, data)`: `(off << 24) | data` (R81). -/
def busWriteWord (off : Nat) (data : Byte) : Word := BitVec.ofNat 32 (off * 2 ^ 24 + data.toNat)

/-- The word of `read(off)`: `0x40000000 | (off << 24)` (R81). -/
def busReadWord (off : Nat) : Word := BitVec.ofNat 32 (1 * 2 ^ 30 + off * 2 ^ 24)

/-- The word of an input event: class `10`, code, payload (R82, R83). -/
def inputEventWord (code payload : Nat) : Word := BitVec.ofNat 32 (2 * 2 ^ 30 + code * 2 ^ 24 + payload)

/-- The word of a host event: class `11`, code, payload 0 (R82, R84). -/
def hostEventWord (code : Nat) : Word := BitVec.ofNat 32 (3 * 2 ^ 30 + code * 2 ^ 24)

/-! ### Decoding -/

/-- A bus write by offset, in the order of R86. -/
def decodeBusWrite (off : Nat) (d : Byte) : Except Reject Instr :=
  if off = 0x00 then .ok (.waveWr d)
  else if off = 0x03 then .ok (.envdnWr d)
  else if off = 0x04 then .ok (.envupWr d)
  else if off = 0x05 then .ok (.volWr d)
  else if off = 0x06 then .ok (.fltWr d)
  else if off / 4 = 0b010 then .ok (.pia0Wr (BitVec.ofNat 2 off) d)
  else if off / 4 = 0b011 then .ok (.pia1Wr (BitVec.ofNat 2 off) d)
  else if off / 8 = 0b10 then .ok (.ptmWr (BitVec.ofNat 3 off) d)
  else if off = 0x01 then .ok (.unkWr1 d)
  else if off = 0x02 then .ok (.unkWr2 d)
  else if off = 0x07 then .ok (.unkWr7 d)
  else .error .offsetOutOfRange

/-- A bus read by offset, in the order of R86. -/
def decodeBusRead (off : Nat) : Except Reject Instr :=
  if off = 0x00 then .ok .waveRd
  else if off = 0x03 then .ok .envdnRd
  else if off = 0x04 then .ok .envupRd
  else if off = 0x05 then .ok .volRd
  else if off = 0x06 then .ok .fltRd
  else if off / 4 = 0b010 then .ok (.pia0Rd (BitVec.ofNat 2 off))
  else if off / 4 = 0b011 then .ok (.pia1Rd (BitVec.ofNat 2 off))
  else if off / 8 = 0b10 then .ok (.ptmRd (BitVec.ofNat 3 off))
  else if off = 0x01 then .ok .unkRd1
  else if off = 0x02 then .ok .unkRd2
  else if off = 0x07 then .ok .unkRd7
  else .error .offsetOutOfRange

/-- A one-bit payload: `bit 0 = level`, the rest must be 0 (R83, R85). -/
def levelPayload (p : Nat) (make : Bool → Instr) : Except Reject Instr :=
  if p < 2 then .ok (make (p == 1)) else .error .payloadTooWide

/-- An event without a payload: the payload must be 0 (R83 to R85). -/
def noPayload (p : Nat) (i : Instr) : Except Reject Instr :=
  if p = 0 then .ok i else .error .payloadTooWide

/-- A payload of an OPEN width (R82, R85, R151). -/
def widePayload (p width : Nat) (make : Nat → Instr) : Except Reject Instr :=
  if fitsWidth p width then .ok (make p) else .error .payloadTooWide

/-- An input event by code (R83). -/
def decodeInputEvent (code p : Nat) : Except Reject Instr :=
  if code = 0x00 then levelPayload p .pinRun
  else if code = 0x01 then levelPayload p .pinNotLoad
  else if code = 0x02 then levelPayload p .pinNotWpe
  else if code = 0x03 then levelPayload p .pinNotEload
  else if code = 0x04 then
    if p < 2 ^ 7 then .ok (.pinWs (BitVec.ofNat 7 p)) else .error .payloadTooWide
  else if code = 0x05 then widePayload p Config.pitchBits.val .pinPitch
  else if code = 0x06 then widePayload p Config.octaveBits.val .pinOctave
  else if code = 0x07 then levelPayload p .eclk
  else if code = 0x08 then noPayload p .divTick
  else if code = 0x09 then levelPayload p .ptmO1
  else if code = 0x0A then levelPayload p .ptmO2
  else if code = 0x0B then levelPayload p .ptmO3
  else if code = 0x10 then levelPayload p .irqIn0
  else if code = 0x11 then levelPayload p .irqIn1
  else if code = 0x12 then levelPayload p .irqIn2
  else if code = 0x13 then levelPayload p .irqIn3
  else if code = 0x14 then levelPayload p .irqIn4
  else .error .unknownInputEvent

/-- A host event by code (R84). -/
def decodeHostEvent (code p : Nat) : Except Reject Instr :=
  if code = 0x00 then noPayload p .reset
  else if code = 0x01 then noPayload p .sampleTick
  else if code = 0x02 then noPayload p .pullSample
  else if code = 0x03 then noPayload p .save
  else if code = 0x04 then noPayload p .restore
  else .error .unknownHostEvent

/-- A bus word's zero fields, then its offset (R81, R85, R86). -/
def decodeBus (w : Word) (isRead : Bool) : Except Reject Instr :=
  if bits w 29 29 ≠ 0 then .error .reservedBit29
  else if bits w 23 8 ≠ 0 then .error .reservedBits
  else if isRead then
    if bits w 7 0 ≠ 0 then .error .readDataNotZero else decodeBusRead (bits w 28 24)
  else decodeBusWrite (bits w 28 24) (BitVec.ofNat 8 (bits w 7 0))

/-- An event word's zero field, then its code (R82 to R85). -/
def decodeEvent (w : Word) (isHost : Bool) : Except Reject Instr :=
  if bits w 23 16 ≠ 0 then .error .eventReservedBits
  else if isHost then decodeHostEvent (bits w 29 24) (bits w 15 0)
  else decodeInputEvent (bits w 29 24) (bits w 15 0)

/-- Every input is one 32-bit word; bits 31:30 are its class (R80). Total: a word that is not well formed is
rejected under the name of the case of R85 it falls under. -/
def decode (w : Word) : Except Reject Instr :=
  if bits w 31 30 = 0b00 then decodeBus w false
  else if bits w 31 30 = 0b01 then decodeBus w true
  else if bits w 31 30 = 0b10 then decodeEvent w false
  else decodeEvent w true

/-- What the decoder reads from a word numbered as spec/opcode_table.json numbers it. Every row is 32 bits wide
and has no operand words, so `nbits` adds nothing; a number of more than 32 bits is no word of this block (R80). -/
def decodeTableWord (_nbits w : Nat) : Option Instr :=
  if w < 2 ^ 32 then (decode (BitVec.ofNat 32 w)).toOption else none

/-! ### Encoding -/

/-- The word of an instruction, from the formats of R81 to R84. -/
def encode : Instr → Word
  | .waveWr d => busWriteWord 0x00 d
  | .waveRd => busReadWord 0x00
  | .envdnWr d => busWriteWord 0x03 d
  | .envdnRd => busReadWord 0x03
  | .envupWr d => busWriteWord 0x04 d
  | .envupRd => busReadWord 0x04
  | .volWr d => busWriteWord 0x05 d
  | .volRd => busReadWord 0x05
  | .fltWr d => busWriteWord 0x06 d
  | .fltRd => busReadWord 0x06
  | .pia0Wr off d => busWriteWord (0x08 + off.toNat) d
  | .pia0Rd off => busReadWord (0x08 + off.toNat)
  | .pia1Wr off d => busWriteWord (0x0C + off.toNat) d
  | .pia1Rd off => busReadWord (0x0C + off.toNat)
  | .ptmWr off d => busWriteWord (0x10 + off.toNat) d
  | .ptmRd off => busReadWord (0x10 + off.toNat)
  | .unkWr1 d => busWriteWord 0x01 d
  | .unkWr2 d => busWriteWord 0x02 d
  | .unkWr7 d => busWriteWord 0x07 d
  | .unkRd1 => busReadWord 0x01
  | .unkRd2 => busReadWord 0x02
  | .unkRd7 => busReadWord 0x07
  | .pinRun v => inputEventWord 0x00 v.toNat
  | .pinNotLoad v => inputEventWord 0x01 v.toNat
  | .pinNotWpe v => inputEventWord 0x02 v.toNat
  | .pinNotEload v => inputEventWord 0x03 v.toNat
  | .pinWs v => inputEventWord 0x04 v.toNat
  | .pinPitch v => inputEventWord 0x05 v
  | .pinOctave v => inputEventWord 0x06 v
  | .eclk v => inputEventWord 0x07 v.toNat
  | .divTick => inputEventWord 0x08 0
  | .ptmO1 v => inputEventWord 0x09 v.toNat
  | .ptmO2 v => inputEventWord 0x0A v.toNat
  | .ptmO3 v => inputEventWord 0x0B v.toNat
  | .irqIn0 v => inputEventWord 0x10 v.toNat
  | .irqIn1 v => inputEventWord 0x11 v.toNat
  | .irqIn2 v => inputEventWord 0x12 v.toNat
  | .irqIn3 v => inputEventWord 0x13 v.toNat
  | .irqIn4 v => inputEventWord 0x14 v.toNat
  | .reset => hostEventWord 0x00
  | .sampleTick => hostEventWord 0x01
  | .pullSample => hostEventWord 0x02
  | .save => hostEventWord 0x03
  | .restore => hostEventWord 0x04

/-! ### Pseudo-instructions (R90) -/

/-- `ECLKPULSE`: `ECLK 1` then `ECLK 0` (R90). -/
def eclkPulse : List Word := [encode (.eclk true), encode (.eclk false)]

/-- `REPEAT n` of a body: n copies of the body (R90). -/
def repeatWords : Nat → List Word → List Word
  | 0, _ => []
  | n + 1, body => body ++ repeatWords n body

/-- `WRSEQ off, d1, ..., dn`: one bus write of each byte (R90). -/
def wrSeq (off : Nat) (ds : List Byte) : List Word := ds.map (busWriteWord off)

/-! ### The opcode table as data -/

/-- A row of the opcode table: its mnemonic and the fields (hi, lo, value) that every word of the row has. -/
structure OpcodeRow where
  mnemonic : String
  fixed : List (Nat × Nat × Nat)
  deriving DecidableEq, Repr

/-- The word has every fixed field of the row. -/
def OpcodeRow.admits (r : OpcodeRow) (w : Word) : Bool :=
  r.fixed.all fun f => bits w f.1 f.2.1 == f.2.2

/-- The BW rows of spec/opcode_table.json. -/
def busWriteRows : List OpcodeRow :=
  [
   ⟨"WAVE_WR", [(31, 8, 0x0)]⟩,
   ⟨"ENVDN_WR", [(31, 8, 0x30000)]⟩,
   ⟨"ENVUP_WR", [(31, 8, 0x40000)]⟩,
   ⟨"VOL_WR", [(31, 8, 0x50000)]⟩,
   ⟨"FLT_WR", [(31, 8, 0x60000)]⟩,
   ⟨"PIA0_WR", [(23, 8, 0x0), (31, 26, 0x2)]⟩,
   ⟨"PIA1_WR", [(23, 8, 0x0), (31, 26, 0x3)]⟩,
   ⟨"PTM_WR", [(23, 8, 0x0), (31, 27, 0x2)]⟩,
   ⟨"UNK_WR.1", [(31, 8, 0x10000)]⟩,
   ⟨"UNK_WR.2", [(31, 8, 0x20000)]⟩,
   ⟨"UNK_WR.7", [(31, 8, 0x70000)]⟩]

/-- The BR rows of spec/opcode_table.json. -/
def busReadRows : List OpcodeRow :=
  [
   ⟨"WAVE_RD", [(31, 0, 0x40000000)]⟩,
   ⟨"ENVDN_RD", [(31, 0, 0x43000000)]⟩,
   ⟨"ENVUP_RD", [(31, 0, 0x44000000)]⟩,
   ⟨"VOL_RD", [(31, 0, 0x45000000)]⟩,
   ⟨"FLT_RD", [(31, 0, 0x46000000)]⟩,
   ⟨"PIA0_RD", [(23, 0, 0x0), (31, 26, 0x12)]⟩,
   ⟨"PIA1_RD", [(23, 0, 0x0), (31, 26, 0x13)]⟩,
   ⟨"PTM_RD", [(23, 0, 0x0), (31, 27, 0xa)]⟩,
   ⟨"UNK_RD.1", [(31, 0, 0x41000000)]⟩,
   ⟨"UNK_RD.2", [(31, 0, 0x42000000)]⟩,
   ⟨"UNK_RD.7", [(31, 0, 0x47000000)]⟩]

/-- The EV rows of spec/opcode_table.json. -/
def inputEventRows : List OpcodeRow :=
  [
   ⟨"PIN_RUN", [(31, 1, 0x40000000)]⟩,
   ⟨"PIN_NOT_LOAD", [(31, 1, 0x40800000)]⟩,
   ⟨"PIN_NOT_WPE", [(31, 1, 0x41000000)]⟩,
   ⟨"PIN_NOT_ELOAD", [(31, 1, 0x41800000)]⟩,
   ⟨"PIN_WS", [(31, 7, 0x1080000)]⟩,
   ⟨"PIN_PITCH", [(31, 16, 0x8500)]⟩,
   ⟨"PIN_OCTAVE", [(31, 16, 0x8600)]⟩,
   ⟨"ECLK", [(31, 1, 0x43800000)]⟩,
   ⟨"DIV_TICK", [(31, 0, 0x88000000)]⟩,
   ⟨"PTM_O1", [(31, 1, 0x44800000)]⟩,
   ⟨"PTM_O2", [(31, 1, 0x45000000)]⟩,
   ⟨"PTM_O3", [(31, 1, 0x45800000)]⟩,
   ⟨"IRQ_IN0", [(31, 1, 0x48000000)]⟩,
   ⟨"IRQ_IN1", [(31, 1, 0x48800000)]⟩,
   ⟨"IRQ_IN2", [(31, 1, 0x49000000)]⟩,
   ⟨"IRQ_IN3", [(31, 1, 0x49800000)]⟩,
   ⟨"IRQ_IN4", [(31, 1, 0x4a000000)]⟩]

/-- The HE rows of spec/opcode_table.json. -/
def hostEventRows : List OpcodeRow :=
  [
   ⟨"RESET", [(31, 0, 0xc0000000)]⟩,
   ⟨"SAMPLE_TICK", [(31, 0, 0xc1000000)]⟩,
   ⟨"PULL_SAMPLE", [(31, 0, 0xc2000000)]⟩,
   ⟨"SAVE", [(31, 0, 0xc3000000)]⟩,
   ⟨"RESTORE", [(31, 0, 0xc4000000)]⟩]

/-- The whole table, 44 rows. -/
def opcodeTable : List OpcodeRow := busWriteRows ++ busReadRows ++ inputEventRows ++ hostEventRows

/-- The row of the opcode table an instruction is a word of. -/
def Instr.mnemonic : Instr → String
  | .waveWr _ => "WAVE_WR"
  | .waveRd => "WAVE_RD"
  | .envdnWr _ => "ENVDN_WR"
  | .envdnRd => "ENVDN_RD"
  | .envupWr _ => "ENVUP_WR"
  | .envupRd => "ENVUP_RD"
  | .volWr _ => "VOL_WR"
  | .volRd => "VOL_RD"
  | .fltWr _ => "FLT_WR"
  | .fltRd => "FLT_RD"
  | .pia0Wr _ _ => "PIA0_WR"
  | .pia0Rd _ => "PIA0_RD"
  | .pia1Wr _ _ => "PIA1_WR"
  | .pia1Rd _ => "PIA1_RD"
  | .ptmWr _ _ => "PTM_WR"
  | .ptmRd _ => "PTM_RD"
  | .unkWr1 _ => "UNK_WR.1"
  | .unkWr2 _ => "UNK_WR.2"
  | .unkWr7 _ => "UNK_WR.7"
  | .unkRd1 => "UNK_RD.1"
  | .unkRd2 => "UNK_RD.2"
  | .unkRd7 => "UNK_RD.7"
  | .pinRun _ => "PIN_RUN"
  | .pinNotLoad _ => "PIN_NOT_LOAD"
  | .pinNotWpe _ => "PIN_NOT_WPE"
  | .pinNotEload _ => "PIN_NOT_ELOAD"
  | .pinWs _ => "PIN_WS"
  | .pinPitch _ => "PIN_PITCH"
  | .pinOctave _ => "PIN_OCTAVE"
  | .eclk _ => "ECLK"
  | .divTick => "DIV_TICK"
  | .ptmO1 _ => "PTM_O1"
  | .ptmO2 _ => "PTM_O2"
  | .ptmO3 _ => "PTM_O3"
  | .irqIn0 _ => "IRQ_IN0"
  | .irqIn1 _ => "IRQ_IN1"
  | .irqIn2 _ => "IRQ_IN2"
  | .irqIn3 _ => "IRQ_IN3"
  | .irqIn4 _ => "IRQ_IN4"
  | .reset => "RESET"
  | .sampleTick => "SAMPLE_TICK"
  | .pullSample => "PULL_SAMPLE"
  | .save => "SAVE"
  | .restore => "RESTORE"

/-- The width the table leaves to a parameter: "bits above PITCH_BITS must be 0" and the same for OCTAVE_BITS
(the rows PIN_PITCH and PIN_OCTAVE; R85, R151). -/
def OpcodeRow.openWidthOk (r : OpcodeRow) (w : Word) : Bool :=
  if r.mnemonic = "PIN_PITCH" then fitsWidth (bits w 15 0) Config.pitchBits.val
  else if r.mnemonic = "PIN_OCTAVE" then fitsWidth (bits w 15 0) Config.octaveBits.val
  else true

end Sys2Proof
end

