-- ==== Sys2Proof/Machine/Ops.lean ====
section
/-! DEFINITION. The shared operations: the wave RAM (R11, R60), the data of forwarded reads (R9 `draw`), the taking
of the next delivered word (R7, R80), and the delivery of words by the outside agents (R187). The block takes no
exception and returns from none (R200, R206, R207), so no such operation stands here. -/

namespace Sys2Proof.Machine

/-! ### Wave RAM -/

/-- The bytes of wave RAM (R5 WAVE_RAM_SIZE, R11). -/
def Memory.size : Nat := 16384

/-- The canonical form: addresses strictly rising and inside the RAM. An unlisted address holds NO written byte, so
no listed byte can equal what an unlisted address holds, and equal contents are equal lists. -/
abbrev Memory.wf (m : Memory) : Prop := m.Pairwise (fun c d => c.1 < d.1) ∧ ∀ c ∈ m, c.1 < Memory.size

/-- The byte written at an address, if one has been. -/
def Memory.find : Memory → Nat → Option Byte
  | [], _ => none
  | c :: m, a => if c.1 = a then some c.2 else Memory.find m a

/-- Write one byte, keeping the addresses rising. -/
def Memory.put : Memory → Nat → Byte → Memory
  | [], a, v => [(a, v)]
  | c :: m, a, v =>
    if a < c.1 then (a, v) :: c :: m
    else if c.1 = a then (a, v) :: m
    else c :: Memory.put m a v

/-- `MemRead(a, 1)`: the last byte written there (R67), else the power-on byte, a draw (R11, R222). -/
def Memory.read (m : Memory) (a : BitVec 14) : Byte := (m.find a.toNat).getD (Config.initWaveRam a)

/-- `MemWrite(a, 1, v)`. -/
def Memory.write (m : Memory) (a : BitVec 14) (v : Byte) : Memory := m.put a.toNat v

/-- Every byte of the wave RAM, in address order: the field R11 as a save-state image holds it (R52). -/
def Memory.bytes (m : Memory) : List Byte := (List.range' 0 Memory.size).map fun a => m.read (BitVec.ofNat 14 a)

/-- The wave RAM that holds these bytes, in address order: each of them is a written byte (R184). -/
def Memory.ofBytes (bs : List Byte) : Memory := bs.zipIdx.map fun p => (p.2, p.1)

/-! ### Draws of outside agents -/

/-- `draw`: the data of the next forwarded read, chosen by the agent that is read (R9, R170, R172, R174). -/
def State.nextDraw (s : State) (src : DrawSource) : Byte := Config.readDraw src s.draws

/-- A drawn value is used once. -/
def State.countDraw (s : State) : State := { s with draws := s.draws + 1 }

/-! ### Inputs -/

/-- Begin the step on a delivered word: it leaves the queue, its image travels beside it, and the step's output list
and result start empty (R7). -/
def State.beginStep (s : State) (inp : Input) (rest : List Input) : State :=
  { s with inputs := rest, carried := inp.image, outputs := [], result := none }

/-- The next delivered word and the state in which it is performed; none when the input stream has ended (R187). -/
def State.takeInput (s : State) : Option (Word × State) :=
  match s.inputs with
  | [] => none
  | inp :: rest => some (inp.word, s.beginStep inp rest)

/-- The outside agents deliver words that carry no image, after those already delivered (R187). -/
def State.deliver (s : State) (ws : List Word) : State :=
  { s with inputs := s.inputs ++ ws.map fun w => { word := w, image := none } }

/-- The host delivers a RESTORE word with an image beside it (R84, R184, R187). -/
def State.deliverImage (s : State) (img : Image) : State :=
  { s with inputs := s.inputs ++ [{ word := encode .restore, image := some img }] }

end Sys2Proof.Machine
end

