-- ==== Sys2Proof/Machine/Envelope.lean ====
section
/-! DEFINITION. The envelope generator, rules R110 to R118, and the divider tick, rules R102 and R103. Each procedure
of the spec is one definition under the spec's name; a setter called with the current value does nothing (R140). -/

namespace Sys2Proof.Machine

/-- `update_divider()` (R110). -/
def updateDivider (s : State) : State :=
  s.onEg fun e => { e with edivRate := edivRateOf e.envDir e.env }

/-- `update_tri()` (R111): the flag, not its latch output. -/
def updateTri (s : State) : State :=
  s.onEg fun e => { e with tri := triOf e.envDir e.env }

/-- `set_envelope_direction(d)` (R112): never the latch output (D18). -/
def setEnvelopeDirection (d : EnvDir) (s : State) : State :=
  if d = s.eg.envDir then s
  else updateTri (updateDivider (s.onEg fun e => { e with envDir := d }))

/-- The end of `set_envelope`: tri reaches the latch output, announced only when the level changes (R113). -/
def propagateTri (s : State) : State :=
  if s.eg.triOut = s.eg.tri then s
  else (s.onEg fun e => { e with triOut := e.tri }).emit (.triOut s.eg.tri)

/-- `set_envelope(v)` (R113). -/
def setEnvelope (v : Byte) (s : State) : State :=
  if v = s.eg.env then s
  else propagateTri (updateTri (updateDivider (s.onEg fun e => { e with env := v })))

/-- `clock_envelope()` (R114): halted while tri; the new value goes through the setter (D17). -/
def clockEnvelope (s : State) : State :=
  if s.eg.tri then s else setEnvelope (envStep s.eg.envDir s.eg.env) s

/-- `set_env_clk(v)` (R116): only a low-to-high transition clocks. -/
def setEnvClk (v : Bool) (s : State) : State :=
  if v = s.eg.envClk then s
  else
    let s1 := s.onEg fun e => { e with envClk := v }
    if v then clockEnvelope s1 else s1

/-- `update_env_clk()` (R115). -/
def updateEnvClk (s : State) : State :=
  setEnvClk (envClkOf s.lines.notLoad s.eg.eclk s.eg.edivOut) s

/-- `apply_env_dir()` (R118): the direction latch reaches the envelope. -/
def applyEnvDir (s : State) : State := setEnvelopeDirection s.eg.envDirCtrl s

/-- "if permit_eload = 1: call apply_env_dir()", the last step of rules R145, R148, R163 and R164. -/
def applyEnvDirIfPermitted (s : State) : State := if s.lines.permitEload then applyEnvDir s else s

/-- `set_eclk(v)`, the body of ECLK (R117). -/
def setEclk (v : Bool) (s : State) : State :=
  if v = s.eg.eclk then s
  else updateEnvClk (s.onEg fun e => { e with eclk := v })

/-- `set_ediv_out(v)` (R103). -/
def setEdivOut (v : Bool) (s : State) : State :=
  if v = s.eg.edivOut then s
  else updateEnvClk (s.onEg fun e => { e with edivOut := v })

/-- `tick_divider()` (R102): the lookup uses the counter after the increment (D23). Both indices are 6-bit fields,
so the lookup is always in range (R101). -/
def tickDivider (s : State) : State :=
  let s1 := s.onEg fun e => { e with edivCount := e.edivCount + 1 }
  setEdivOut (Config.rateTable s1.eg.edivRate s1.eg.edivCount) s1

/-- ECLK (R117). -/
def execEclk (v : Bool) (s : State) : Host.Outcome State Fault Refusal := .next (setEclk v s)

/-- DIV_TICK (R102). -/
def execDivTick (s : State) : Host.Outcome State Fault Refusal := .next (tickDivider s)

end Sys2Proof.Machine
end

