-- ==== Sys2Proof/Machine/Operands.lean ====
section
/-! DEFINITION. The operand forms: the wave address (R14), the register-select remaps of the forwarding windows
(R87, R88), and the value the MSB is loaded with (R134, R146). -/

namespace Sys2Proof.Machine

/-- `((msb << 7) | lsb) & 0x3FFF`; 14-bit words drop the bits the mask clears (R14). -/
def waveAddr (msb : BitVec 8) (lsb : BitVec 7) : BitVec 14 := (msb.setWidth 14 <<< 7) ||| lsb.setWidth 14

/-- `addr(S)`: the wave address at the moment of the access (R14). -/
def State.addr (s : State) : BitVec 14 := waveAddr s.seq.msb s.seq.lsb

/-- `WaveRead(addr(S))` (R9, R14). -/
def State.waveRead (s : State) : Byte := s.ram.read s.addr

/-- `WaveWrite(addr(S), v)` (R9, R14). -/
def State.waveWrite (s : State) (v : Byte) : State := s.withRam (s.ram.write s.addr v)

/-- `0x80 | ws`: what the strobe and the upper-address load put into the MSB (R134, R146). -/
def msbLoadValue (ws : BitVec 7) : BitVec 8 := 0x80#8 ||| ws.setWidth 8

/-- The register select of an adapter window access: `PIA_RS(off[1:0])` (R87). -/
def piaSelect (offLo : BitVec 2) : BitVec 2 := Config.piaRs offLo

/-- The bus offset of a timer window access: 0x10 + off[2:0] (R86). -/
def ptmOffset (offLo : BitVec 3) : BitVec 5 := 0b10#2 ++ offLo

/-- `a1 = (ptm_o[1] AND bit(off, 3)) OR (NOT bit(off, 3) AND bit(off, 2))` (R88). -/
def ptmA1 (o1 : Bool) (off : BitVec 5) : Bool :=
  (o1 && off.getLsbD 3) || (!off.getLsbD 3 && off.getLsbD 2)

/-- The register select of a timer access: `(a2 << 2) | (a1 << 1) | a0`, with a0 = bit 0 and a2 = bit 1 of the
offset (R88; D32, PRESUMED by the spec, log 9). -/
def ptmSelect (o1 : Bool) (off : BitVec 5) : BitVec 3 :=
  (BitVec.ofBool (off.getLsbD 1)).setWidth 3 <<< 2
    ||| (BitVec.ofBool (ptmA1 o1 off)).setWidth 3 <<< 1
    ||| (BitVec.ofBool (off.getLsbD 0)).setWidth 3

end Sys2Proof.Machine
end

