-- ==== Sys2Proof/Machine/Sequencer.lean ====
section
/-! DEFINITION. The control-network setters a zero crossing and a strobe reach (R144 to R147), the address sequencer
(R120 to R129, R133, R134), and the sample tick and mixer pull (R130 to R132). The order of calls is the spec's
(R141): stores and emitted events happen in exactly that order. -/

namespace Sys2Proof.Machine

/-! ### Upper-address load, envelope-load permission, gated zero crossing -/

/-- `set_msb(v)` (R124). -/
def setMsb (v : BitVec 8) (s : State) : State := s.onSeq fun q => { q with msb := v }

/-- `set_upper_load(v)` (R146): the rising edge loads the MSB from ws (D8). -/
def setUpperLoad (v : Bool) (s : State) : State :=
  if v = s.lines.upperLoad then s
  else
    let s1 := s.onLines fun l => { l with upperLoad := v }
    if v then setMsb (msbLoadValue s1.pins.ws) s1 else s1

/-- `update_upper_load()` (R146). -/
def updateUpperLoad (s : State) : State := setUpperLoad (upperLoadOf s.lines.gzx s.lines.notRstb) s

/-- `update_permit_eload()` (R147): its setter triggers nothing. -/
def updatePermitEload (s : State) : State :=
  let v := permitEloadOf s.lines.gzx s.lines.notEload
  if v = s.lines.permitEload then s else s.onLines fun l => { l with permitEload := v }

/-- `set_gzx(v)` (R145): "if now asserted" is read after the permission's recompute (D46). -/
def setGzx (v : Bool) (s : State) : State :=
  if v = s.lines.gzx then s
  else
    applyEnvDirIfPermitted (updatePermitEload (updateUpperLoad (s.onLines fun l => { l with gzx := v })))

/-- `update_gzx()` (R145). -/
def updateGzx (s : State) : State := setGzx (gzxOf s.lines.zxFf s.lines.notRstb) s

/-- `set_not_rstb(v)` (R144): each edge re-triggers gzx, then the upper-address load. -/
def setNotRstb (v : Bool) (s : State) : State :=
  if v = s.lines.notRstb then s
  else updateUpperLoad (updateGzx (s.onLines fun l => { l with notRstb := v }))

/-! ### The zero-crossing chain -/

/-- `set_msb_clk(v)` (R123): the active edge increments the MSB modulo 256 (D10, D11). -/
def setMsbClk (v : Bool) (s : State) : State :=
  if v = s.lines.msbClk then s
  else
    let s1 := s.onLines fun l => { l with msbClk := v }
    if v = msbClkActiveLevel then setMsb (s1.seq.msb + 1) s1 else s1

/-- `update_msb_clk()` (R123). -/
def updateMsbClk (s : State) : State := setMsbClk (msbClkOf s.lines.notLoad s.lines.zx) s

/-- `zx_out()` (R128). -/
def zxOut (s : State) : State := s.emit (.zxOut s.lines.zx)

/-- `set_zx_ff(v)` (R126): stores only (D19). -/
def setZxFf (v : Bool) (s : State) : State :=
  if v = s.lines.zxFf then s else s.onLines fun l => { l with zxFf := v }

/-- `pulse_zcint()` (R127): asserted and deasserted within the step. -/
def pulseZcint (s : State) : State := (s.emit (.zcint true)).emit (.zcint false)

/-- `set_zx_ff_clk(v)` (R125): on a rise while run, latch the timer's output 1, pulse, then update gzx. -/
def setZxFfClk (v : Bool) (s : State) : State :=
  if v = s.lines.zxFfClk then s
  else
    let s1 := s.onLines fun l => { l with zxFfClk := v }
    if v && s1.lines.run then updateGzx (pulseZcint (setZxFf s1.ptm.o1 s1)) else s1

/-- `update_zx_ff_clk()` (R125). -/
def updateZxFfClk (s : State) : State := setZxFfClk (zxFfClkOf s.lines.zx) s

/-- `update_ptm_c1()` (R129). -/
def updatePtmC1 (s : State) : State :=
  let v := ptmC1Of s.lines.notLoad s.lines.zxFfClk
  if v = s.lines.ptmC1 then s
  else (s.onLines fun l => { l with ptmC1 := v }).emit (.ptmC1 v)

/-- `set_zx(v)` (R122): MSB clock, edge pulse, flip-flop clock, timer line, in this order. -/
def setZx (v : Bool) (s : State) : State :=
  if v = s.lines.zx then s
  else updatePtmC1 (updateZxFfClk (zxOut (updateMsbClk (s.onLines fun l => { l with zx := v }))))

/-- `set_lsb(v)` (R121). -/
def setLsb (v : BitVec 7) (s : State) : State :=
  if v = s.seq.lsb then s else setZx (zxOf v) (s.onSeq fun q => { q with lsb := v })

/-- `advance()` (R120): one shared advance for the sample tick and the data port (D13). -/
def advance (s : State) : State := setLsb (s.seq.lsb + 1) s

/-! ### The strobe -/

/-- `strobe()` (R134). -/
def strobe (s : State) : State :=
  let s1 := setLsb 0#7 (setNotRstb true (setNotRstb false (s.onSeq fun q => { q with newAddr := true })))
  setMsb (msbLoadValue s1.pins.ws) s1

/-- `check_rstb()` (R133): every change of `run XOR NOT not_load` strobes. -/
def checkRstb (s : State) : State :=
  let x := rstbXOf s.lines.run s.lines.notLoad
  if x = s.lines.rstbX then s else strobe (s.onLines fun l => { l with rstbX := x })

/-! ### Sample tick and audio path -/

/-- `update_sample()` (R131). -/
def updateSample (s : State) : State :=
  s.onSeq fun q => { q with currentSample := sampleOf q.waveByte s.eg.env s.latches.volLatch }

/-- The body of SAMPLE_TICK (R130): read at the address before the advance, advance, then the new sample. -/
def sampleTick (s : State) : State :=
  updateSample (advance (s.onSeq fun q => { q with waveByte := s.waveRead }))

/-- SAMPLE_TICK (R130): no step while the timer is disabled (D44). -/
def execSampleTick (s : State) : Host.Outcome State Fault Refusal :=
  if s.ptm.sampleTimerEnabled then .next (sampleTick s) else .refused .timerDisabled

/-- PULL_SAMPLE (R132). -/
def execPullSample (s : State) : Host.Outcome State Fault Refusal :=
  .next (s.withResult (.sample (mixerSample s.lines.run s.seq.currentSample)))

end Sys2Proof.Machine
end

