-- ==== Sys2Proof/Machine/BusInterface.lean ====
section
/-! DEFINITION. The bus interface, rules R161 to R176: one definition per offset form, over three shared operations
(direction select, forwarded read, undecoded access). -/

namespace Sys2Proof.Machine

/-! ### Offset 0 -/

/-- WAVE_WR (R161): write at the address before the advance; new_addr is not touched (D14), and neither run, not_load
nor not_wpe gates the write (D27). -/
def execWaveWr (data : Byte) (s : State) : Host.Outcome State Fault Refusal := .next (advance (s.waveWrite data))

/-- A read of the data port clears a pending new_addr, and otherwise advances (R162). -/
def afterWaveRead (s : State) : State :=
  if s.seq.newAddr then s.onSeq fun q => { q with newAddr := false } else advance s

/-- WAVE_RD (R162): the byte is the one at the address before any advance (D49). -/
def execWaveRd (s : State) : Host.Outcome State Fault Refusal :=
  .next ((afterWaveRead s).withResult (.data s.waveRead))

/-! ### Offsets 3 and 4 -/

/-- Select a direction in the control latch; it reaches the envelope at once while permitted (R163, R164; D5). -/
def selectDirection (d : EnvDir) (s : State) : State :=
  applyEnvDirIfPermitted (s.onEg fun e => { e with envDirCtrl := d })

/-- ENVDN_WR (R163): the data byte has no effect. -/
def execEnvdnWr (_data : Byte) (s : State) : Host.Outcome State Fault Refusal := .next (selectDirection .down s)

/-- ENVDN_RD (R163): a read selects as a write does and returns 0 (D4). -/
def execEnvdnRd (s : State) : Host.Outcome State Fault Refusal :=
  .next ((selectDirection .down s).withResult (.data 0#8))

/-- ENVUP_WR (R164): the data byte has no effect. -/
def execEnvupWr (_data : Byte) (s : State) : Host.Outcome State Fault Refusal := .next (selectDirection .up s)

/-- ENVUP_RD (R164): a read selects as a write does and returns 0 (D4). -/
def execEnvupRd (s : State) : Host.Outcome State Fault Refusal :=
  .next ((selectDirection .up s).withResult (.data 0#8))

/-! ### Offsets 5 and 6 -/

/-- VOL_WR (R165): the sample is not recomputed (D21). -/
def execVolWr (data : Byte) (s : State) : Host.Outcome State Fault Refusal :=
  .next (s.onLatches fun l => { l with volLatch := data })

/-- VOL_RD (R166): always 0xFF. -/
def execVolRd (s : State) : Host.Outcome State Fault Refusal := .next (s.withResult (.data 0xFF#8))

/-- FLT_WR (R167): stored; no rule reads it. -/
def execFltWr (data : Byte) (s : State) : Host.Outcome State Fault Refusal :=
  .next (s.onLatches fun l => { l with fltLatch := data })

/-- A read that no register answers: logged, and 0 is returned (R168, R176). -/
def undecodedRead (off : Nat) (s : State) : State :=
  (s.emit (.diagUnknown .read off)).withResult (.data 0#8)

/-- FLT_RD (R168): offset 6 is write-only, so a read is an unknown-offset read (D50). -/
def execFltRd (s : State) : Host.Outcome State Fault Refusal := .next (undecodedRead 0x06 s)

/-! ### Forwarding windows -/

/-- A read forwarded to an outside agent: the access is announced, and the data is that agent's draw (R170, R172,
R174; D39). -/
def forwardRead (src : DrawSource) (e : OutEvent) (s : State) : State :=
  (s.emit e).countDraw.withResult (.data (s.nextDraw src))

/-- PIA0_WR (R169). -/
def execPia0Wr (offLo : BitVec 2) (data : Byte) (s : State) : Host.Outcome State Fault Refusal :=
  .next (s.emit (.piaWr .pia0 (piaSelect offLo) data))

/-- PIA0_RD (R170). -/
def execPia0Rd (offLo : BitVec 2) (s : State) : Host.Outcome State Fault Refusal :=
  .next (forwardRead .pia0Read (.piaRd .pia0 (piaSelect offLo)) s)

/-- PIA1_WR (R171). -/
def execPia1Wr (offLo : BitVec 2) (data : Byte) (s : State) : Host.Outcome State Fault Refusal :=
  .next (s.emit (.piaWr .pia1 (piaSelect offLo) data))

/-- PIA1_RD (R172). -/
def execPia1Rd (offLo : BitVec 2) (s : State) : Host.Outcome State Fault Refusal :=
  .next (forwardRead .pia1Read (.piaRd .pia1 (piaSelect offLo)) s)

/-- PTM_WR (R173): the select reads ptm_o[1] at the time of the access (R88). -/
def execPtmWr (offLo : BitVec 3) (data : Byte) (s : State) : Host.Outcome State Fault Refusal :=
  .next (s.emit (.ptmWr (ptmSelect s.ptm.o1 (ptmOffset offLo)) data))

/-- PTM_RD (R174). -/
def execPtmRd (offLo : BitVec 3) (s : State) : Host.Outcome State Fault Refusal :=
  .next (forwardRead .ptmRead (.ptmRd (ptmSelect s.ptm.o1 (ptmOffset offLo))) s)

/-! ### Undecoded offsets -/

/-- A write that no register takes: logged only (R175). -/
def undecodedWrite (off : Nat) (s : State) : State := s.emit (.diagUnknown .write off)

/-- UNK_WR.1 (R175). -/
def execUnkWr1 (_data : Byte) (s : State) : Host.Outcome State Fault Refusal := .next (undecodedWrite 0x01 s)

/-- UNK_WR.2 (R175). -/
def execUnkWr2 (_data : Byte) (s : State) : Host.Outcome State Fault Refusal := .next (undecodedWrite 0x02 s)

/-- UNK_WR.7 (R175). -/
def execUnkWr7 (_data : Byte) (s : State) : Host.Outcome State Fault Refusal := .next (undecodedWrite 0x07 s)

/-- UNK_RD.1 (R176). -/
def execUnkRd1 (s : State) : Host.Outcome State Fault Refusal := .next (undecodedRead 0x01 s)

/-- UNK_RD.2 (R176). -/
def execUnkRd2 (s : State) : Host.Outcome State Fault Refusal := .next (undecodedRead 0x02 s)

/-- UNK_RD.7 (R176). -/
def execUnkRd7 (s : State) : Host.Outcome State Fault Refusal := .next (undecodedRead 0x07 s)

end Sys2Proof.Machine
end

