-- ==== Sys2Proof/Machine/ControlPins.lean ====
section
/-! DEFINITION. The block's input pins and pin-driven registers: rules R142, R143 and R148 to R151. -/

namespace Sys2Proof.Machine

/-- `set_not_load(v)` (R142): strobe check, timer line, envelope clock (D16). -/
def setNotLoad (v : Bool) (s : State) : State :=
  if v = s.lines.notLoad then s
  else updateEnvClk (updatePtmC1 (checkRstb (s.onLines fun l => { l with notLoad := v })))

/-- The loops of R143: drive the three gate lines to one level, each stored and then announced. -/
def driveGates (v : Bool) (s : State) : State :=
  let s1 := (s.onPtm fun p => { p with gate1 := v }).emit (.ptmGate .gate1 v)
  let s2 := (s1.onPtm fun p => { p with gate2 := v }).emit (.ptmGate .gate2 v)
  (s2.onPtm fun p => { p with gate3 := v }).emit (.ptmGate .gate3 v)

/-- run low to high (R143): arm the sample timer, release the gates. -/
def startRun (s : State) : State :=
  driveGates false
    ((s.onPtm fun p => { p with sampleTimerEnabled := true }).emit (.timerStart s.pins.pitch s.pins.octave))

/-- run high to low (R143): disarm the timer, force the neutral byte and the silent sample, assert the gates,
clear the zero-crossing flip-flop. -/
def stopRun (s : State) : State :=
  let s1 := (s.onPtm fun p => { p with sampleTimerEnabled := false }).emit .timerStop
  setZxFf false (driveGates true (updateSample (s1.onSeq fun q => { q with waveByte := 0x80#8 })))

/-- `set_run(v)` (R143): the strobe check comes after run's own effects (D15). -/
def setRun (v : Bool) (s : State) : State :=
  if v = s.lines.run then s
  else
    let s1 := s.onLines fun l => { l with run := v }
    checkRstb (if v then startRun s1 else stopRun s1)

/-- `set_not_eload(v)` (R148). -/
def setNotEload (v : Bool) (s : State) : State :=
  if v = s.lines.notEload then s
  else applyEnvDirIfPermitted (updatePermitEload (s.onLines fun l => { l with notEload := v }))

/-- `set_not_wpe(v)` (R149): stored, no effect (D27). -/
def setNotWpe (v : Bool) (s : State) : State :=
  if v = s.lines.notWpe then s else s.onLines fun l => { l with notWpe := v }

/-- A pitch or octave change reprograms the running sample timer (R151; D47). -/
def reprogramIfRunning (s : State) : State :=
  if s.lines.run then s.emit (.timerReprogram s.pins.pitch s.pins.octave) else s

/-- `set_pitch(v)` (R151). -/
def setPitch (v : Nat) (s : State) : State :=
  if v = s.pins.pitch then s else reprogramIfRunning (s.onPins fun p => { p with pitch := v })

/-- `set_octave(v)` (R151). -/
def setOctave (v : Nat) (s : State) : State :=
  if v = s.pins.octave then s else reprogramIfRunning (s.onPins fun p => { p with octave := v })

/-- PIN_RUN (R143). -/
def execPinRun (v : Bool) (s : State) : Host.Outcome State Fault Refusal := .next (setRun v s)

/-- PIN_NOT_LOAD (R142). -/
def execPinNotLoad (v : Bool) (s : State) : Host.Outcome State Fault Refusal := .next (setNotLoad v s)

/-- PIN_NOT_WPE (R149). -/
def execPinNotWpe (v : Bool) (s : State) : Host.Outcome State Fault Refusal := .next (setNotWpe v s)

/-- PIN_NOT_ELOAD (R148). -/
def execPinNotEload (v : Bool) (s : State) : Host.Outcome State Fault Refusal := .next (setNotEload v s)

/-- PIN_WS (R150): stored only; the MSB does not move. -/
def execPinWs (v : BitVec 7) (s : State) : Host.Outcome State Fault Refusal :=
  .next (s.onPins fun p => { p with ws := v })

/-- PIN_PITCH (R151). -/
def execPinPitch (v : Nat) (s : State) : Host.Outcome State Fault Refusal := .next (setPitch v s)

/-- PIN_OCTAVE (R151). -/
def execPinOctave (v : Nat) (s : State) : Host.Outcome State Fault Refusal := .next (setOctave v s)

end Sys2Proof.Machine
end

