-- ==== Sys2Proof/Machine/SaveImage.lean ====
section
/-! DEFINITION. The save-state image (R52, R183): every field of rules R11 to R49 in rule order, how an image is read
back, and the quiescent invariants an image must satisfy (R51, R184). -/

namespace Sys2Proof.Machine

/-! ### Writing the image -/

/-- The numeric value of a direction: DOWN = 0, UP = 1 (R19). -/
def EnvDir.toNat : EnvDir → Nat
  | .down => 0
  | .up => 1

/-- A 1-bit field. -/
def bitField (b : Bool) : FieldValue := .num b.toNat

/-- R12 to R17. -/
def Sequencer.fields (q : Sequencer) : Image :=
  [.num q.lsb.toNat, .num q.msb.toNat, bitField q.newAddr, .num q.waveByte.toNat, .num q.currentSample.toNat]

/-- R18 to R27. -/
def EnvGen.fields (e : EnvGen) : Image :=
  [.num e.env.toNat, .num e.envDir.toNat, .num e.envDirCtrl.toNat, .num e.edivRate.toNat, bitField e.tri,
   bitField e.triOut, .num e.edivCount.toNat, bitField e.edivOut, bitField e.eclk, bitField e.envClk]

/-- R28, R29. -/
def Latches.fields (l : Latches) : Image := [.num l.volLatch.toNat, .num l.fltLatch.toNat]

/-- R30 to R43. -/
def Lines.fields (l : Lines) : Image :=
  [bitField l.run, bitField l.notLoad, bitField l.notWpe, bitField l.notEload, bitField l.permitEload,
   bitField l.zx, bitField l.zxFfClk, bitField l.zxFf, bitField l.gzx, bitField l.notRstb,
   bitField l.upperLoad, bitField l.msbClk, bitField l.ptmC1, bitField l.rstbX]

/-- R44, R45. -/
def PinRegs.fields (p : PinRegs) : Image := [.num p.ws.toNat, .num p.pitch, .num p.octave]

/-- R46 to R48. -/
def PtmLines.fields (p : PtmLines) : Image :=
  [bitField p.o1, bitField p.o2, bitField p.o3, bitField p.gate1, bitField p.gate2, bitField p.gate3,
   bitField p.sampleTimerEnabled]

/-- R49. -/
def IrqLines.fields (q : IrqLines) : Image :=
  [bitField q.in0, bitField q.in1, bitField q.in2, bitField q.in3, bitField q.in4, bitField q.out]

/-- `image(S)`: every field of rules R11 to R49, in that order (R183), all 16384 bytes of the wave RAM among them:
a byte nobody has written stands in it with its power-on value. -/
def Block.image (b : Block) : Image :=
  .ram b.ram.bytes :: (b.seq.fields ++ b.eg.fields ++ b.latches.fields ++ b.lines.fields ++ b.pins.fields
    ++ b.ptm.fields ++ b.irq.fields)

/-! ### Reading an image -/

/-- A number that fits an n-bit field, and the rest of the image. -/
def takeNum (width : Nat) : Image → Option (Nat × Image)
  | .num n :: rest => if fitsWidth n width then some (n, rest) else none
  | _ => none

/-- An n-bit register. -/
def takeBits (width : Nat) (img : Image) : Option (BitVec width × Image) := do
  let (n, rest) ← takeNum width img
  return (BitVec.ofNat width n, rest)

/-- A 1-bit field. -/
def takeBool (img : Image) : Option (Bool × Image) := do
  let (n, rest) ← takeNum 1 img
  return (n == 1, rest)

/-- A direction field. -/
def takeDir (img : Image) : Option (EnvDir × Image) := do
  let (b, rest) ← takeBool img
  return (if b then .up else .down, rest)

/-- The wave RAM: complete when the image holds a byte for each address, and no more (R11, R184). -/
def takeRam : Image → Option (Memory × Image)
  | .ram bs :: rest => if bs.length = Memory.size then some (Memory.ofBytes bs, rest) else none
  | _ => none

/-- R12 to R17. -/
def Sequencer.take (i0 : Image) : Option (Sequencer × Image) := do
  let (lsb, i1) ← takeBits 7 i0
  let (msb, i2) ← takeBits 8 i1
  let (newAddr, i3) ← takeBool i2
  let (waveByte, i4) ← takeBits 8 i3
  let (currentSample, i5) ← takeBits 16 i4
  return ({ lsb, msb, newAddr, waveByte, currentSample }, i5)

/-- R18 to R27. -/
def EnvGen.take (i0 : Image) : Option (EnvGen × Image) := do
  let (env, i1) ← takeBits 8 i0
  let (envDir, i2) ← takeDir i1
  let (envDirCtrl, i3) ← takeDir i2
  let (edivRate, i4) ← takeBits 6 i3
  let (tri, i5) ← takeBool i4
  let (triOut, i6) ← takeBool i5
  let (edivCount, i7) ← takeBits 6 i6
  let (edivOut, i8) ← takeBool i7
  let (eclk, i9) ← takeBool i8
  let (envClk, i10) ← takeBool i9
  return ({ env, envDir, envDirCtrl, edivRate, tri, triOut, edivCount, edivOut, eclk, envClk }, i10)

/-- R28, R29. -/
def Latches.take (i0 : Image) : Option (Latches × Image) := do
  let (volLatch, i1) ← takeBits 8 i0
  let (fltLatch, i2) ← takeBits 8 i1
  return ({ volLatch, fltLatch }, i2)

/-- R30 to R43. -/
def Lines.take (i0 : Image) : Option (Lines × Image) := do
  let (run, i1) ← takeBool i0
  let (notLoad, i2) ← takeBool i1
  let (notWpe, i3) ← takeBool i2
  let (notEload, i4) ← takeBool i3
  let (permitEload, i5) ← takeBool i4
  let (zx, i6) ← takeBool i5
  let (zxFfClk, i7) ← takeBool i6
  let (zxFf, i8) ← takeBool i7
  let (gzx, i9) ← takeBool i8
  let (notRstb, i10) ← takeBool i9
  let (upperLoad, i11) ← takeBool i10
  let (msbClk, i12) ← takeBool i11
  let (ptmC1, i13) ← takeBool i12
  let (rstbX, i14) ← takeBool i13
  return ({ run, notLoad, notWpe, notEload, permitEload, zx, zxFfClk, zxFf, gzx, notRstb, upperLoad, msbClk,
            ptmC1, rstbX }, i14)

/-- R44, R45. -/
def PinRegs.take (i0 : Image) : Option (PinRegs × Image) := do
  let (ws, i1) ← takeBits 7 i0
  let (pitch, i2) ← takeNum Config.pitchBits.val i1
  let (octave, i3) ← takeNum Config.octaveBits.val i2
  return ({ ws, pitch, octave }, i3)

/-- R46 to R48. -/
def PtmLines.take (i0 : Image) : Option (PtmLines × Image) := do
  let (o1, i1) ← takeBool i0
  let (o2, i2) ← takeBool i1
  let (o3, i3) ← takeBool i2
  let (gate1, i4) ← takeBool i3
  let (gate2, i5) ← takeBool i4
  let (gate3, i6) ← takeBool i5
  let (sampleTimerEnabled, i7) ← takeBool i6
  return ({ o1, o2, o3, gate1, gate2, gate3, sampleTimerEnabled }, i7)

/-- R49. -/
def IrqLines.take (i0 : Image) : Option (IrqLines × Image) := do
  let (in0, i1) ← takeBool i0
  let (in1, i2) ← takeBool i1
  let (in2, i3) ← takeBool i2
  let (in3, i4) ← takeBool i3
  let (in4, i5) ← takeBool i4
  let (out, i6) ← takeBool i5
  return ({ in0, in1, in2, in3, in4, out }, i6)

/-- The fields of a complete image of well-typed fields, and nothing after them; else none (R184). -/
def Block.ofImage? (img : Image) : Option Block := do
  let (ram, i1) ← takeRam img
  let (seq, i2) ← Sequencer.take i1
  let (eg, i3) ← EnvGen.take i2
  let (latches, i4) ← Latches.take i3
  let (lines, i5) ← Lines.take i4
  let (pins, i6) ← PinRegs.take i5
  let (ptm, i7) ← PtmLines.take i6
  let (irq, i8) ← IrqLines.take i7
  if i8 = [] then some { ram, seq, eg, latches, lines, pins, ptm, irq } else none

/-! ### The quiescent invariants (R51) -/

/-- R51: the zero-crossing lines are the functions of lsb and not_load that their rules give. -/
abbrev Block.ZeroCrossingSettled (b : Block) : Prop :=
  b.lines.zx = zxOf b.seq.lsb ∧ b.lines.zxFfClk = zxFfClkOf b.lines.zx
    ∧ b.lines.msbClk = msbClkOf b.lines.notLoad b.lines.zx ∧ b.lines.ptmC1 = ptmC1Of b.lines.notLoad b.lines.zxFfClk

/-- R51: between steps the strobe is high, and gzx, upper_load and permit_eload follow the flip-flop. -/
abbrev Block.GatesSettled (b : Block) : Prop :=
  b.lines.notRstb = true ∧ b.lines.gzx = b.lines.zxFf ∧ b.lines.upperLoad = b.lines.gzx
    ∧ b.lines.permitEload = permitEloadOf b.lines.gzx b.lines.notEload

/-- R51: the divider selector, tri and the composite envelope clock have the values their rules compute. -/
abbrev Block.EnvelopeSettled (b : Block) : Prop :=
  b.eg.edivRate = edivRateOf b.eg.envDir b.eg.env ∧ b.eg.tri = triOf b.eg.envDir b.eg.env
    ∧ b.eg.envClk = envClkOf b.lines.notLoad b.eg.eclk b.eg.edivOut
    ∧ (b.lines.permitEload = true → b.eg.envDir = b.eg.envDirCtrl)

/-- R51: the strobe pulser's memory, the sample timer, silence while stopped, and the merged interrupt line. -/
abbrev Block.RunSettled (b : Block) : Prop :=
  b.lines.rstbX = rstbXOf b.lines.run b.lines.notLoad ∧ b.ptm.sampleTimerEnabled = b.lines.run
    ∧ (b.lines.run = false → b.seq.waveByte = 0x80#8 ∧ b.seq.currentSample = 0#16)
    ∧ b.irq.out = irqOf b.irq

/-- Every invariant of R51. (`tri_out = tri` is not one.) -/
abbrev Block.Quiescent (b : Block) : Prop :=
  b.ZeroCrossingSettled ∧ b.GatesSettled ∧ b.EnvelopeSettled ∧ b.RunSettled

end Sys2Proof.Machine
end

