-- ==== Sys2Proof/Machine/External.lean ====
section
/-! DEFINITION. The external interface: the timer's output lines (R180), the interrupt merge (R181), save and restore
(R183, R184), device reset (R220), where output events go (R185, R186), and the levels the block drives (R223). -/

namespace Sys2Proof.Machine

/-! ### The timer's output lines -/

/-- PTM_O1 (R180): sampled where it is used, so no chain follows (D25). -/
def execPtmO1 (v : Bool) (s : State) : Host.Outcome State Fault Refusal := .next (s.onPtm fun p => { p with o1 := v })

/-- PTM_O2 (R180): stored; no rule reads it. -/
def execPtmO2 (v : Bool) (s : State) : Host.Outcome State Fault Refusal := .next (s.onPtm fun p => { p with o2 := v })

/-- PTM_O3 (R180): stored; no rule reads it. -/
def execPtmO3 (v : Bool) (s : State) : Host.Outcome State Fault Refusal := .next (s.onPtm fun p => { p with o3 := v })

/-! ### The interrupt merge -/

/-- The merge after a source changed: the OR of the five levels, announced when it changes (R181). -/
def mergeIrq (s : State) : State :=
  let n := irqOf s.irq
  if n = s.irq.out then s else (s.onIrq fun q => { q with out := n }).emit (.irq n)

/-- IRQ_IN0 (R181). -/
def execIrqIn0 (v : Bool) (s : State) : Host.Outcome State Fault Refusal :=
  .next (mergeIrq (s.onIrq fun q => { q with in0 := v }))

/-- IRQ_IN1 (R181). -/
def execIrqIn1 (v : Bool) (s : State) : Host.Outcome State Fault Refusal :=
  .next (mergeIrq (s.onIrq fun q => { q with in1 := v }))

/-- IRQ_IN2 (R181). -/
def execIrqIn2 (v : Bool) (s : State) : Host.Outcome State Fault Refusal :=
  .next (mergeIrq (s.onIrq fun q => { q with in2 := v }))

/-- IRQ_IN3 (R181). -/
def execIrqIn3 (v : Bool) (s : State) : Host.Outcome State Fault Refusal :=
  .next (mergeIrq (s.onIrq fun q => { q with in3 := v }))

/-- IRQ_IN4 (R181). -/
def execIrqIn4 (v : Bool) (s : State) : Host.Outcome State Fault Refusal :=
  .next (mergeIrq (s.onIrq fun q => { q with in4 := v }))

/-! ### Save and restore -/

/-- SAVE (R183): the image is the result; no field is written. -/
def execSave (s : State) : Host.Outcome State Fault Refusal := .next (s.withResult (.image s.toBlock.image))

/-- The block a restore loads: the image beside the word, if it is complete, well typed and consistent (R184). -/
def restorable (img : Option Image) : Option Block :=
  match img with
  | none => none
  | some i =>
    match Block.ofImage? i with
    | none => none
    | some b => if b.Quiescent then some b else none

/-- RESTORE (R184): the image replaces every field; no setter runs and no event is emitted (D42). -/
def execRestore (s : State) : Host.Outcome State Fault Refusal :=
  match restorable s.carried with
  | none => .refused .badImage
  | some b => .next { s with toBlock := b }

/-! ### Reset -/

/-- RESET (R220, R221): every field of rules R12 to R49 at its reset value, written directly; the wave RAM keeps its
content; no chain runs and no event is emitted (D36). -/
def execReset (s : State) : Host.Outcome State Fault Refusal :=
  .next { s with toBlock := { Block.reset with ram := s.ram } }

/-! ### Where output events go -/

/-- The receivers of rules R185 and R186 and of the interrupt merge's exposed line (R203). -/
inductive Receiver where
  /-- An edge or pin input of an adapter. -/
  | piaPins (at_ : List PiaPin)
  /-- The register file of an adapter, reached by a bus access. -/
  | piaRegisters (k : Pia)
  /-- The timer's c1 input. -/
  | ptmControl
  /-- One of the timer's gate inputs. -/
  | ptmGateInput (i : TimerGate)
  /-- The register file of the timer. -/
  | ptmRegisters
  /-- The host's sample-timer service (R182). -/
  | timerService
  /-- The single interrupt line exposed upward (R181). -/
  | interruptLine
  /-- The host's diagnostics; not a hardware signal (R50). -/
  | diagnostics
  deriving DecidableEq, Repr

/-- Who receives an output event (R127, R128, R113, R181, R182, R185, R186; D30). -/
def OutEvent.receiver : OutEvent → Receiver
  | .zxOut _ => .piaPins Config.zxRoute
  | .zcint _ => .piaPins [Config.zcintRoute]
  | .triOut _ => .piaPins [Config.triRoute]
  | .ptmC1 _ => .ptmControl
  | .ptmGate i _ => .ptmGateInput i
  | .timerStart _ _ => .timerService
  | .timerStop => .timerService
  | .timerReprogram _ _ => .timerService
  | .irq _ => .interruptLine
  | .piaWr k _ _ => .piaRegisters k
  | .piaRd k _ => .piaRegisters k
  | .ptmWr _ _ => .ptmRegisters
  | .ptmRd _ => .ptmRegisters
  | .diagUnknown _ _ => .diagnostics

/-- An output event that is a hardware signal: all but DIAG_UNKNOWN, which no statement may depend on (R50). -/
def OutEvent.isSignal : OutEvent → Bool
  | .diagUnknown _ _ => false
  | _ => true

/-- The hardware signals of an output list, in order (R50). -/
def signals (es : List OutEvent) : List OutEvent := es.filter OutEvent.isSignal

/-- The period of the sample timer while it is armed, none ("period = never") while it is not (R182, R209, R213).
Timing only: no rule of the block reads it (R231). -/
def Block.samplePeriod? (b : Block) : Option Nat :=
  if b.ptm.sampleTimerEnabled then some (Config.samplePeriod b.pins.pitch b.pins.octave) else none

/-- The levels the block drives and offers to its receivers (R185, R186, R223). -/
structure OutputLevels where
  zx : Bool
  triOut : Bool
  ptmC1 : Bool
  gate1 : Bool
  gate2 : Bool
  gate3 : Bool
  irqOut : Bool
  deriving DecidableEq, Repr

/-- The output levels of a block (R223). -/
def Block.outputLevels (b : Block) : OutputLevels where
  zx := b.lines.zx
  triOut := b.eg.triOut
  ptmC1 := b.lines.ptmC1
  gate1 := b.ptm.gate1
  gate2 := b.ptm.gate2
  gate3 := b.ptm.gate3
  irqOut := b.irq.out

end Sys2Proof.Machine
end

