-- ==== Sys2Proof/Machine/Dispatch.lean ====
section
/-! DEFINITION. One arm per instruction, each a direct call of its meaning (R160: an access is performed by exactly
one rule). -/

namespace Sys2Proof.Machine

/-- The effect of one instruction (R7): a next state, or no step. -/
def exec (i : Instr) (s : State) : Host.Outcome State Fault Refusal :=
  match i with
  | .waveWr data => Sys2Proof.Machine.execWaveWr data s
  | .waveRd => Sys2Proof.Machine.execWaveRd s
  | .envdnWr data => Sys2Proof.Machine.execEnvdnWr data s
  | .envdnRd => Sys2Proof.Machine.execEnvdnRd s
  | .envupWr data => Sys2Proof.Machine.execEnvupWr data s
  | .envupRd => Sys2Proof.Machine.execEnvupRd s
  | .volWr data => Sys2Proof.Machine.execVolWr data s
  | .volRd => Sys2Proof.Machine.execVolRd s
  | .fltWr data => Sys2Proof.Machine.execFltWr data s
  | .fltRd => Sys2Proof.Machine.execFltRd s
  | .pia0Wr offLo data => Sys2Proof.Machine.execPia0Wr offLo data s
  | .pia0Rd offLo => Sys2Proof.Machine.execPia0Rd offLo s
  | .pia1Wr offLo data => Sys2Proof.Machine.execPia1Wr offLo data s
  | .pia1Rd offLo => Sys2Proof.Machine.execPia1Rd offLo s
  | .ptmWr offLo data => Sys2Proof.Machine.execPtmWr offLo data s
  | .ptmRd offLo => Sys2Proof.Machine.execPtmRd offLo s
  | .unkWr1 data => Sys2Proof.Machine.execUnkWr1 data s
  | .unkWr2 data => Sys2Proof.Machine.execUnkWr2 data s
  | .unkWr7 data => Sys2Proof.Machine.execUnkWr7 data s
  | .unkRd1 => Sys2Proof.Machine.execUnkRd1 s
  | .unkRd2 => Sys2Proof.Machine.execUnkRd2 s
  | .unkRd7 => Sys2Proof.Machine.execUnkRd7 s
  | .pinRun v => Sys2Proof.Machine.execPinRun v s
  | .pinNotLoad v => Sys2Proof.Machine.execPinNotLoad v s
  | .pinNotWpe v => Sys2Proof.Machine.execPinNotWpe v s
  | .pinNotEload v => Sys2Proof.Machine.execPinNotEload v s
  | .pinWs v => Sys2Proof.Machine.execPinWs v s
  | .pinPitch v => Sys2Proof.Machine.execPinPitch v s
  | .pinOctave v => Sys2Proof.Machine.execPinOctave v s
  | .eclk v => Sys2Proof.Machine.execEclk v s
  | .divTick => Sys2Proof.Machine.execDivTick s
  | .ptmO1 v => Sys2Proof.Machine.execPtmO1 v s
  | .ptmO2 v => Sys2Proof.Machine.execPtmO2 v s
  | .ptmO3 v => Sys2Proof.Machine.execPtmO3 v s
  | .irqIn0 v => Sys2Proof.Machine.execIrqIn0 v s
  | .irqIn1 v => Sys2Proof.Machine.execIrqIn1 v s
  | .irqIn2 v => Sys2Proof.Machine.execIrqIn2 v s
  | .irqIn3 v => Sys2Proof.Machine.execIrqIn3 v s
  | .irqIn4 v => Sys2Proof.Machine.execIrqIn4 v s
  | .reset => Sys2Proof.Machine.execReset s
  | .sampleTick => Sys2Proof.Machine.execSampleTick s
  | .pullSample => Sys2Proof.Machine.execPullSample s
  | .save => Sys2Proof.Machine.execSave s
  | .restore => Sys2Proof.Machine.execRestore s

end Sys2Proof.Machine
end

