-- ==== Sys2Proof/Machine/Step.lean ====
section
/-! DEFINITION. One step: take the next delivered word, decode it, perform it to completion (R6, R7, R63). -/

namespace Sys2Proof.Machine

/-- One step of the block (R7): the next delivered word is performed as one indivisible step; a word that is not
well formed has no step (R85), and neither has an ended input stream (R187). -/
def step (s : State) : Host.Outcome State Fault Refusal :=
  match s.takeInput with
  | none => .refused .inputEnded
  | some (w, s1) =>
    match decode w with
    | .error why => .refused (.malformed why)
    | .ok i => exec i s1

/-- The outside agents deliver one word ahead of all others, so that the next step performs it. Beside a RESTORE
word travels an image (R84); the one delivered here is the state's own (log 2). -/
def State.withFetchWord (s : State) (_nbits w : Nat) : State :=
  let word : Word := BitVec.ofNat 32 w
  let image : Option Image := if word = encode .restore then some s.toBlock.image else none
  { s with inputs := { word := word, image := image } :: s.inputs }

end Sys2Proof.Machine
end

