-- ==== Sys2Proof/Safety.lean ====
section
/-! DEFINITION. What the claims are stated in: the invariant every step keeps, runs, and the frames of the chains. -/

namespace Sys2Proof.Machine

/-- A block whose stored values are values of their fields: the wave RAM is in its canonical form (R11) and the
pitch and octave fit their OPEN widths (R45). -/
structure Block.WellTyped (b : Block) : Prop where
  /-- The wave RAM keeps its canonical form. -/
  ram : b.ram.wf
  /-- pitch is PITCH_BITS wide. -/
  pitch : fitsWidth b.pins.pitch Config.pitchBits.val = true
  /-- octave is OCTAVE_BITS wide. -/
  octave : fitsWidth b.pins.octave Config.octaveBits.val = true

/-- The invariant of a state between two steps: the block is well typed and quiescent (R51). -/
structure State.Inv (s : State) : Prop where
  wellTyped : s.toBlock.WellTyped
  quiescent : s.toBlock.Quiescent

/-- `t` is reached from `s` by performing delivered words, with more words delivered at any time (R6, R187). -/
inductive Reaches : State → State → Prop where
  /-- No step. -/
  | refl (s : State) : Reaches s s
  /-- The outside agents deliver an input between steps. -/
  | deliver {s t : State} (inputs : List Input) : Reaches s t → Reaches s { t with inputs := inputs }
  /-- One step. -/
  | step {s t u : State} : Reaches s t → step t = .next u → Reaches s u

/-! ### Runs of instructions -/

/-- Perform instructions one after another, stopping at the first that has no step. -/
def execAll : List Instr → State → Host.Outcome State Fault Refusal
  | [], s => .next s
  | i :: is, s =>
    match exec i s with
    | .next t => execAll is t
    | .fault f => .fault f
    | .refused r => .refused r

/-- The instruction advances the wave address in this state: a data port write, a data port read with no pending
new_addr, a sample tick while the timer is armed (R120, R130, R161, R162). -/
def advances (i : Instr) (s : State) : Prop :=
  (∃ d, i = .waveWr d) ∨ (i = .waveRd ∧ s.seq.newAddr = false) ∨ (i = .sampleTick ∧ s.ptm.sampleTimerEnabled = true)

/-- The envelope generator after one effective clock: the value one up or down, its selector and tri recomputed, and
tri propagated to the latch output (R113, R114). -/
def EnvGen.afterClock (e : EnvGen) : EnvGen :=
  let v : Byte := if e.envDir = .up then e.env + 1 else e.env - 1
  { e with env := v, edivRate := edivRateOf e.envDir v, tri := triOf e.envDir v, triOut := triOf e.envDir v }

/-- The events of a strobe in a settled state: the fall of zx when lsb was 64..127, and of the timer line when it was
high (R122, R128, R129, R134). -/
def strobeEvents (s : State) : List OutEvent :=
  if s.lines.zx then .zxOut false :: (if s.lines.ptmC1 then [.ptmC1 false] else []) else []

/-- An output event that is part of the zero-crossing interrupt pulse (R127). -/
def OutEvent.isZcint : OutEvent → Bool
  | .zcint _ => true
  | _ => false

/-- What a receiver that follows the output events knows of the output levels after one more event (R50, R185, R186). -/
def OutputLevels.hear (l : OutputLevels) : OutEvent → OutputLevels
  | .zxOut v => { l with zx := v }
  | .triOut v => { l with triOut := v }
  | .ptmC1 v => { l with ptmC1 := v }
  | .ptmGate .gate1 v => { l with gate1 := v }
  | .ptmGate .gate2 v => { l with gate2 := v }
  | .ptmGate .gate3 v => { l with gate3 := v }
  | .irq v => { l with irqOut := v }
  | _ => l

/-- `s` with the fields no rule reads replaced: the filter latch (R29), not_wpe (R32), ptm_o[2] and ptm_o[3] (R46). -/
def State.withUnread (s : State) (flt : Byte) (notWpe o2 o3 : Bool) : State :=
  { s with
    latches := { s.latches with fltLatch := flt }
    lines := { s.lines with notWpe := notWpe }
    ptm := { s.ptm with o2 := o2, o3 := o3 } }

/-! ### Frames

`t = s.withXOf t` says that `t` differs from `s` at most in the fields `withXOf` takes from `t`. -/

/-- `s` with the envelope generator and the output list of `t`: what an envelope clock can reach (R110 to R117). -/
def State.withEnvelopeOf (s t : State) : State := { s with eg := t.eg, outputs := t.outputs }

/-- `s` with what a zero crossing can reach taken from `t` (R120 to R129, R145 to R147): the wave address, the
direction with the selector and tri, the derived control lines, and the output list. -/
def State.withCrossingOf (s t : State) : State :=
  { s with
    seq := { s.seq with lsb := t.seq.lsb, msb := t.seq.msb }
    eg := { s.eg with envDir := t.eg.envDir, edivRate := t.eg.edivRate, tri := t.eg.tri }
    lines := { s.lines with
      permitEload := t.lines.permitEload, zx := t.lines.zx, zxFfClk := t.lines.zxFfClk, zxFf := t.lines.zxFf,
      gzx := t.lines.gzx, upperLoad := t.lines.upperLoad, msbClk := t.lines.msbClk, ptmC1 := t.lines.ptmC1 }
    outputs := t.outputs }

/-- `s` with what a strobe can reach taken from `t` (R133, R134): what a zero crossing reaches, new_addr, and the
pulser's memory. -/
def State.withStrobeOf (s t : State) : State :=
  let u := s.withCrossingOf t
  { u with
    seq := { u.seq with newAddr := t.seq.newAddr }
    lines := { u.lines with rstbX := t.lines.rstbX } }

end Sys2Proof.Machine
end

