-- ==== Sys2Proof/Certificates/Slice0/Obligations.lean ====
section
/-! DEFINITION. The statements about the model, for the provers. D<n> in a docstring names a decision of
spec/92_eei_decisions.md that the statement rests on, log <n> an entry of notes/assumptions/. -/

open Sys2Proof Sys2Proof.Machine

/-! ### Encoding and decoding -/

/-- Decoding the word of a well-formed instruction gives the instruction back (the formats of R80 to R84; the word
format is the spec's own choice, D2). -/
def Obligations.DecodeOfEncode : Prop :=
  ∀ i : Instr, i.wellFormed = true → decode (encode i) = .ok i

/-- Each accepted word has one meaning: it is the word of the instruction it decodes to (R85; D2, D51). -/
def Obligations.EncodeOfDecode : Prop :=
  ∀ (w : Word) (i : Instr), decode w = .ok i → i.wellFormed = true ∧ encode i = w

/-- A word is accepted exactly when it matches a row of the opcode table and its payload fits the row's OPEN width
(R85; D3, D51). -/
def Obligations.DecoderAcceptsExactlyTheTable : Prop :=
  ∀ w : Word, (∃ i, decode w = .ok i) ↔ ∃ r ∈ opcodeTable, r.admits w = true ∧ r.openWidthOk w = true

/-- No word matches two rows of the opcode table (D51: "Keeps decode unique"). -/
def Obligations.OpcodeRowsAreDisjoint : Prop :=
  opcodeTable.Pairwise fun r q => ∀ w : Word, ¬(r.admits w = true ∧ q.admits w = true)

/-- A bus word is accepted exactly when bit 29 and bits 23:8 are 0, the offset is 0x00..0x17, and a read's data
field is 0 (R81, R85; D3). -/
def Obligations.BusWordsAcceptedExactly : Prop :=
  ∀ w : Word, bits w 31 31 = 0 →
    ((∃ i, decode w = .ok i) ↔
      bits w 29 29 = 0 ∧ bits w 28 24 ≤ 0x17 ∧ bits w 23 8 = 0 ∧ (bits w 30 30 = 1 → bits w 7 0 = 0))

/-- Words written out from the spec's encodings decode to the instructions they stand for (95_test_vectors.md F1). -/
def Obligations.SpecWordsDecode : Prop :=
  decode 0x00000011#32 = .ok (.waveWr 0x11#8) ∧ decode 0x43000000#32 = .ok .envdnRd
    ∧ decode 0x05000080#32 = .ok (.volWr 0x80#8) ∧ decode 0x09000004#32 = .ok (.pia0Wr 1#2 0x04#8)
    ∧ decode 0x4C000000#32 = .ok (.pia1Rd 0#2) ∧ decode 0x54000000#32 = .ok (.ptmRd 4#3)
    ∧ decode 0x07000055#32 = .ok (.unkWr7 0x55#8) ∧ decode 0x80000001#32 = .ok (.pinRun true)
    ∧ decode 0x8400007F#32 = .ok (.pinWs 0x7F#7) ∧ decode 0x88000000#32 = .ok .divTick
    ∧ decode 0x94000001#32 = .ok (.irqIn4 true) ∧ decode 0xC1000000#32 = .ok .sampleTick
    ∧ decode 0x18000000#32 = .error .offsetOutOfRange ∧ decode 0x8C000000#32 = .error .unknownInputEvent

/-! ### The step -/

/-- A step on a delivered word performs the instruction the word decodes to, in the state in which the word has left
the queue, its image is carried beside it, and the step's outputs and result are empty (R7; the queue is the model's
choice, log 1 and log 10). -/
def Obligations.StepPerformsTheDecodedWord : Prop :=
  ∀ (s : State) (inp : Input) (rest : List Input) (i : Instr),
    s.inputs = inp :: rest → decode inp.word = .ok i →
      step s = exec i { s with inputs := rest, carried := inp.image, outputs := [], result := none }

/-- Where there is no step: no word is delivered (R187, log 1), or the next word matches no row of the table (R85;
D3, D51). -/
def Obligations.NoStepWithoutAWellFormedWord : Prop :=
  ∀ s : State,
    (s.inputs = [] → step s = .refused .inputEnded)
      ∧ ∀ (inp : Input) (rest : List Input), s.inputs = inp :: rest →
        ((∃ why, step s = .refused (.malformed why)) ↔
          ∀ r ∈ opcodeTable, ¬(r.admits inp.word = true ∧ r.openWidthOk inp.word = true))

/-- R208: there is one mode; a delivered word is accepted in every state, subject only to R85 (it decodes), R130 (a
sample tick needs the timer enabled) and R184 (a restore needs a restorable image). -/
def Obligations.EveryWordIsAcceptedInEveryState : Prop :=
  ∀ (s : State) (inp : Input) (rest : List Input), s.inputs = inp :: rest →
    ((∃ t, step s = .next t) ↔
      ∃ i, decode inp.word = .ok i ∧ (i = .sampleTick → s.ptm.sampleTimerEnabled = true)
        ∧ (i = .restore → ∃ b, restorable inp.image = some b))

/-! ### The wave RAM and the data port -/

/-- The wave address is `((msb << 7) | lsb) & 0x3FFF`, and every wave RAM access uses it (R14), before any advance the
access makes: the data port's write (R161) and read (R162; the order is D49, log 14), and the sample tick's read
(R130). -/
def Obligations.WaveAccessesUseTheWaveAddress : Prop :=
  ∀ s : State,
    s.addr.toNat = (s.seq.msb.toNat * 2 ^ 7 + s.seq.lsb.toNat) % 2 ^ 14
      ∧ (∀ d, ∃ t, exec (.waveWr d) s = .next t ∧ t.ram.read s.addr = d)
      ∧ (∃ t, exec .waveRd s = .next t ∧ t.result = some (.data (s.ram.read s.addr)))
      ∧ (s.ptm.sampleTimerEnabled = true →
          ∃ t, exec .sampleTick s = .next t ∧ t.seq.waveByte = s.ram.read s.addr)

/-- WAVE_WR (R161; D13, D14, D27): the byte is stored at the wave address, every other byte of the RAM reads as
before, lsb advances by one, and nothing changes but what an advance can reach; in particular new_addr stays. -/
def Obligations.WaveWriteStoresOneByteAndAdvances : Prop :=
  ∀ (s : State) (d : Byte), ∃ t,
    exec (.waveWr d) s = .next t ∧ t.ram.read s.addr = d
      ∧ (∀ a : BitVec 14, a ≠ s.addr → t.ram.read a = s.ram.read a)
      ∧ t.seq.lsb = s.seq.lsb + 1
      ∧ t = { s.withCrossingOf t with ram := t.ram }

/-- WAVE_RD (R162; D49): the byte at the wave address is returned; a pending new_addr is cleared instead of an
advance; otherwise lsb advances by one. The RAM is unchanged. -/
def Obligations.WaveReadReturnsTheByteAndAdvances : Prop :=
  ∀ s : State,
    (s.seq.newAddr = true →
        exec .waveRd s = .next
          { s with seq := { s.seq with newAddr := false }, result := some (.data (s.ram.read s.addr)) })
      ∧ (s.seq.newAddr = false → ∃ t,
        exec .waveRd s = .next t ∧ t.result = some (.data (s.ram.read s.addr))
          ∧ t.seq.lsb = s.seq.lsb + 1
          ∧ t = { s.withCrossingOf t with result := t.result })

/-! ### Zero crossings -/

/-- An advance from 63 to 64 (R122, R123, R125 to R129, R145 to R147; D6 to D10, D12): zx and its clock rise; while
run the flip-flop latches the timer's output 1 and the interrupt line is pulsed; gzx, upper_load and the permission
follow the flip-flop; its rise loads the MSB from ws; a permitted direction is applied. -/
def Obligations.RisingZeroCrossing : Prop :=
  ∀ (s : State) (i : Instr), s.Inv → advances i s → s.seq.lsb = 63#7 → ∃ t,
    exec i s = .next t ∧ t.seq.lsb = 64#7
      ∧ t.lines.zx = true ∧ t.lines.zxFfClk = true
      ∧ t.lines.msbClk = !s.lines.notLoad ∧ t.lines.ptmC1 = !s.lines.notLoad
      ∧ t.lines.zxFf = (if s.lines.run then s.ptm.o1 else s.lines.zxFf)
      ∧ t.lines.gzx = t.lines.zxFf ∧ t.lines.upperLoad = t.lines.zxFf
      ∧ t.lines.permitEload = (t.lines.zxFf && !s.lines.notEload)
      ∧ t.eg.envDir = (if t.lines.permitEload then s.eg.envDirCtrl else s.eg.envDir)
      ∧ t.seq.msb.toNat
          = (if s.lines.run && s.ptm.o1 && !s.lines.zxFf then 0x80 + s.pins.ws.toNat else s.seq.msb.toNat)
      ∧ t.outputs = s.outputs ++ [.zxOut true] ++ (if s.lines.run then [.zcint true, .zcint false] else [])
          ++ (if s.lines.notLoad then [] else [.ptmC1 true])

/-- An advance from 127 to 0 (R122, R123, R128, R129; D9, D10): zx and its clock fall, nothing is latched, and under
load the MSB counts by one modulo 256. -/
def Obligations.FallingZeroCrossing : Prop :=
  ∀ (s : State) (i : Instr), s.Inv → advances i s → s.seq.lsb = 127#7 → ∃ t,
    exec i s = .next t ∧ t.seq.lsb = 0#7
      ∧ t.lines = { s.lines with zx := false, zxFfClk := false, msbClk := false, ptmC1 := false }
      ∧ t.eg = s.eg
      ∧ t.seq.msb = (if s.lines.notLoad then s.seq.msb else s.seq.msb + 1)
      ∧ t.outputs = s.outputs ++ [.zxOut false] ++ (if s.lines.notLoad then [] else [.ptmC1 false])

/-- Any other advance changes no control line, no envelope field and not the MSB, and emits nothing (R121). -/
def Obligations.AdvanceWithoutCrossing : Prop :=
  ∀ (s : State) (i : Instr), s.Inv → advances i s → s.seq.lsb ≠ 63#7 → s.seq.lsb ≠ 127#7 → ∃ t,
    exec i s = .next t ∧ t.seq.lsb = s.seq.lsb + 1 ∧ t.lines = s.lines ∧ t.eg = s.eg
      ∧ t.seq.msb = s.seq.msb ∧ t.outputs = s.outputs

/-- Under load with run low, (msb, lsb) counts every data port write as one number: after any list of writes it has
advanced by the list's length, modulo 2^15 (the MSB is stored as 8 bits, D11; R123, D10). With 128 writes this is
the source's property that LSB returns and MSB advances by exactly 1. -/
def Obligations.DataPortUnderLoadIsOneCounter : Prop :=
  ∀ (ds : List Byte) (s : State), s.Inv → s.lines.notLoad = false → s.lines.run = false → ∃ t,
    execAll (ds.map .waveWr) s = .next t
      ∧ t.seq.msb.toNat * 2 ^ 7 + t.seq.lsb.toNat
        = (s.seq.msb.toNat * 2 ^ 7 + s.seq.lsb.toNat + ds.length) % 2 ^ 15

/-! ### The bus interface -/

/-- Offsets 3 and 4 (R163, R164; D4, D5): a write or a read selects the direction in the control latch; while the
permission is asserted it reaches the envelope at once, with the selector and tri; a read returns 0. -/
def Obligations.DirectionSelect : Prop :=
  ∀ (s : State) (d : Byte), s.Inv →
    let selected (dir : EnvDir) : State :=
      { s with eg :=
          if s.lines.permitEload then
            { s.eg with envDirCtrl := dir, envDir := dir, edivRate := edivRateOf dir s.eg.env,
                        tri := triOf dir s.eg.env }
          else { s.eg with envDirCtrl := dir } }
    exec (.envdnWr d) s = .next (selected .down) ∧ exec (.envupWr d) s = .next (selected .up)
      ∧ exec .envdnRd s = .next { selected .down with result := some (.data 0#8) }
      ∧ exec .envupRd s = .next { selected .up with result := some (.data 0#8) }

/-- R166: a read of offset 5 (word 0x45000000) yields 0xFF in every state, whatever was written, and writes nothing
in the block. -/
def Obligations.VolumeReadIsConstant : Prop :=
  decode 0x45000000#32 = .ok .volRd
    ∧ ∀ s : State, exec .volRd s = .next { s with result := some (.data 0xFF#8) }

/-- VOL_WR and FLT_WR (R165, R167; D21): the latch takes the byte and nothing else changes; in particular the sample
is not recomputed. -/
def Obligations.LatchWritesStoreTheByte : Prop :=
  ∀ (s : State) (d : Byte),
    exec (.volWr d) s = .next { s with latches := { s.latches with volLatch := d } }
      ∧ exec (.fltWr d) s = .next { s with latches := { s.latches with fltLatch := d } }

/-- Accesses no register answers (R168, R175, R176, R201; D38, D50): the block's fields are unchanged, no hardware
signal is emitted, and a read returns 0. Nothing is said of the diagnostic event (R50). -/
def Obligations.UndecodedAccessesChangeNothing : Prop :=
  ∀ (s : State) (i : Instr),
    (∀ d, i = .unkWr1 d ∨ i = .unkWr2 d ∨ i = .unkWr7 d → ∃ t,
        exec i s = .next t ∧ t = { s with outputs := t.outputs } ∧ signals t.outputs = signals s.outputs)
      ∧ (i = .unkRd1 ∨ i = .unkRd2 ∨ i = .unkRd7 ∨ i = .fltRd → ∃ t,
        exec i s = .next t ∧ t = { s with outputs := t.outputs, result := some (.data 0#8) }
          ∧ signals t.outputs = signals s.outputs)

/-- Forwarded writes (R87, R88, R169, R171, R173; D1, D31, D32): the access is announced to its agent with the
remapped register select, and nothing in the block changes. -/
def Obligations.ForwardedWrites : Prop :=
  ∀ (s : State) (o2 : BitVec 2) (o3 : BitVec 3) (d : Byte),
    exec (.pia0Wr o2 d) s = .next { s with outputs := s.outputs ++ [.piaWr .pia0 (Config.piaRs o2) d] }
      ∧ exec (.pia1Wr o2 d) s = .next { s with outputs := s.outputs ++ [.piaWr .pia1 (Config.piaRs o2) d] }
      ∧ ∃ rs, exec (.ptmWr o3 d) s = .next { s with outputs := s.outputs ++ [.ptmWr rs d] }
          ∧ rs.toNat = o3.toNat % 2 + 4 * (o3.toNat / 2 % 2) + 2 * (o3.toNat / 4)

/-- Forwarded reads (R87, R88, R170, R172, R174; D1, D31, D32, D39): the access is announced with the remapped
register select, some byte is returned, and no field of the block changes (the draw counter is the model's, log 5). -/
def Obligations.ForwardedReads : Prop :=
  ∀ (s : State) (o2 : BitVec 2) (o3 : BitVec 3),
    (∃ d, exec (.pia0Rd o2) s = .next
        { s with outputs := s.outputs ++ [.piaRd .pia0 (Config.piaRs o2)], result := some (.data d),
                 draws := s.draws + 1 })
      ∧ (∃ d, exec (.pia1Rd o2) s = .next
        { s with outputs := s.outputs ++ [.piaRd .pia1 (Config.piaRs o2)], result := some (.data d),
                 draws := s.draws + 1 })
      ∧ ∃ d rs, exec (.ptmRd o3) s = .next
          { s with outputs := s.outputs ++ [.ptmRd rs], result := some (.data d), draws := s.draws + 1 }
          ∧ rs.toNat = o3.toNat % 2 + 4 * (o3.toNat / 2 % 2) + 2 * (o3.toNat / 4)

/-- The PIA register-select remap loses no register: it is a bijection on 0..3 (R87; D31). -/
def Obligations.PiaSelectIsABijection : Prop :=
  ∀ rs : BitVec 2, ∃ off : BitVec 2, piaSelect off = rs ∧ ∀ off', piaSelect off' = rs → off' = off

/-! ### Pins -/

/-- PIN_RUN 1 while run is low (R143, R133, R134; D5 to D8, D15): the sample timer is armed and the gates released,
the strobe resets the wave address to (0, 0x80 | ws), sets new_addr and, with not_eload low, applies the direction;
the sample path, the latches and the envelope value are unchanged. -/
def Obligations.RunRises : Prop :=
  ∀ s : State, s.Inv → s.lines.run = false → ∃ t,
    exec (.pinRun true) s = .next t
      ∧ t.ptm = { s.ptm with sampleTimerEnabled := true, gate1 := false, gate2 := false, gate3 := false }
      ∧ t.lines = { s.lines with run := true, rstbX := !s.lines.rstbX, zx := false, zxFfClk := false,
                                 msbClk := false, ptmC1 := false }
      ∧ t.seq.lsb = 0#7 ∧ t.seq.msb.toNat = 0x80 + s.pins.ws.toNat ∧ t.seq.newAddr = true
      ∧ t.eg.envDir = (if s.lines.notEload then s.eg.envDir else s.eg.envDirCtrl)
      ∧ t.outputs = s.outputs ++ [.timerStart s.pins.pitch s.pins.octave, .ptmGate .gate1 false,
          .ptmGate .gate2 false, .ptmGate .gate3 false] ++ strobeEvents s
      ∧ t = { s.withStrobeOf t with
              lines := { (s.withStrobeOf t).lines with run := true }
              ptm := t.ptm }

/-- PIN_RUN 0 while run is high (R143, R131, R133, R134; D5 to D8, D15): the sample timer is disarmed, the byte is
neutral and the sample 0, the gates are asserted, the flip-flop is cleared and with it gzx, upper_load and the
permission; the strobe resets the wave address and, with not_eload low, leaves the direction applied. -/
def Obligations.RunFalls : Prop :=
  ∀ s : State, s.Inv → s.lines.run = true → ∃ t,
    exec (.pinRun false) s = .next t
      ∧ t.ptm = { s.ptm with sampleTimerEnabled := false, gate1 := true, gate2 := true, gate3 := true }
      ∧ t.lines = { s.lines with run := false, rstbX := !s.lines.rstbX, zx := false, zxFfClk := false,
                                 msbClk := false, ptmC1 := false, zxFf := false, gzx := false,
                                 upperLoad := false, permitEload := false }
      ∧ t.seq.lsb = 0#7 ∧ t.seq.msb.toNat = 0x80 + s.pins.ws.toNat ∧ t.seq.newAddr = true
      ∧ t.seq.waveByte = 0x80#8 ∧ t.seq.currentSample = 0#16
      ∧ t.eg.envDir = (if s.lines.notEload then s.eg.envDir else s.eg.envDirCtrl)
      ∧ t.outputs = s.outputs ++ [.timerStop, .ptmGate .gate1 true, .ptmGate .gate2 true,
          .ptmGate .gate3 true] ++ strobeEvents s
      ∧ t = { s.withStrobeOf t with
              seq := t.seq
              lines := { (s.withStrobeOf t).lines with run := false }
              ptm := t.ptm }

/-- A change of the load pin (R142, R133, R134; D5 to D8, D16): it strobes, the timer line is low afterwards, and the
composite envelope clock takes the value of its formula; a rise of it clocks the envelope once unless tri is
asserted for the direction then in force. -/
def Obligations.LoadPinChangeStrobes : Prop :=
  ∀ (s : State) (v : Bool), s.Inv → v ≠ s.lines.notLoad → ∃ t,
    exec (.pinNotLoad v) s = .next t
      ∧ t.lines = { s.lines with notLoad := v, rstbX := !s.lines.rstbX, zx := false, zxFfClk := false,
                                 msbClk := false, ptmC1 := false }
      ∧ t.seq = { s.seq with lsb := 0#7, msb := 0x80#8 ||| s.pins.ws.setWidth 8, newAddr := true }
      ∧ (let dir := if s.lines.notEload then s.eg.envDir else s.eg.envDirCtrl
         let clk := if v then s.eg.eclk else s.eg.edivOut
         let e : EnvGen := { s.eg with envDir := dir, edivRate := edivRateOf dir s.eg.env,
                                       tri := triOf dir s.eg.env, envClk := clk }
         let clocked := clk && !s.eg.envClk && !e.tri
         t.eg = (if clocked then e.afterClock else e)
           ∧ t.outputs = s.outputs ++ strobeEvents s
               ++ (if clocked && e.afterClock.tri != s.eg.triOut then [.triOut e.afterClock.tri] else []))
      ∧ t = { s with seq := t.seq, eg := t.eg, lines := t.lines, outputs := t.outputs }

/-- A pin or clock event that repeats the current level, or a register event that repeats the current value, does
nothing (the short-circuit of the setters, R140; R117, R142, R143, R148, R149, R151). -/
def Obligations.RepeatedLevelsDoNothing : Prop :=
  ∀ s : State,
    exec (.pinRun s.lines.run) s = .next s ∧ exec (.pinNotLoad s.lines.notLoad) s = .next s
      ∧ exec (.pinNotWpe s.lines.notWpe) s = .next s ∧ exec (.pinNotEload s.lines.notEload) s = .next s
      ∧ exec (.pinPitch s.pins.pitch) s = .next s ∧ exec (.pinOctave s.pins.octave) s = .next s
      ∧ exec (.eclk s.eg.eclk) s = .next s

/-- The envelope-load pin (R147, R148; D6, D46): the permission becomes `gzx AND NOT not_eload`; when it is then
asserted the control latch reaches the direction, with the selector and tri; nothing else changes. -/
def Obligations.EnvelopeLoadPin : Prop :=
  ∀ (s : State) (v : Bool), s.Inv →
    exec (.pinNotEload v) s = .next
      { s with
        lines := { s.lines with notEload := v, permitEload := s.lines.gzx && !v }
        eg :=
          if s.lines.gzx && !v then
            { s.eg with envDir := s.eg.envDirCtrl, edivRate := edivRateOf s.eg.envDirCtrl s.eg.env,
                        tri := triOf s.eg.envDirCtrl s.eg.env }
          else s.eg }

/-- Levels and registers that are only stored (R149, R150, R180; D25 to D27): not_wpe, ws and the timer's output
lines; nothing else changes. In particular a ws change does not move the MSB. -/
def Obligations.StoredLevelsAndRegisters : Prop :=
  ∀ (s : State) (v : Bool) (w : BitVec 7),
    exec (.pinNotWpe v) s = .next { s with lines := { s.lines with notWpe := v } }
      ∧ exec (.pinWs w) s = .next { s with pins := { s.pins with ws := w } }
      ∧ exec (.ptmO1 v) s = .next { s with ptm := { s.ptm with o1 := v } }
      ∧ exec (.ptmO2 v) s = .next { s with ptm := { s.ptm with o2 := v } }
      ∧ exec (.ptmO3 v) s = .next { s with ptm := { s.ptm with o3 := v } }

/-- PIN_PITCH and PIN_OCTAVE (R151; D28, D47): the register takes the value; a change while run is high reprograms
the sample timer with the new pair, and is otherwise silent. -/
def Obligations.PitchAndOctaveReprogramTheTimer : Prop :=
  ∀ (s : State) (v : Nat),
    exec (.pinPitch v) s = .next
        { s with
          pins := { s.pins with pitch := v }
          outputs := s.outputs ++
            (if v ≠ s.pins.pitch ∧ s.lines.run = true then [.timerReprogram v s.pins.octave] else []) }
      ∧ exec (.pinOctave v) s = .next
        { s with
          pins := { s.pins with octave := v }
          outputs := s.outputs ++
            (if v ≠ s.pins.octave ∧ s.lines.run = true then [.timerReprogram s.pins.pitch v] else []) }

/-! ### The envelope -/

/-- ECLK (R113 to R117; D17, D24): the input takes the level and the composite clock its formula; a rise of the
composite clock with tri clear moves the envelope by one, and TRI_OUT is emitted exactly when the latch output
changes; nothing else changes. -/
def Obligations.EnvelopeClockInput : Prop :=
  ∀ (s : State) (v : Bool), s.Inv →
    let clk := if s.lines.notLoad then v else s.eg.edivOut
    let e : EnvGen := { s.eg with eclk := v, envClk := clk }
    let clocked := clk && !s.eg.envClk && !s.eg.tri
    exec (.eclk v) s = .next
      { s with
        eg := if clocked then e.afterClock else e
        outputs := s.outputs ++
          (if clocked && e.afterClock.tri != s.eg.triOut then [.triOut e.afterClock.tri] else []) }

/-- DIV_TICK (R102, R103, R113 to R116; D17, D23): the counter advances modulo 64, the fire output is the table's bit
at the selector and the new counter, for every table; under load a rise of it with tri clear moves the envelope by
one; nothing else changes. -/
def Obligations.DividerTick : Prop :=
  ∀ s : State, s.Inv →
    let count := s.eg.edivCount + 1
    let fire := Config.rateTable s.eg.edivRate count
    let clk := if s.lines.notLoad then s.eg.eclk else fire
    let e : EnvGen := { s.eg with edivCount := count, edivOut := fire, envClk := clk }
    let clocked := clk && !s.eg.envClk && !s.eg.tri
    exec .divTick s = .next
      { s with
        eg := if clocked then e.afterClock else e
        outputs := s.outputs ++
          (if clocked && e.afterClock.tri != s.eg.triOut then [.triOut e.afterClock.tri] else []) }

/-- The envelope never wraps (R114, C2): an instruction other than RESET and RESTORE leaves the value, or moves it by
one in the direction in force afterwards, as a number from 0 to 255. -/
def Obligations.EnvelopeNeverWraps : Prop :=
  ∀ (s t : State) (i : Instr), s.Inv → exec i s = .next t → i ≠ .reset → i ≠ .restore →
    t.eg.env = s.eg.env
      ∨ (t.eg.envDir = .up ∧ t.eg.env.toNat = s.eg.env.toNat + 1)
      ∨ (t.eg.envDir = .down ∧ t.eg.env.toNat + 1 = s.eg.env.toNat)

/-- R110 and R111: the selector is bits 7:4 of the value (of its complement going UP) in bits 5:2 with bits 1:0 set;
the terminal flag is asserted only at 0x00 going DOWN and at 0xFF going UP; each procedure writes its own field and
nothing else, so tri_out is not written. -/
def Obligations.SelectorAndTerminalFlag : Prop :=
  ∀ s : State,
    (∃ r, updateDivider s = { s with eg := { s.eg with edivRate := r } }
        ∧ r.toNat = 4 * ((if s.eg.envDir = .up then 255 - s.eg.env.toNat else s.eg.env.toNat) / 16) + 3)
      ∧ ∃ f, updateTri s = { s with eg := { s.eg with tri := f } }
        ∧ (f = true ↔ s.eg.envDir = .down ∧ s.eg.env.toNat = 0x00 ∨ s.eg.envDir = .up ∧ s.eg.env.toNat = 0xFF)

/-! ### The sample path -/

/-- SAMPLE_TICK (R130, R131; D13, D20, D44): while the timer is enabled the byte is the one at the wave address, lsb
advances by one, and the sample is the product of the signed byte, the envelope and the volume, divided by 256
rounding toward minus infinity; while it is disabled there is no step. -/
def Obligations.SampleTickComputesTheSample : Prop :=
  ∀ s : State,
    (s.ptm.sampleTimerEnabled = true → ∃ t,
        exec .sampleTick s = .next t ∧ t.seq.waveByte = s.ram.read s.addr ∧ t.seq.lsb = s.seq.lsb + 1
          ∧ t.seq.currentSample.toInt
            = ((s.ram.read s.addr ^^^ 0x80#8).toInt * s.eg.env.toNat * s.latches.volLatch.toNat).fdiv 256
          ∧ t = { s.withCrossingOf t with
                  seq := { (s.withCrossingOf t).seq with
                    waveByte := t.seq.waveByte, currentSample := t.seq.currentSample } })
      ∧ (s.ptm.sampleTimerEnabled = false → exec .sampleTick s = .refused .timerDisabled)

/-- The sample formula never truncates (R131, R202; D20): every sample lies in -32513..32258, and the neutral byte
0x80 gives 0. -/
def Obligations.SampleNeverTruncates : Prop :=
  ∀ wave env vol : Byte,
    (sampleOf wave env vol).toInt = ((wave ^^^ 0x80#8).toInt * env.toNat * vol.toNat).fdiv 256
      ∧ -32513 ≤ (sampleOf wave env vol).toInt ∧ (sampleOf wave env vol).toInt ≤ 32258
      ∧ sampleOf 0x80#8 env vol = 0#16

/-- PULL_SAMPLE (R132; D48): the sample while run is high, silence while it is low; no field changes. -/
def Obligations.PullReturnsTheSampleOrSilence : Prop :=
  ∀ s : State, exec .pullSample s = .next
    { s with result := some (.sample (if s.lines.run then s.seq.currentSample else 0#16)) }

/-! ### Interrupts -/

/-- IRQ_IN0 to IRQ_IN4 (R181; D34): the source takes its level, irq_out is the OR of the five, and IRQ is emitted
exactly when it changes. -/
def Obligations.InterruptMerge : Prop :=
  ∀ (s : State) (v : Bool),
    let merged (q : IrqLines) : State :=
      { s with
        irq := { q with out := q.in0 || q.in1 || q.in2 || q.in3 || q.in4 }
        outputs := s.outputs ++
          (if (q.in0 || q.in1 || q.in2 || q.in3 || q.in4) = s.irq.out then []
           else [.irq (q.in0 || q.in1 || q.in2 || q.in3 || q.in4)]) }
    exec (.irqIn0 v) s = .next (merged { s.irq with in0 := v })
      ∧ exec (.irqIn1 v) s = .next (merged { s.irq with in1 := v })
      ∧ exec (.irqIn2 v) s = .next (merged { s.irq with in2 := v })
      ∧ exec (.irqIn3 v) s = .next (merged { s.irq with in3 := v })
      ∧ exec (.irqIn4 v) s = .next (merged { s.irq with in4 := v })

/-- R204, R127: the zero-crossing interrupt is a zero-width pulse: in whatever an instruction emits, its assert and
its deassert stand side by side, at most once, and no field records it. -/
def Obligations.ZeroCrossingInterruptIsAPulse : Prop :=
  (∀ s : State, pulseZcint s = { s with outputs := s.outputs ++ [.zcint true, .zcint false] })
    ∧ ∀ (s t : State) (i : Instr), exec i s = .next t → ∃ es, t.outputs = s.outputs ++ es
      ∧ (es.filter OutEvent.isZcint = []
        ∨ ∃ pre post, es = pre ++ [.zcint true, .zcint false] ++ post
          ∧ pre.filter OutEvent.isZcint = [] ∧ post.filter OutEvent.isZcint = [])

/-! ### Save, restore, reset -/

/-- SAVE (R52, R183; D42): the result is the image, every field of R11 to R49 in rule order: the 16384 bytes of the
wave RAM in address order, then one number per field (a 1-bit field as 0 or 1, DOWN as 0 and UP as 1, the sample as
its 16-bit pattern). No field changes. The form of the image, a list of 48 values, is the model's (log 3). -/
def Obligations.SaveReturnsTheImage : Prop :=
  ∀ s : State, ∃ bytes : List Byte,
    bytes.length = 16384 ∧ (∀ a : BitVec 14, bytes[a.toNat]? = some (s.ram.read a))
      ∧ exec .save s = .next { s with result := some (.image
          [.ram bytes,
           .num s.seq.lsb.toNat, .num s.seq.msb.toNat, .num s.seq.newAddr.toNat, .num s.seq.waveByte.toNat,
           .num s.seq.currentSample.toNat,
           .num s.eg.env.toNat, .num (if s.eg.envDir = .up then 1 else 0),
           .num (if s.eg.envDirCtrl = .up then 1 else 0), .num s.eg.edivRate.toNat, .num s.eg.tri.toNat,
           .num s.eg.triOut.toNat, .num s.eg.edivCount.toNat, .num s.eg.edivOut.toNat, .num s.eg.eclk.toNat,
           .num s.eg.envClk.toNat,
           .num s.latches.volLatch.toNat, .num s.latches.fltLatch.toNat,
           .num s.lines.run.toNat, .num s.lines.notLoad.toNat, .num s.lines.notWpe.toNat,
           .num s.lines.notEload.toNat, .num s.lines.permitEload.toNat, .num s.lines.zx.toNat,
           .num s.lines.zxFfClk.toNat, .num s.lines.zxFf.toNat, .num s.lines.gzx.toNat,
           .num s.lines.notRstb.toNat, .num s.lines.upperLoad.toNat, .num s.lines.msbClk.toNat,
           .num s.lines.ptmC1.toNat, .num s.lines.rstbX.toNat,
           .num s.pins.ws.toNat, .num s.pins.pitch, .num s.pins.octave,
           .num s.ptm.o1.toNat, .num s.ptm.o2.toNat, .num s.ptm.o3.toNat,
           .num s.ptm.gate1.toNat, .num s.ptm.gate2.toNat, .num s.ptm.gate3.toNat,
           .num s.ptm.sampleTimerEnabled.toNat,
           .num s.irq.in0.toNat, .num s.irq.in1.toNat, .num s.irq.in2.toNat, .num s.irq.in3.toNat,
           .num s.irq.in4.toNat, .num s.irq.out.toNat]) }

/-- Restoring a saved image gives back every field the save saw, and every wave RAM byte, whatever happened in between
and whatever the card's bytes were at power-on (R52, R184; D42). How the wave RAM is listed afterwards, every byte
written, is the model's (log 3). -/
def Obligations.RestoreOfSaveIsIdentity : Prop :=
  ∀ s u : State, s.Inv → u.carried = some s.toBlock.image → ∃ t,
    exec .restore u = .next t ∧ (∀ a : BitVec 14, t.ram.read a = s.ram.read a)
      ∧ t = { u with toBlock := { s.toBlock with ram := t.ram } }

/-- RESTORE accepts exactly the complete, well-typed and consistent images (R184, R51; D42): the image of every state
that meets the invariant is accepted; what is loaded meets the invariant and has the image that was carried, with no
event emitted; any other image has no step. -/
def Obligations.RestoreLoadsOnlyConsistentImages : Prop :=
  ∀ u : State,
    (∀ s : State, s.Inv → u.carried = some s.toBlock.image → ∃ t, exec .restore u = .next t)
      ∧ (∀ t, exec .restore u = .next t →
        t.Inv ∧ u.carried = some t.toBlock.image ∧ t = { u with toBlock := t.toBlock })
      ∧ ((∀ s : State, s.Inv → u.carried ≠ some s.toBlock.image) → exec .restore u = .refused .badImage)

/-- An image without a byte for every wave RAM address, or with more, is not complete, and has no step (R184, R11;
D42, log 3). -/
def Obligations.IncompleteWaveRamIsRefused : Prop :=
  ∀ (u : State) (bytes : List Byte) (rest : Image), u.carried = some (.ram bytes :: rest) →
    bytes.length ≠ 16384 → exec .restore u = .refused .badImage

/-- RESET (R220, R223; D34 to D36): every field takes its reset value in any state, the wave RAM stays, and no event
is emitted. -/
def Obligations.ResetWritesEveryField : Prop :=
  ∀ s : State, exec .reset s = .next
    { s with
      seq := { lsb := 0#7, msb := 0x80#8, newAddr := false, waveByte := 0x80#8, currentSample := 0#16 }
      eg := { env := 0#8, envDir := .down, envDirCtrl := .down, edivRate := 0x03#6, tri := true, triOut := true,
              edivCount := 0#6, edivOut := false, eclk := false, envClk := false }
      latches := { volLatch := 0#8, fltLatch := 0#8 }
      lines := { run := false, notLoad := true, notWpe := true, notEload := true, permitEload := false,
                 zx := false, zxFfClk := false, zxFf := false, gzx := false, notRstb := true,
                 upperLoad := false, msbClk := false, ptmC1 := false, rstbX := false }
      pins := { ws := 0#7, pitch := 0, octave := 0 }
      ptm := { o1 := false, o2 := false, o3 := false, gate1 := true, gate2 := true, gate3 := true,
               sampleTimerEnabled := false }
      irq := { in0 := false, in1 := false, in2 := false, in3 := false, in4 := false, out := false } }

/-- R221: the wave RAM's content after RESET is its content before, byte for byte. -/
def Obligations.ResetLeavesTheWaveRam : Prop :=
  ∀ s : State, ∃ t, exec .reset s = .next t ∧ ∀ a : BitVec 14, t.ram.read a = s.ram.read a

/-! ### Invariants and whole-machine rules -/

/-- The reset state meets the invariant (R220, R51). -/
def Obligations.ResetStateMeetsTheInvariant : Prop := State.reset.Inv

/-- Every step keeps the invariant: the quiescent relations of R51 between the block's lines, the wave RAM's
canonical form, and the widths of pitch and octave. -/
def Obligations.StepKeepsTheInvariant : Prop :=
  ∀ s t : State, s.Inv → step s = .next t → t.Inv

/-- Every state reached from reset, whatever words the outside agents deliver and whenever, meets the invariant
(R51, R6). -/
def Obligations.ReachableStatesMeetTheInvariant : Prop :=
  ∀ s : State, Reaches State.reset s → s.Inv

/-- "Written only by" (R11 to R13, R15 to R49, with the rules they name): apart from RESET and RESTORE, which write
every field, each field changes only under the instructions named beside it, and ediv_rate and tri only with the
envelope value or direction they are computed from. -/
def Obligations.EachFieldHasItsWriters : Prop :=
  ∀ (s t : State) (i : Instr), exec i s = .next t → i ≠ .reset → i ≠ .restore →
    (t.ram = s.ram ∨ ∃ d, i = .waveWr d)
      ∧ (t.seq.lsb = s.seq.lsb ∧ t.seq.msb = s.seq.msb ∨ advances i s ∨ ∃ v, i = .pinRun v ∨ i = .pinNotLoad v)
      ∧ (t.seq.newAddr = s.seq.newAddr ∨ i = .waveRd ∨ ∃ v, i = .pinRun v ∨ i = .pinNotLoad v)
      ∧ (t.seq.waveByte = s.seq.waveByte ∧ t.seq.currentSample = s.seq.currentSample
          ∨ i = .sampleTick ∨ i = .pinRun false)
      ∧ (t.eg.env = s.eg.env ∧ t.eg.envClk = s.eg.envClk ∧ t.eg.triOut = s.eg.triOut
          ∨ i = .divTick ∨ (∃ v, i = .eclk v) ∨ ∃ v, i = .pinNotLoad v)
      ∧ (t.eg.envDirCtrl = s.eg.envDirCtrl ∨ i = .envdnRd ∨ i = .envupRd
          ∨ ∃ d, i = .envdnWr d ∨ i = .envupWr d)
      ∧ (t.eg.edivCount = s.eg.edivCount ∧ t.eg.edivOut = s.eg.edivOut ∨ i = .divTick)
      ∧ (t.eg.eclk = s.eg.eclk ∨ ∃ v, i = .eclk v)
      ∧ (t.eg.envDir = s.eg.envDir ∨ advances i s ∨ (∃ v, i = .pinRun v ∨ i = .pinNotLoad v ∨ i = .pinNotEload v)
          ∨ i = .envdnRd ∨ i = .envupRd ∨ ∃ d, i = .envdnWr d ∨ i = .envupWr d)
      ∧ (t.eg.edivRate = s.eg.edivRate ∧ t.eg.tri = s.eg.tri ∨ t.eg.env ≠ s.eg.env ∨ t.eg.envDir ≠ s.eg.envDir)
      ∧ (t.latches.volLatch = s.latches.volLatch ∨ ∃ d, i = .volWr d)
      ∧ (t.latches.fltLatch = s.latches.fltLatch ∨ ∃ d, i = .fltWr d)
      ∧ (t.lines.run = s.lines.run ∧ t.ptm.sampleTimerEnabled = s.ptm.sampleTimerEnabled
          ∧ t.ptm.gate1 = s.ptm.gate1 ∧ t.ptm.gate2 = s.ptm.gate2 ∧ t.ptm.gate3 = s.ptm.gate3
          ∨ ∃ v, i = .pinRun v)
      ∧ (t.lines.notLoad = s.lines.notLoad ∨ ∃ v, i = .pinNotLoad v)
      ∧ (t.lines.notWpe = s.lines.notWpe ∨ ∃ v, i = .pinNotWpe v)
      ∧ (t.lines.notEload = s.lines.notEload ∨ ∃ v, i = .pinNotEload v)
      ∧ (t.lines.permitEload = s.lines.permitEload ∨ advances i s
          ∨ ∃ v, i = .pinRun v ∨ i = .pinNotLoad v ∨ i = .pinNotEload v)
      ∧ (t.lines.zx = s.lines.zx ∧ t.lines.zxFfClk = s.lines.zxFfClk ∧ t.lines.msbClk = s.lines.msbClk
            ∧ t.lines.ptmC1 = s.lines.ptmC1 ∧ t.lines.gzx = s.lines.gzx ∧ t.lines.upperLoad = s.lines.upperLoad
          ∨ advances i s ∨ ∃ v, i = .pinRun v ∨ i = .pinNotLoad v)
      ∧ (t.lines.zxFf = s.lines.zxFf ∨ advances i s ∨ ∃ v, i = .pinRun v)
      ∧ (t.lines.rstbX = s.lines.rstbX ∧ t.lines.notRstb = s.lines.notRstb ∨ ∃ v, i = .pinRun v ∨ i = .pinNotLoad v)
      ∧ (t.pins.ws = s.pins.ws ∨ ∃ v, i = .pinWs v)
      ∧ (t.pins.pitch = s.pins.pitch ∨ ∃ v, i = .pinPitch v)
      ∧ (t.pins.octave = s.pins.octave ∨ ∃ v, i = .pinOctave v)
      ∧ (t.ptm.o1 = s.ptm.o1 ∨ ∃ v, i = .ptmO1 v) ∧ (t.ptm.o2 = s.ptm.o2 ∨ ∃ v, i = .ptmO2 v)
      ∧ (t.ptm.o3 = s.ptm.o3 ∨ ∃ v, i = .ptmO3 v)
      ∧ (t.irq = s.irq
          ∨ ∃ v, i = .irqIn0 v ∨ i = .irqIn1 v ∨ i = .irqIn2 v ∨ i = .irqIn3 v ∨ i = .irqIn4 v)

/-- Output events carry every level change (R50, R185, R186, R223; D36): a receiver that knows the block's output
levels and follows the events of a step other than RESET and RESTORE knows the levels after it. -/
def Obligations.EventsAnnounceEveryOutputLevel : Prop :=
  ∀ (s t : State) (i : Instr), exec i s = .next t → i ≠ .reset → i ≠ .restore →
    ∃ es, t.outputs = s.outputs ++ es ∧ es.foldl OutputLevels.hear s.outputLevels = t.outputLevels

/-- The fields no rule reads reach nothing (R29, R32, R46; D25, D27, U11, U12): with any values in the filter latch,
not_wpe, ptm_o[2] and ptm_o[3], an instruction other than SAVE gives the same next state up to those four fields,
with the same outputs and result. -/
def Obligations.UnreadFieldsReachNothing : Prop :=
  ∀ (s t : State) (i : Instr) (flt : Byte) (w a b : Bool), exec i s = .next t → i ≠ .save →
    ∃ flt' w' a' b', exec i (s.withUnread flt w a b) = .next (t.withUnread flt' w' a' b')

/-- After every change of run or of the load pin, the first data port read returns the byte at (0x80 | ws, 0) without
advancing, and the second returns the same byte again (R226, R227). -/
def Obligations.ReadAfterStrobeDuplicates : Prop :=
  ∀ (s t : State) (i : Instr) (v : Bool), s.Inv →
    (i = .pinRun v ∧ v ≠ s.lines.run ∨ i = .pinNotLoad v ∧ v ≠ s.lines.notLoad) → exec i s = .next t →
      t.addr.toNat = s.pins.ws.toNat * 2 ^ 7
        ∧ ∃ u w, exec .waveRd t = .next u ∧ u.result = some (.data (s.ram.read t.addr)) ∧ u.addr = t.addr
          ∧ exec .waveRd u = .next w ∧ w.result = some (.data (s.ram.read t.addr))

/-- The stopped block (R213, R182; D44): while run is low no sample tick has a step and the mixer receives silence,
every input other than a sample tick and a restore still has a next state, and PIN_RUN 1 raises run and arms the
sample timer again. -/
def Obligations.StoppedBlockIsSilentAndWakes : Prop :=
  ∀ s : State, s.Inv → s.lines.run = false →
    exec .sampleTick s = .refused .timerDisabled
      ∧ exec .pullSample s = .next { s with result := some (.sample 0#16) }
      ∧ (∀ i : Instr, i ≠ .sampleTick → i ≠ .restore → ∃ t, exec i s = .next t)
      ∧ ∃ t, exec (.pinRun true) s = .next t ∧ t.lines.run = true ∧ t.ptm.sampleTimerEnabled = true
end

