-- ==== Sys2Proof/Laws/State.lean ====
section
/-! SUPPORT. One lemma per field per update, true by rfl, so that no later proof unfolds a record update. -/

namespace Sys2Proof.Machine

variable (s : State)

/-! ### onSeq -/

@[simp] theorem State.onSeq_ram (f : Sequencer → Sequencer) : (s.onSeq f).ram = s.ram := rfl
@[simp] theorem State.onSeq_seq (f : Sequencer → Sequencer) : (s.onSeq f).seq = f s.seq := rfl
@[simp] theorem State.onSeq_eg (f : Sequencer → Sequencer) : (s.onSeq f).eg = s.eg := rfl
@[simp] theorem State.onSeq_latches (f : Sequencer → Sequencer) : (s.onSeq f).latches = s.latches := rfl
@[simp] theorem State.onSeq_lines (f : Sequencer → Sequencer) : (s.onSeq f).lines = s.lines := rfl
@[simp] theorem State.onSeq_pins (f : Sequencer → Sequencer) : (s.onSeq f).pins = s.pins := rfl
@[simp] theorem State.onSeq_ptm (f : Sequencer → Sequencer) : (s.onSeq f).ptm = s.ptm := rfl
@[simp] theorem State.onSeq_irq (f : Sequencer → Sequencer) : (s.onSeq f).irq = s.irq := rfl
@[simp] theorem State.onSeq_inputs (f : Sequencer → Sequencer) : (s.onSeq f).inputs = s.inputs := rfl
@[simp] theorem State.onSeq_carried (f : Sequencer → Sequencer) : (s.onSeq f).carried = s.carried := rfl
@[simp] theorem State.onSeq_outputs (f : Sequencer → Sequencer) : (s.onSeq f).outputs = s.outputs := rfl
@[simp] theorem State.onSeq_result (f : Sequencer → Sequencer) : (s.onSeq f).result = s.result := rfl
@[simp] theorem State.onSeq_draws (f : Sequencer → Sequencer) : (s.onSeq f).draws = s.draws := rfl

/-! ### onEg -/

@[simp] theorem State.onEg_ram (f : EnvGen → EnvGen) : (s.onEg f).ram = s.ram := rfl
@[simp] theorem State.onEg_seq (f : EnvGen → EnvGen) : (s.onEg f).seq = s.seq := rfl
@[simp] theorem State.onEg_eg (f : EnvGen → EnvGen) : (s.onEg f).eg = f s.eg := rfl
@[simp] theorem State.onEg_latches (f : EnvGen → EnvGen) : (s.onEg f).latches = s.latches := rfl
@[simp] theorem State.onEg_lines (f : EnvGen → EnvGen) : (s.onEg f).lines = s.lines := rfl
@[simp] theorem State.onEg_pins (f : EnvGen → EnvGen) : (s.onEg f).pins = s.pins := rfl
@[simp] theorem State.onEg_ptm (f : EnvGen → EnvGen) : (s.onEg f).ptm = s.ptm := rfl
@[simp] theorem State.onEg_irq (f : EnvGen → EnvGen) : (s.onEg f).irq = s.irq := rfl
@[simp] theorem State.onEg_inputs (f : EnvGen → EnvGen) : (s.onEg f).inputs = s.inputs := rfl
@[simp] theorem State.onEg_carried (f : EnvGen → EnvGen) : (s.onEg f).carried = s.carried := rfl
@[simp] theorem State.onEg_outputs (f : EnvGen → EnvGen) : (s.onEg f).outputs = s.outputs := rfl
@[simp] theorem State.onEg_result (f : EnvGen → EnvGen) : (s.onEg f).result = s.result := rfl
@[simp] theorem State.onEg_draws (f : EnvGen → EnvGen) : (s.onEg f).draws = s.draws := rfl

/-! ### onLatches -/

@[simp] theorem State.onLatches_ram (f : Latches → Latches) : (s.onLatches f).ram = s.ram := rfl
@[simp] theorem State.onLatches_seq (f : Latches → Latches) : (s.onLatches f).seq = s.seq := rfl
@[simp] theorem State.onLatches_eg (f : Latches → Latches) : (s.onLatches f).eg = s.eg := rfl
@[simp] theorem State.onLatches_latches (f : Latches → Latches) : (s.onLatches f).latches = f s.latches := rfl
@[simp] theorem State.onLatches_lines (f : Latches → Latches) : (s.onLatches f).lines = s.lines := rfl
@[simp] theorem State.onLatches_pins (f : Latches → Latches) : (s.onLatches f).pins = s.pins := rfl
@[simp] theorem State.onLatches_ptm (f : Latches → Latches) : (s.onLatches f).ptm = s.ptm := rfl
@[simp] theorem State.onLatches_irq (f : Latches → Latches) : (s.onLatches f).irq = s.irq := rfl
@[simp] theorem State.onLatches_inputs (f : Latches → Latches) : (s.onLatches f).inputs = s.inputs := rfl
@[simp] theorem State.onLatches_carried (f : Latches → Latches) : (s.onLatches f).carried = s.carried := rfl
@[simp] theorem State.onLatches_outputs (f : Latches → Latches) : (s.onLatches f).outputs = s.outputs := rfl
@[simp] theorem State.onLatches_result (f : Latches → Latches) : (s.onLatches f).result = s.result := rfl
@[simp] theorem State.onLatches_draws (f : Latches → Latches) : (s.onLatches f).draws = s.draws := rfl

/-! ### onLines -/

@[simp] theorem State.onLines_ram (f : Lines → Lines) : (s.onLines f).ram = s.ram := rfl
@[simp] theorem State.onLines_seq (f : Lines → Lines) : (s.onLines f).seq = s.seq := rfl
@[simp] theorem State.onLines_eg (f : Lines → Lines) : (s.onLines f).eg = s.eg := rfl
@[simp] theorem State.onLines_latches (f : Lines → Lines) : (s.onLines f).latches = s.latches := rfl
@[simp] theorem State.onLines_lines (f : Lines → Lines) : (s.onLines f).lines = f s.lines := rfl
@[simp] theorem State.onLines_pins (f : Lines → Lines) : (s.onLines f).pins = s.pins := rfl
@[simp] theorem State.onLines_ptm (f : Lines → Lines) : (s.onLines f).ptm = s.ptm := rfl
@[simp] theorem State.onLines_irq (f : Lines → Lines) : (s.onLines f).irq = s.irq := rfl
@[simp] theorem State.onLines_inputs (f : Lines → Lines) : (s.onLines f).inputs = s.inputs := rfl
@[simp] theorem State.onLines_carried (f : Lines → Lines) : (s.onLines f).carried = s.carried := rfl
@[simp] theorem State.onLines_outputs (f : Lines → Lines) : (s.onLines f).outputs = s.outputs := rfl
@[simp] theorem State.onLines_result (f : Lines → Lines) : (s.onLines f).result = s.result := rfl
@[simp] theorem State.onLines_draws (f : Lines → Lines) : (s.onLines f).draws = s.draws := rfl

/-! ### onPins -/

@[simp] theorem State.onPins_ram (f : PinRegs → PinRegs) : (s.onPins f).ram = s.ram := rfl
@[simp] theorem State.onPins_seq (f : PinRegs → PinRegs) : (s.onPins f).seq = s.seq := rfl
@[simp] theorem State.onPins_eg (f : PinRegs → PinRegs) : (s.onPins f).eg = s.eg := rfl
@[simp] theorem State.onPins_latches (f : PinRegs → PinRegs) : (s.onPins f).latches = s.latches := rfl
@[simp] theorem State.onPins_lines (f : PinRegs → PinRegs) : (s.onPins f).lines = s.lines := rfl
@[simp] theorem State.onPins_pins (f : PinRegs → PinRegs) : (s.onPins f).pins = f s.pins := rfl
@[simp] theorem State.onPins_ptm (f : PinRegs → PinRegs) : (s.onPins f).ptm = s.ptm := rfl
@[simp] theorem State.onPins_irq (f : PinRegs → PinRegs) : (s.onPins f).irq = s.irq := rfl
@[simp] theorem State.onPins_inputs (f : PinRegs → PinRegs) : (s.onPins f).inputs = s.inputs := rfl
@[simp] theorem State.onPins_carried (f : PinRegs → PinRegs) : (s.onPins f).carried = s.carried := rfl
@[simp] theorem State.onPins_outputs (f : PinRegs → PinRegs) : (s.onPins f).outputs = s.outputs := rfl
@[simp] theorem State.onPins_result (f : PinRegs → PinRegs) : (s.onPins f).result = s.result := rfl
@[simp] theorem State.onPins_draws (f : PinRegs → PinRegs) : (s.onPins f).draws = s.draws := rfl

/-! ### onPtm -/

@[simp] theorem State.onPtm_ram (f : PtmLines → PtmLines) : (s.onPtm f).ram = s.ram := rfl
@[simp] theorem State.onPtm_seq (f : PtmLines → PtmLines) : (s.onPtm f).seq = s.seq := rfl
@[simp] theorem State.onPtm_eg (f : PtmLines → PtmLines) : (s.onPtm f).eg = s.eg := rfl
@[simp] theorem State.onPtm_latches (f : PtmLines → PtmLines) : (s.onPtm f).latches = s.latches := rfl
@[simp] theorem State.onPtm_lines (f : PtmLines → PtmLines) : (s.onPtm f).lines = s.lines := rfl
@[simp] theorem State.onPtm_pins (f : PtmLines → PtmLines) : (s.onPtm f).pins = s.pins := rfl
@[simp] theorem State.onPtm_ptm (f : PtmLines → PtmLines) : (s.onPtm f).ptm = f s.ptm := rfl
@[simp] theorem State.onPtm_irq (f : PtmLines → PtmLines) : (s.onPtm f).irq = s.irq := rfl
@[simp] theorem State.onPtm_inputs (f : PtmLines → PtmLines) : (s.onPtm f).inputs = s.inputs := rfl
@[simp] theorem State.onPtm_carried (f : PtmLines → PtmLines) : (s.onPtm f).carried = s.carried := rfl
@[simp] theorem State.onPtm_outputs (f : PtmLines → PtmLines) : (s.onPtm f).outputs = s.outputs := rfl
@[simp] theorem State.onPtm_result (f : PtmLines → PtmLines) : (s.onPtm f).result = s.result := rfl
@[simp] theorem State.onPtm_draws (f : PtmLines → PtmLines) : (s.onPtm f).draws = s.draws := rfl

/-! ### onIrq -/

@[simp] theorem State.onIrq_ram (f : IrqLines → IrqLines) : (s.onIrq f).ram = s.ram := rfl
@[simp] theorem State.onIrq_seq (f : IrqLines → IrqLines) : (s.onIrq f).seq = s.seq := rfl
@[simp] theorem State.onIrq_eg (f : IrqLines → IrqLines) : (s.onIrq f).eg = s.eg := rfl
@[simp] theorem State.onIrq_latches (f : IrqLines → IrqLines) : (s.onIrq f).latches = s.latches := rfl
@[simp] theorem State.onIrq_lines (f : IrqLines → IrqLines) : (s.onIrq f).lines = s.lines := rfl
@[simp] theorem State.onIrq_pins (f : IrqLines → IrqLines) : (s.onIrq f).pins = s.pins := rfl
@[simp] theorem State.onIrq_ptm (f : IrqLines → IrqLines) : (s.onIrq f).ptm = s.ptm := rfl
@[simp] theorem State.onIrq_irq (f : IrqLines → IrqLines) : (s.onIrq f).irq = f s.irq := rfl
@[simp] theorem State.onIrq_inputs (f : IrqLines → IrqLines) : (s.onIrq f).inputs = s.inputs := rfl
@[simp] theorem State.onIrq_carried (f : IrqLines → IrqLines) : (s.onIrq f).carried = s.carried := rfl
@[simp] theorem State.onIrq_outputs (f : IrqLines → IrqLines) : (s.onIrq f).outputs = s.outputs := rfl
@[simp] theorem State.onIrq_result (f : IrqLines → IrqLines) : (s.onIrq f).result = s.result := rfl
@[simp] theorem State.onIrq_draws (f : IrqLines → IrqLines) : (s.onIrq f).draws = s.draws := rfl

/-! ### withRam -/

@[simp] theorem State.withRam_ram (m : Memory) : (s.withRam m).ram = m := rfl
@[simp] theorem State.withRam_seq (m : Memory) : (s.withRam m).seq = s.seq := rfl
@[simp] theorem State.withRam_eg (m : Memory) : (s.withRam m).eg = s.eg := rfl
@[simp] theorem State.withRam_latches (m : Memory) : (s.withRam m).latches = s.latches := rfl
@[simp] theorem State.withRam_lines (m : Memory) : (s.withRam m).lines = s.lines := rfl
@[simp] theorem State.withRam_pins (m : Memory) : (s.withRam m).pins = s.pins := rfl
@[simp] theorem State.withRam_ptm (m : Memory) : (s.withRam m).ptm = s.ptm := rfl
@[simp] theorem State.withRam_irq (m : Memory) : (s.withRam m).irq = s.irq := rfl
@[simp] theorem State.withRam_inputs (m : Memory) : (s.withRam m).inputs = s.inputs := rfl
@[simp] theorem State.withRam_carried (m : Memory) : (s.withRam m).carried = s.carried := rfl
@[simp] theorem State.withRam_outputs (m : Memory) : (s.withRam m).outputs = s.outputs := rfl
@[simp] theorem State.withRam_result (m : Memory) : (s.withRam m).result = s.result := rfl
@[simp] theorem State.withRam_draws (m : Memory) : (s.withRam m).draws = s.draws := rfl

/-! ### withResult -/

@[simp] theorem State.withResult_ram (r : Result) : (s.withResult r).ram = s.ram := rfl
@[simp] theorem State.withResult_seq (r : Result) : (s.withResult r).seq = s.seq := rfl
@[simp] theorem State.withResult_eg (r : Result) : (s.withResult r).eg = s.eg := rfl
@[simp] theorem State.withResult_latches (r : Result) : (s.withResult r).latches = s.latches := rfl
@[simp] theorem State.withResult_lines (r : Result) : (s.withResult r).lines = s.lines := rfl
@[simp] theorem State.withResult_pins (r : Result) : (s.withResult r).pins = s.pins := rfl
@[simp] theorem State.withResult_ptm (r : Result) : (s.withResult r).ptm = s.ptm := rfl
@[simp] theorem State.withResult_irq (r : Result) : (s.withResult r).irq = s.irq := rfl
@[simp] theorem State.withResult_inputs (r : Result) : (s.withResult r).inputs = s.inputs := rfl
@[simp] theorem State.withResult_carried (r : Result) : (s.withResult r).carried = s.carried := rfl
@[simp] theorem State.withResult_outputs (r : Result) : (s.withResult r).outputs = s.outputs := rfl
@[simp] theorem State.withResult_result (r : Result) : (s.withResult r).result = some r := rfl
@[simp] theorem State.withResult_draws (r : Result) : (s.withResult r).draws = s.draws := rfl
@[simp] theorem State.withResult_toBlock (r : Result) : (s.withResult r).toBlock = s.toBlock := rfl

/-! ### emit -/

@[simp] theorem State.emit_ram (e : OutEvent) : (s.emit e).ram = s.ram := rfl
@[simp] theorem State.emit_seq (e : OutEvent) : (s.emit e).seq = s.seq := rfl
@[simp] theorem State.emit_eg (e : OutEvent) : (s.emit e).eg = s.eg := rfl
@[simp] theorem State.emit_latches (e : OutEvent) : (s.emit e).latches = s.latches := rfl
@[simp] theorem State.emit_lines (e : OutEvent) : (s.emit e).lines = s.lines := rfl
@[simp] theorem State.emit_pins (e : OutEvent) : (s.emit e).pins = s.pins := rfl
@[simp] theorem State.emit_ptm (e : OutEvent) : (s.emit e).ptm = s.ptm := rfl
@[simp] theorem State.emit_irq (e : OutEvent) : (s.emit e).irq = s.irq := rfl
@[simp] theorem State.emit_inputs (e : OutEvent) : (s.emit e).inputs = s.inputs := rfl
@[simp] theorem State.emit_carried (e : OutEvent) : (s.emit e).carried = s.carried := rfl
@[simp] theorem State.emit_outputs (e : OutEvent) : (s.emit e).outputs = s.outputs ++ [e] := rfl
@[simp] theorem State.emit_result (e : OutEvent) : (s.emit e).result = s.result := rfl
@[simp] theorem State.emit_draws (e : OutEvent) : (s.emit e).draws = s.draws := rfl
@[simp] theorem State.emit_toBlock (e : OutEvent) : (s.emit e).toBlock = s.toBlock := rfl

/-! ### countDraw -/

@[simp] theorem State.countDraw_ram : (s.countDraw).ram = s.ram := rfl
@[simp] theorem State.countDraw_seq : (s.countDraw).seq = s.seq := rfl
@[simp] theorem State.countDraw_eg : (s.countDraw).eg = s.eg := rfl
@[simp] theorem State.countDraw_latches : (s.countDraw).latches = s.latches := rfl
@[simp] theorem State.countDraw_lines : (s.countDraw).lines = s.lines := rfl
@[simp] theorem State.countDraw_pins : (s.countDraw).pins = s.pins := rfl
@[simp] theorem State.countDraw_ptm : (s.countDraw).ptm = s.ptm := rfl
@[simp] theorem State.countDraw_irq : (s.countDraw).irq = s.irq := rfl
@[simp] theorem State.countDraw_inputs : (s.countDraw).inputs = s.inputs := rfl
@[simp] theorem State.countDraw_carried : (s.countDraw).carried = s.carried := rfl
@[simp] theorem State.countDraw_outputs : (s.countDraw).outputs = s.outputs := rfl
@[simp] theorem State.countDraw_result : (s.countDraw).result = s.result := rfl
@[simp] theorem State.countDraw_draws : (s.countDraw).draws = s.draws + 1 := rfl
@[simp] theorem State.countDraw_toBlock : (s.countDraw).toBlock = s.toBlock := rfl

/-! ### beginStep -/

@[simp] theorem State.beginStep_ram (inp : Input) (rest : List Input) : (s.beginStep inp rest).ram = s.ram := rfl
@[simp] theorem State.beginStep_seq (inp : Input) (rest : List Input) : (s.beginStep inp rest).seq = s.seq := rfl
@[simp] theorem State.beginStep_eg (inp : Input) (rest : List Input) : (s.beginStep inp rest).eg = s.eg := rfl
@[simp] theorem State.beginStep_latches (inp : Input) (rest : List Input) : (s.beginStep inp rest).latches = s.latches := rfl
@[simp] theorem State.beginStep_lines (inp : Input) (rest : List Input) : (s.beginStep inp rest).lines = s.lines := rfl
@[simp] theorem State.beginStep_pins (inp : Input) (rest : List Input) : (s.beginStep inp rest).pins = s.pins := rfl
@[simp] theorem State.beginStep_ptm (inp : Input) (rest : List Input) : (s.beginStep inp rest).ptm = s.ptm := rfl
@[simp] theorem State.beginStep_irq (inp : Input) (rest : List Input) : (s.beginStep inp rest).irq = s.irq := rfl
@[simp] theorem State.beginStep_inputs (inp : Input) (rest : List Input) : (s.beginStep inp rest).inputs = rest := rfl
@[simp] theorem State.beginStep_carried (inp : Input) (rest : List Input) : (s.beginStep inp rest).carried = inp.image := rfl
@[simp] theorem State.beginStep_outputs (inp : Input) (rest : List Input) : (s.beginStep inp rest).outputs = [] := rfl
@[simp] theorem State.beginStep_result (inp : Input) (rest : List Input) : (s.beginStep inp rest).result = none := rfl
@[simp] theorem State.beginStep_draws (inp : Input) (rest : List Input) : (s.beginStep inp rest).draws = s.draws := rfl
@[simp] theorem State.beginStep_toBlock (inp : Input) (rest : List Input) : (s.beginStep inp rest).toBlock = s.toBlock := rfl

/-! ### Delivered inputs -/

/-- With no delivered word there is nothing to take. -/
theorem State.takeInput_nil (h : s.inputs = []) : s.takeInput = none := by
  simp [State.takeInput, h]

/-- The oldest delivered word is taken, and the step begins on it. -/
theorem State.takeInput_cons {inp : Input} {rest : List Input} (h : s.inputs = inp :: rest) :
    s.takeInput = some (inp.word, s.beginStep inp rest) := by
  simp [State.takeInput, h]

/-- Two states with equal fields are equal. -/
theorem State.eq_of_fields {s t : State} (hb : s.toBlock = t.toBlock) (hi : s.inputs = t.inputs)
    (hc : s.carried = t.carried) (ho : s.outputs = t.outputs) (hr : s.result = t.result)
    (hd : s.draws = t.draws) : s = t := by
  cases s; cases t; simp_all

/-- Two blocks with equal groups are equal. -/
theorem Block.eq_of_groups {a b : Block} (h1 : a.ram = b.ram) (h2 : a.seq = b.seq) (h3 : a.eg = b.eg)
    (h4 : a.latches = b.latches) (h5 : a.lines = b.lines) (h6 : a.pins = b.pins) (h7 : a.ptm = b.ptm)
    (h8 : a.irq = b.irq) : a = b := by
  cases a; cases b; simp_all

/-- Two sequencers with equal fields are equal. -/
theorem Sequencer.eq_of_fields {a b : Sequencer}
    (h : a.lsb = b.lsb ∧ a.msb = b.msb ∧ a.newAddr = b.newAddr ∧ a.waveByte = b.waveByte
      ∧ a.currentSample = b.currentSample) : a = b := by
  cases a; cases b; simp_all

/-- Two envelope generators with equal fields are equal. -/
theorem EnvGen.eq_of_fields {a b : EnvGen}
    (h : a.env = b.env ∧ a.envDir = b.envDir ∧ a.envDirCtrl = b.envDirCtrl ∧ a.edivRate = b.edivRate
      ∧ a.tri = b.tri ∧ a.triOut = b.triOut ∧ a.edivCount = b.edivCount ∧ a.edivOut = b.edivOut
      ∧ a.eclk = b.eclk ∧ a.envClk = b.envClk) : a = b := by
  cases a; cases b; simp_all

/-- Two sets of control lines with equal fields are equal. -/
theorem Lines.eq_of_fields {a b : Lines}
    (h : a.run = b.run ∧ a.notLoad = b.notLoad ∧ a.notWpe = b.notWpe ∧ a.notEload = b.notEload
      ∧ a.permitEload = b.permitEload ∧ a.zx = b.zx ∧ a.zxFfClk = b.zxFfClk ∧ a.zxFf = b.zxFf
      ∧ a.gzx = b.gzx ∧ a.notRstb = b.notRstb ∧ a.upperLoad = b.upperLoad ∧ a.msbClk = b.msbClk
      ∧ a.ptmC1 = b.ptmC1 ∧ a.rstbX = b.rstbX) : a = b := by
  cases a; cases b; simp_all

end Sys2Proof.Machine
end

