-- ==== Sys2Proof/Laws/Envelope.lean ====
section
/-! SUPPORT. What each envelope procedure can do: its frame (everything outside the envelope generator and the output
list is unchanged) and its effect, said once. -/

namespace Sys2Proof.Machine

/-- `t` differs from `s` at most in the envelope generator and the output list. -/
@[simp] abbrev EnvelopeFrame (s t : State) : Prop :=
  t.ram = s.ram ∧ t.seq = s.seq ∧ t.latches = s.latches ∧ t.lines = s.lines ∧ t.pins = s.pins ∧ t.ptm = s.ptm
    ∧ t.irq = s.irq ∧ t.inputs = s.inputs ∧ t.carried = s.carried ∧ t.result = s.result ∧ t.draws = s.draws

/-- The envelope generator with the direction replaced and its derived values recomputed (R112). -/
def EnvGen.withDir (e : EnvGen) (d : EnvDir) : EnvGen :=
  { e with envDir := d, edivRate := edivRateOf d e.env, tri := triOf d e.env }

/-- The envelope generator with the value replaced, its derived values recomputed and tri propagated (R113). -/
def EnvGen.withEnv (e : EnvGen) (v : Byte) : EnvGen :=
  { e with env := v, edivRate := edivRateOf e.envDir v, tri := triOf e.envDir v, triOut := triOf e.envDir v }

/-- The divider selector and tri have the values rules R110 and R111 compute. -/
abbrev EnvGen.Derived (e : EnvGen) : Prop := e.edivRate = edivRateOf e.envDir e.env ∧ e.tri = triOf e.envDir e.env

@[simp] theorem EnvGen.withDir_derived (e : EnvGen) (d : EnvDir) : (e.withDir d).Derived := ⟨rfl, rfl⟩

@[simp] theorem EnvGen.withEnv_derived (e : EnvGen) (v : Byte) : (e.withEnv v).Derived := ⟨rfl, rfl⟩

/-! ### Effects -/

theorem setEnvelopeDirection_eq (d : EnvDir) (s : State) :
    setEnvelopeDirection d s = if d = s.eg.envDir then s else s.onEg fun e => e.withDir d := by
  unfold setEnvelopeDirection
  split <;> rfl

theorem applyEnvDir_eq (s : State) :
    applyEnvDir s = if s.eg.envDirCtrl = s.eg.envDir then s else s.onEg fun e => e.withDir e.envDirCtrl :=
  setEnvelopeDirection_eq ..

/-- Once the derived values are current, applying the direction is one replacement of the envelope generator. -/
theorem applyEnvDir_of_derived {s : State} (h : s.eg.Derived) :
    applyEnvDir s = s.onEg fun e => e.withDir e.envDirCtrl := by
  rw [applyEnvDir_eq]
  split
  · rename_i he
    refine State.eq_of_fields (Block.eq_of_groups rfl rfl ?_ rfl rfl rfl rfl rfl) rfl rfl rfl rfl rfl
    obtain ⟨h1, h2⟩ := h
    cases hs : s.eg
    simp_all [State.onEg, EnvGen.withDir]
  · rfl

/-- The events a new envelope value emits: TRI_OUT when the latch output changes (R113). -/
def triEvents (before after : Bool) : List OutEvent := if before = after then [] else [.triOut after]

theorem setEnvelope_eg {v : Byte} {s : State} (h : v ≠ s.eg.env) : (setEnvelope v s).eg = s.eg.withEnv v := by
  rw [setEnvelope, if_neg h, propagateTri]
  split
  · rename_i he
    simp only [updateTri, updateDivider, State.onEg_eg] at he
    simp only [updateTri, updateDivider, State.onEg_eg, EnvGen.withEnv, ← he]
  · simp [updateTri, updateDivider, EnvGen.withEnv]

theorem setEnvelope_outputs {v : Byte} {s : State} (h : v ≠ s.eg.env) :
    (setEnvelope v s).outputs = s.outputs ++ triEvents s.eg.triOut (triOf s.eg.envDir v) := by
  rw [setEnvelope, if_neg h, propagateTri]
  split
  · rename_i he
    simp only [updateTri, updateDivider, State.onEg_eg] at he
    simp [updateTri, updateDivider, triEvents, he]
  · rename_i he
    simp only [updateTri, updateDivider, State.onEg_eg] at he
    simp [updateTri, updateDivider, triEvents, he]

theorem envStep_ne (d : EnvDir) (v : Byte) : envStep d v ≠ v := by
  cases d <;> simp only [envStep] <;> intro h <;> bv_omega

/-- An envelope clock with tri clear steps the value by one (R114). -/
theorem clockEnvelope_eg_of_running {s : State} (h : s.eg.tri = false) :
    (clockEnvelope s).eg = s.eg.withEnv (envStep s.eg.envDir s.eg.env) := by
  simp [clockEnvelope, h, setEnvelope_eg (envStep_ne _ _)]

theorem clockEnvelope_outputs_of_running {s : State} (h : s.eg.tri = false) :
    (clockEnvelope s).outputs =
      s.outputs ++ triEvents s.eg.triOut (triOf s.eg.envDir (envStep s.eg.envDir s.eg.env)) := by
  simp [clockEnvelope, h, setEnvelope_outputs (envStep_ne _ _)]

/-- With tri asserted an envelope clock does nothing (R114). -/
theorem clockEnvelope_of_tri {s : State} (h : s.eg.tri = true) : clockEnvelope s = s := by
  simp [clockEnvelope, h]

/-! ### Frames -/

@[simp] theorem updateDivider_frame (s : State) : EnvelopeFrame s (updateDivider s) := by simp [updateDivider]

@[simp] theorem updateTri_frame (s : State) : EnvelopeFrame s (updateTri s) := by simp [updateTri]

@[simp] theorem setEnvelopeDirection_frame (d : EnvDir) (s : State) :
    EnvelopeFrame s (setEnvelopeDirection d s) := by
  rw [setEnvelopeDirection_eq]
  split <;> simp

@[simp] theorem applyEnvDir_frame (s : State) : EnvelopeFrame s (applyEnvDir s) := setEnvelopeDirection_frame ..

@[simp] theorem applyEnvDirIfPermitted_frame (s : State) : EnvelopeFrame s (applyEnvDirIfPermitted s) := by
  unfold applyEnvDirIfPermitted
  split <;> simp

@[simp] theorem propagateTri_frame (s : State) : EnvelopeFrame s (propagateTri s) := by
  unfold propagateTri
  split <;> simp

@[simp] theorem setEnvelope_frame (v : Byte) (s : State) : EnvelopeFrame s (setEnvelope v s) := by
  unfold setEnvelope
  split <;> simp

@[simp] theorem clockEnvelope_frame (s : State) : EnvelopeFrame s (clockEnvelope s) := by
  unfold clockEnvelope
  split <;> simp

@[simp] theorem setEnvClk_frame (v : Bool) (s : State) : EnvelopeFrame s (setEnvClk v s) := by
  unfold setEnvClk
  split
  · simp
  · cases v <;> simp

@[simp] theorem updateEnvClk_frame (s : State) : EnvelopeFrame s (updateEnvClk s) := setEnvClk_frame ..

@[simp] theorem setEclk_frame (v : Bool) (s : State) : EnvelopeFrame s (setEclk v s) := by
  unfold setEclk
  split <;> simp

@[simp] theorem setEdivOut_frame (v : Bool) (s : State) : EnvelopeFrame s (setEdivOut v s) := by
  unfold setEdivOut
  split <;> simp

@[simp] theorem tickDivider_frame (s : State) : EnvelopeFrame s (tickDivider s) := by simp [tickDivider]

/-! ### A direction change: no event, and only the direction, the selector and tri change (R112) -/

@[simp] theorem setEnvelopeDirection_outputs (d : EnvDir) (s : State) :
    (setEnvelopeDirection d s).outputs = s.outputs := by
  rw [setEnvelopeDirection_eq]
  split <;> simp

@[simp] theorem applyEnvDir_outputs (s : State) : (applyEnvDir s).outputs = s.outputs :=
  setEnvelopeDirection_outputs ..

@[simp] theorem applyEnvDirIfPermitted_outputs (s : State) : (applyEnvDirIfPermitted s).outputs = s.outputs := by
  unfold applyEnvDirIfPermitted
  split <;> simp

/-- `e'` differs from `e` at most in the direction, the divider selector and tri. -/
@[simp] abbrev DirectionFrame (e e' : EnvGen) : Prop :=
  e'.env = e.env ∧ e'.envDirCtrl = e.envDirCtrl ∧ e'.triOut = e.triOut ∧ e'.edivCount = e.edivCount
    ∧ e'.edivOut = e.edivOut ∧ e'.eclk = e.eclk ∧ e'.envClk = e.envClk

@[simp] theorem EnvGen.withDir_frame (e : EnvGen) (d : EnvDir) : DirectionFrame e (e.withDir d) := by
  simp [EnvGen.withDir]

@[simp] theorem setEnvelopeDirection_egFrame (d : EnvDir) (s : State) :
    DirectionFrame s.eg (setEnvelopeDirection d s).eg := by
  rw [setEnvelopeDirection_eq]
  split <;> simp

@[simp] theorem applyEnvDir_egFrame (s : State) : DirectionFrame s.eg (applyEnvDir s).eg :=
  setEnvelopeDirection_egFrame ..

@[simp] theorem applyEnvDirIfPermitted_egFrame (s : State) :
    DirectionFrame s.eg (applyEnvDirIfPermitted s).eg := by
  unfold applyEnvDirIfPermitted
  split <;> simp

/-- A direction change keeps the derived values current. -/
theorem setEnvelopeDirection_derived {d : EnvDir} {s : State} (h : s.eg.Derived) :
    (setEnvelopeDirection d s).eg.Derived := by
  rw [setEnvelopeDirection_eq]
  split
  · exact h
  · exact EnvGen.withDir_derived ..

theorem applyEnvDirIfPermitted_derived {s : State} (h : s.eg.Derived) :
    (applyEnvDirIfPermitted s).eg.Derived := by
  unfold applyEnvDirIfPermitted
  split
  · exact setEnvelopeDirection_derived h
  · exact h

/-- After the direction is applied it equals the control latch (R118). -/
@[simp] theorem applyEnvDir_envDir (s : State) : (applyEnvDir s).eg.envDir = s.eg.envDirCtrl := by
  rw [applyEnvDir_eq]
  split
  · rename_i h
    exact h.symm
  · rfl

/-- With the permission asserted, the direction equals the control latch afterwards (R145, R148, R163, R164). -/
theorem applyEnvDirIfPermitted_envDir {s : State} (h : s.lines.permitEload = true) :
    (applyEnvDirIfPermitted s).eg.envDir = s.eg.envDirCtrl := by
  simp [applyEnvDirIfPermitted, h]

/-! ### An envelope clock: only the value, the selector, tri and its latch output change (R113, R114) -/

/-- `e'` differs from `e` at most in the value, the divider selector, tri and the latch output. -/
@[simp] abbrev ValueFrame (e e' : EnvGen) : Prop :=
  e'.envDir = e.envDir ∧ e'.envDirCtrl = e.envDirCtrl ∧ e'.edivCount = e.edivCount ∧ e'.edivOut = e.edivOut
    ∧ e'.eclk = e.eclk ∧ e'.envClk = e.envClk

@[simp] theorem EnvGen.withEnv_frame (e : EnvGen) (v : Byte) : ValueFrame e (e.withEnv v) := by
  simp [EnvGen.withEnv]

@[simp] theorem clockEnvelope_egFrame (s : State) : ValueFrame s.eg (clockEnvelope s).eg := by
  cases h : s.eg.tri with
  | true => simp [clockEnvelope_of_tri h]
  | false => simp [clockEnvelope_eg_of_running h]

theorem clockEnvelope_derived {s : State} (h : s.eg.Derived) : (clockEnvelope s).eg.Derived := by
  cases ht : s.eg.tri with
  | true => rw [clockEnvelope_of_tri ht]; exact h
  | false => rw [clockEnvelope_eg_of_running ht]; exact EnvGen.withEnv_derived ..

/-- The composite clock ends at the level it was given (R116). -/
@[simp] theorem setEnvClk_envClk (v : Bool) (s : State) : (setEnvClk v s).eg.envClk = v := by
  unfold setEnvClk
  split
  · rename_i h
    exact h.symm
  · cases v <;> simp

@[simp] theorem setEnvClk_egFrame (v : Bool) (s : State) :
    (setEnvClk v s).eg.envDir = s.eg.envDir ∧ (setEnvClk v s).eg.envDirCtrl = s.eg.envDirCtrl
      ∧ (setEnvClk v s).eg.edivCount = s.eg.edivCount ∧ (setEnvClk v s).eg.edivOut = s.eg.edivOut
      ∧ (setEnvClk v s).eg.eclk = s.eg.eclk := by
  unfold setEnvClk
  split
  · simp
  · cases v <;> simp

theorem setEnvClk_derived {v : Bool} {s : State} (h : s.eg.Derived) : (setEnvClk v s).eg.Derived := by
  unfold setEnvClk
  split
  · exact h
  · cases v with
    | false => exact h
    | true => exact clockEnvelope_derived (s := s.onEg _) h

/-- After the recompute the composite clock has the value of its formula (R115). -/
@[simp] theorem updateEnvClk_envClk (s : State) :
    (updateEnvClk s).eg.envClk = envClkOf s.lines.notLoad s.eg.eclk s.eg.edivOut := setEnvClk_envClk ..

@[simp] theorem updateEnvClk_egFrame (s : State) :
    (updateEnvClk s).eg.envDir = s.eg.envDir ∧ (updateEnvClk s).eg.envDirCtrl = s.eg.envDirCtrl
      ∧ (updateEnvClk s).eg.edivCount = s.eg.edivCount ∧ (updateEnvClk s).eg.edivOut = s.eg.edivOut
      ∧ (updateEnvClk s).eg.eclk = s.eg.eclk := setEnvClk_egFrame ..

theorem updateEnvClk_derived {s : State} (h : s.eg.Derived) : (updateEnvClk s).eg.Derived := setEnvClk_derived h

/-- With the composite clock already current, the recompute does nothing (R115, R116). -/
theorem updateEnvClk_of_current {s : State}
    (h : s.eg.envClk = envClkOf s.lines.notLoad s.eg.eclk s.eg.edivOut) : updateEnvClk s = s := by
  simp [updateEnvClk, setEnvClk, h]

end Sys2Proof.Machine
end

