-- ==== Sys2Proof/Laws/Sequencer.lean ====
section
/-! SUPPORT. What each procedure of the control network and of the sequencer can do: its frame, and its effect in a
settled state, said once. -/

namespace Sys2Proof.Machine

/-- `t` differs from `s` at most in what a zero crossing or a strobe can reach: lsb, msb, new_addr, the direction with
the selector and tri, the derived control lines, and the output list. -/
@[simp] abbrev ChainFrame (s t : State) : Prop :=
  t.ram = s.ram ∧ t.seq.waveByte = s.seq.waveByte ∧ t.seq.currentSample = s.seq.currentSample
    ∧ DirectionFrame s.eg t.eg ∧ t.latches = s.latches
    ∧ t.lines.run = s.lines.run ∧ t.lines.notLoad = s.lines.notLoad ∧ t.lines.notWpe = s.lines.notWpe
    ∧ t.lines.notEload = s.lines.notEload ∧ t.pins = s.pins ∧ t.ptm = s.ptm ∧ t.irq = s.irq
    ∧ t.inputs = s.inputs ∧ t.carried = s.carried ∧ t.result = s.result ∧ t.draws = s.draws

/-- `t` differs from `s` at most in what gzx reaches: the MSB, the direction with the selector and tri, and the lines
not_rstb, gzx, upper_load and permit_eload. -/
@[simp] abbrev GateFrame (s t : State) : Prop :=
  ChainFrame s t ∧ t.seq.lsb = s.seq.lsb ∧ t.seq.newAddr = s.seq.newAddr ∧ t.lines.zx = s.lines.zx
    ∧ t.lines.zxFfClk = s.lines.zxFfClk ∧ t.lines.zxFf = s.lines.zxFf ∧ t.lines.msbClk = s.lines.msbClk
    ∧ t.lines.ptmC1 = s.lines.ptmC1 ∧ t.lines.rstbX = s.lines.rstbX ∧ t.outputs = s.outputs

/-- The envelope-load permission is current, a permitted direction has been applied, and the envelope's derived
values are current. -/
structure PermissionSettled (s : State) : Prop where
  permit : s.lines.permitEload = permitEloadOf s.lines.gzx s.lines.notEload
  applied : s.lines.permitEload = true → s.eg.envDir = s.eg.envDirCtrl
  derived : s.eg.Derived

/-! ### Upper-address load, permission, gated zero crossing -/

@[simp] theorem setMsb_frame (v : BitVec 8) (s : State) :
    GateFrame s (setMsb v s) ∧ (setMsb v s).lines = s.lines ∧ (setMsb v s).eg = s.eg
      ∧ (setMsb v s).seq.msb = v := by
  simp [setMsb]

@[simp] theorem setUpperLoad_frame (v : Bool) (s : State) :
    GateFrame s (setUpperLoad v s) ∧ (setUpperLoad v s).eg = s.eg
      ∧ (setUpperLoad v s).lines.gzx = s.lines.gzx ∧ (setUpperLoad v s).lines.notRstb = s.lines.notRstb
      ∧ (setUpperLoad v s).lines.permitEload = s.lines.permitEload
      ∧ (setUpperLoad v s).lines.upperLoad = v := by
  unfold setUpperLoad
  split
  · simp_all
  · cases v <;> simp

/-- The MSB is loaded from ws exactly when the line rises (R146). -/
theorem setUpperLoad_msb (v : Bool) (s : State) :
    (setUpperLoad v s).seq.msb
      = if v && !s.lines.upperLoad then msbLoadValue s.pins.ws else s.seq.msb := by
  unfold setUpperLoad
  split
  · rename_i h
    cases v <;> simp [← h]
  · cases v <;> simp_all

@[simp] theorem updateUpperLoad_frame (s : State) :
    GateFrame s (updateUpperLoad s) ∧ (updateUpperLoad s).eg = s.eg
      ∧ (updateUpperLoad s).lines.gzx = s.lines.gzx ∧ (updateUpperLoad s).lines.notRstb = s.lines.notRstb
      ∧ (updateUpperLoad s).lines.permitEload = s.lines.permitEload
      ∧ (updateUpperLoad s).lines.upperLoad = upperLoadOf s.lines.gzx s.lines.notRstb :=
  setUpperLoad_frame ..

theorem updateUpperLoad_msb (s : State) :
    (updateUpperLoad s).seq.msb
      = if upperLoadOf s.lines.gzx s.lines.notRstb && !s.lines.upperLoad then msbLoadValue s.pins.ws
        else s.seq.msb :=
  setUpperLoad_msb ..

@[simp] theorem updatePermitEload_frame (s : State) :
    GateFrame s (updatePermitEload s) ∧ (updatePermitEload s).eg = s.eg ∧ (updatePermitEload s).seq = s.seq
      ∧ (updatePermitEload s).lines.gzx = s.lines.gzx
      ∧ (updatePermitEload s).lines.notRstb = s.lines.notRstb
      ∧ (updatePermitEload s).lines.upperLoad = s.lines.upperLoad
      ∧ (updatePermitEload s).lines.permitEload = permitEloadOf s.lines.gzx s.lines.notEload := by
  unfold updatePermitEload
  dsimp only
  split <;> simp_all

@[simp] theorem applyEnvDirIfPermitted_gateFrame (s : State) :
    GateFrame s (applyEnvDirIfPermitted s) := by simp

@[simp] theorem setGzx_frame (v : Bool) (s : State) :
    GateFrame s (setGzx v s) ∧ (setGzx v s).lines.gzx = v
      ∧ (setGzx v s).lines.notRstb = s.lines.notRstb := by
  unfold setGzx
  split
  · simp_all
  · simp

@[simp] theorem updateGzx_frame (s : State) :
    GateFrame s (updateGzx s) ∧ (updateGzx s).lines.gzx = gzxOf s.lines.zxFf s.lines.notRstb
      ∧ (updateGzx s).lines.notRstb = s.lines.notRstb := setGzx_frame ..

/-- The gzx recompute with the upper-address load current loads the MSB exactly when upper_load rises. -/
theorem updateGzx_upper {s : State} (h : s.lines.upperLoad = upperLoadOf s.lines.gzx s.lines.notRstb) :
    (updateGzx s).lines.upperLoad
        = upperLoadOf (gzxOf s.lines.zxFf s.lines.notRstb) s.lines.notRstb
      ∧ (updateGzx s).seq.msb
        = if upperLoadOf (gzxOf s.lines.zxFf s.lines.notRstb) s.lines.notRstb && !s.lines.upperLoad
          then msbLoadValue s.pins.ws else s.seq.msb := by
  unfold updateGzx setGzx
  split
  · rename_i hg
    rw [hg, ← h]
    simp
  · simp [updateUpperLoad_msb]

theorem updateGzx_keeps_permission {s : State} (h : PermissionSettled s) : PermissionSettled (updateGzx s) := by
  unfold updateGzx setGzx
  split
  · exact h
  · refine ⟨by simp, fun hp => ?_, applyEnvDirIfPermitted_derived (by simpa using h.derived)⟩
    simp only [applyEnvDirIfPermitted_frame] at hp
    rw [applyEnvDirIfPermitted_envDir hp]
    simp

/-- A strobe edge: gzx follows, then the upper-address load (R144). -/
@[simp] theorem setNotRstb_frame (v : Bool) (s : State) :
    GateFrame s (setNotRstb v s) ∧ (setNotRstb v s).lines.notRstb = v := by
  unfold setNotRstb
  split
  · simp_all
  · simp

theorem setNotRstb_lines {v : Bool} {s : State} (h : v ≠ s.lines.notRstb) :
    (setNotRstb v s).lines.gzx = gzxOf s.lines.zxFf v
      ∧ (setNotRstb v s).lines.upperLoad = upperLoadOf (gzxOf s.lines.zxFf v) v := by
  simp [setNotRstb, h]

theorem setNotRstb_keeps_permission {v : Bool} {s : State} (h : PermissionSettled s) :
    PermissionSettled (setNotRstb v s) := by
  unfold setNotRstb
  split
  · exact h
  · have h2 : PermissionSettled (s.onLines fun l => { l with notRstb := v }) :=
      ⟨h.permit, h.applied, h.derived⟩
    have h1 := updateGzx_keeps_permission h2
    exact ⟨by simpa using h1.permit, by simpa using h1.applied, by simpa using h1.derived⟩

/-! ### The zero-crossing chain -/

@[simp] theorem setMsbClk_frame (v : Bool) (s : State) :
    ChainFrame s (setMsbClk v s) ∧ (setMsbClk v s).eg = s.eg ∧ (setMsbClk v s).seq.lsb = s.seq.lsb
      ∧ (setMsbClk v s).seq.newAddr = s.seq.newAddr ∧ (setMsbClk v s).outputs = s.outputs
      ∧ (setMsbClk v s).lines = { s.lines with msbClk := v } := by
  unfold setMsbClk
  split
  · rename_i h
    subst h
    simp
  · cases v <;> simp [msbClkActiveLevel]

/-- The MSB counts exactly on the falling edge (R123; D10). -/
theorem setMsbClk_msb (v : Bool) (s : State) :
    (setMsbClk v s).seq.msb = if !v && s.lines.msbClk then s.seq.msb + 1 else s.seq.msb := by
  unfold setMsbClk
  split
  · rename_i h
    cases v <;> simp [← h]
  · cases v <;> simp_all [msbClkActiveLevel]

@[simp] theorem updateMsbClk_frame (s : State) :
    ChainFrame s (updateMsbClk s) ∧ (updateMsbClk s).eg = s.eg ∧ (updateMsbClk s).seq.lsb = s.seq.lsb
      ∧ (updateMsbClk s).seq.newAddr = s.seq.newAddr ∧ (updateMsbClk s).outputs = s.outputs
      ∧ (updateMsbClk s).lines = { s.lines with msbClk := msbClkOf s.lines.notLoad s.lines.zx } :=
  setMsbClk_frame ..

theorem updateMsbClk_msb (s : State) :
    (updateMsbClk s).seq.msb
      = if !msbClkOf s.lines.notLoad s.lines.zx && s.lines.msbClk then s.seq.msb + 1 else s.seq.msb :=
  setMsbClk_msb ..

@[simp] theorem zxOut_frame (s : State) :
    (zxOut s).toBlock = s.toBlock ∧ (zxOut s).inputs = s.inputs ∧ (zxOut s).carried = s.carried
      ∧ (zxOut s).result = s.result ∧ (zxOut s).draws = s.draws
      ∧ (zxOut s).outputs = s.outputs ++ [.zxOut s.lines.zx] := by
  simp [zxOut]

@[simp] theorem pulseZcint_frame (s : State) :
    (pulseZcint s).toBlock = s.toBlock ∧ (pulseZcint s).inputs = s.inputs
      ∧ (pulseZcint s).carried = s.carried ∧ (pulseZcint s).result = s.result
      ∧ (pulseZcint s).draws = s.draws
      ∧ (pulseZcint s).outputs = s.outputs ++ [.zcint true, .zcint false] := by
  simp [pulseZcint]

/-- Setting the flip-flop stores it and nothing else (R126). -/
theorem setZxFf_eq (v : Bool) (s : State) : setZxFf v s = s.onLines fun l => { l with zxFf := v } := by
  unfold setZxFf
  split
  · rename_i h
    subst h
    rfl
  · rfl

/-- Whether a flip-flop clock change to `v` latches: a rise while run (R125). -/
def latches? (v : Bool) (s : State) : Bool := v && !s.lines.zxFfClk && s.lines.run

@[simp] theorem setZxFfClk_frame (v : Bool) (s : State) :
    ChainFrame s (setZxFfClk v s) ∧ (setZxFfClk v s).seq.lsb = s.seq.lsb
      ∧ (setZxFfClk v s).seq.newAddr = s.seq.newAddr
      ∧ (setZxFfClk v s).lines.zx = s.lines.zx ∧ (setZxFfClk v s).lines.msbClk = s.lines.msbClk
      ∧ (setZxFfClk v s).lines.notRstb = s.lines.notRstb ∧ (setZxFfClk v s).lines.ptmC1 = s.lines.ptmC1
      ∧ (setZxFfClk v s).lines.rstbX = s.lines.rstbX ∧ (setZxFfClk v s).lines.zxFfClk = v := by
  unfold setZxFfClk
  split
  · simp_all
  · dsimp only
    split <;> simp [setZxFf_eq]

/-- A latch takes the timer's output 1 and pulses the interrupt line (R125, R127). -/
theorem setZxFfClk_latch (v : Bool) (s : State) :
    (setZxFfClk v s).lines.zxFf = (if latches? v s then s.ptm.o1 else s.lines.zxFf)
      ∧ (setZxFfClk v s).outputs
        = s.outputs ++ (if latches? v s then [.zcint true, .zcint false] else []) := by
  unfold setZxFfClk latches?
  split
  · rename_i h
    cases v <;> simp [← h]
  · dsimp only
    cases v <;> cases hr : s.lines.run <;> simp_all [setZxFf_eq]

/-- With the strobe high and gzx and upper_load following the flip-flop, they still do afterwards, and the MSB is
loaded exactly when the flip-flop rises (R145, R146). -/
theorem setZxFfClk_gates {v : Bool} {s : State} (hr : s.lines.notRstb = true) (hg : s.lines.gzx = s.lines.zxFf)
    (hu : s.lines.upperLoad = s.lines.gzx) :
    (setZxFfClk v s).lines.gzx = (setZxFfClk v s).lines.zxFf
      ∧ (setZxFfClk v s).lines.upperLoad = (setZxFfClk v s).lines.gzx
      ∧ (setZxFfClk v s).seq.msb
        = if latches? v s && s.ptm.o1 && !s.lines.zxFf then msbLoadValue s.pins.ws else s.seq.msb := by
  unfold setZxFfClk latches?
  split
  · rename_i h
    cases v <;> simp [← h, hg, hu]
  · dsimp only
    split
    · rename_i hv hl
      have hv' : v = true := by simp_all
      subst hv'
      have hup : (pulseZcint (setZxFf s.ptm.o1 (s.onLines fun l => { l with zxFfClk := true }))).lines.upperLoad
          = upperLoadOf
              (pulseZcint (setZxFf s.ptm.o1 (s.onLines fun l => { l with zxFfClk := true }))).lines.gzx
              (pulseZcint (setZxFf s.ptm.o1 (s.onLines fun l => { l with zxFfClk := true }))).lines.notRstb := by
        simp [setZxFf_eq, hr, hu, upperLoadOf]
      have h1 := updateGzx_upper hup
      simp [setZxFf_eq, hr, gzxOf, upperLoadOf] at h1
      simp [setZxFf_eq, hr, gzxOf, h1, hu, hg]
      simp_all
    · rename_i hl
      cases v <;> simp_all

theorem setZxFfClk_keeps_permission {v : Bool} {s : State} (h : PermissionSettled s) :
    PermissionSettled (setZxFfClk v s) := by
  unfold setZxFfClk
  split
  · exact h
  · dsimp only
    split
    · apply updateGzx_keeps_permission
      exact ⟨by simpa [setZxFf_eq] using h.permit, by simpa [setZxFf_eq] using h.applied,
        by simpa [setZxFf_eq] using h.derived⟩
    · exact ⟨h.permit, h.applied, h.derived⟩

@[simp] theorem updatePtmC1_frame (s : State) :
    ChainFrame s (updatePtmC1 s) ∧ (updatePtmC1 s).seq = s.seq ∧ (updatePtmC1 s).eg = s.eg
      ∧ (updatePtmC1 s).lines
        = { s.lines with ptmC1 := ptmC1Of s.lines.notLoad s.lines.zxFfClk } := by
  unfold updatePtmC1
  dsimp only
  split
  · rename_i h
    rw [h]
    simp
  · simp

theorem updatePtmC1_outputs (s : State) :
    (updatePtmC1 s).outputs
      = s.outputs ++ (if ptmC1Of s.lines.notLoad s.lines.zxFfClk = s.lines.ptmC1 then []
          else [.ptmC1 (ptmC1Of s.lines.notLoad s.lines.zxFfClk)]) := by
  unfold updatePtmC1
  dsimp only
  split <;> simp_all

@[simp] theorem setZx_frame (v : Bool) (s : State) :
    ChainFrame s (setZx v s) ∧ (setZx v s).seq.lsb = s.seq.lsb ∧ (setZx v s).seq.newAddr = s.seq.newAddr
      ∧ (setZx v s).lines.notRstb = s.lines.notRstb ∧ (setZx v s).lines.rstbX = s.lines.rstbX
      ∧ (setZx v s).lines.zx = v := by
  unfold setZx
  split
  · simp_all
  · simp [updateZxFfClk]

theorem setZx_keeps_permission {v : Bool} {s : State} (h : PermissionSettled s) :
    PermissionSettled (setZx v s) := by
  unfold setZx
  split
  · exact h
  · have h1 : PermissionSettled (zxOut (updateMsbClk (s.onLines fun l => { l with zx := v }))) :=
      ⟨by simpa using h.permit, by simpa using h.applied, by simpa using h.derived⟩
    have h2 := setZxFfClk_keeps_permission
      (v := zxFfClkOf (zxOut (updateMsbClk (s.onLines fun l => { l with zx := v }))).lines.zx) h1
    exact ⟨by simpa [updateZxFfClk] using h2.permit, by simpa [updateZxFfClk] using h2.applied,
      by simpa [updateZxFfClk] using h2.derived⟩

/-- The events of a zero-crossing change to `v` in a settled state: ZX_OUT, the interrupt pulse of a latch, and the
timer line when load is asserted (R122, R125, R127 to R129). -/
def crossingEvents (v : Bool) (s : State) : List OutEvent :=
  [.zxOut v] ++ (if v && s.lines.run then [.zcint true, .zcint false] else [])
    ++ (if s.lines.notLoad then [] else [.ptmC1 v])

/-- The MSB after a zero-crossing change to `v` in a settled state: counted by a fall under load, loaded from ws by a
latch that raises the flip-flop. -/
def crossingMsb (v : Bool) (s : State) : BitVec 8 :=
  if v then (if s.lines.run && s.ptm.o1 && !s.lines.zxFf then msbLoadValue s.pins.ws else s.seq.msb)
  else (if s.lines.notLoad then s.seq.msb else s.seq.msb + 1)

/-- A zero-crossing change in a settled state, whole (R122). -/
theorem setZx_settled {v : Bool} {s : State} (hv : v ≠ s.lines.zx)
    (hc : s.lines.zxFfClk = zxFfClkOf s.lines.zx) (hm : s.lines.msbClk = msbClkOf s.lines.notLoad s.lines.zx)
    (hp : s.lines.ptmC1 = ptmC1Of s.lines.notLoad s.lines.zxFfClk) (hr : s.lines.notRstb = true)
    (hg : s.lines.gzx = s.lines.zxFf) (hu : s.lines.upperLoad = s.lines.gzx) :
    (setZx v s).lines.zxFfClk = zxFfClkOf v ∧ (setZx v s).lines.msbClk = msbClkOf s.lines.notLoad v
      ∧ (setZx v s).lines.ptmC1 = ptmC1Of s.lines.notLoad v
      ∧ (setZx v s).lines.zxFf = (if v && s.lines.run then s.ptm.o1 else s.lines.zxFf)
      ∧ (setZx v s).lines.gzx = (setZx v s).lines.zxFf
      ∧ (setZx v s).lines.upperLoad = (setZx v s).lines.gzx
      ∧ (setZx v s).seq.msb = crossingMsb v s
      ∧ (setZx v s).outputs = s.outputs ++ crossingEvents v s := by
  have hz : s.lines.zx = !v := by cases v <;> simp_all
  rw [hz] at hc hm
  rw [hc] at hp
  simp only [zxFfClkOf] at hc hp
  obtain ⟨t, ht⟩ : ∃ t, t = zxOut (updateMsbClk (s.onLines fun l => { l with zx := v })) := ⟨_, rfl⟩
  have tz : t.lines.zx = v := by simp [ht]
  have tc : t.lines.zxFfClk = !v := by simp [ht, hc]
  have tm : t.lines.msbClk = msbClkOf s.lines.notLoad v := by simp [ht]
  have tp : t.lines.ptmC1 = ptmC1Of s.lines.notLoad (!v) := by simp [ht, hp]
  have tl : t.lines.run = s.lines.run ∧ t.lines.notLoad = s.lines.notLoad ∧ t.lines.zxFf = s.lines.zxFf
      ∧ t.lines.gzx = s.lines.gzx ∧ t.lines.upperLoad = s.lines.upperLoad ∧ t.lines.notRstb = true
      ∧ t.ptm = s.ptm ∧ t.pins = s.pins := by simp [ht, hr]
  have tq : t.seq.msb = if !msbClkOf s.lines.notLoad v && s.lines.msbClk then s.seq.msb + 1 else s.seq.msb := by
    simp [ht, updateMsbClk_msb]
  have te : t.outputs = s.outputs ++ [.zxOut v] := by simp [ht]
  obtain ⟨t1, t2, t3, t4, t5, t6, t7, t8⟩ := tl
  obtain ⟨g1, g2, g3⟩ := setZxFfClk_gates (v := v) t6 (by rw [t4, t3, hg]) (by rw [t5, t4, hu])
  obtain ⟨l1, l2⟩ := setZxFfClk_latch v t
  simp only [setZx, if_neg hv, updateZxFfClk, zxFfClkOf, ← ht, tz]
  refine ⟨by simp, by simp [tm], by simp [t2], ?_, by simpa using g1, by simpa using g2, ?_, ?_⟩
  · simp [l1, latches?, tc, t1, t7, t3]
  · simp [g3, latches?, tc, t1, t3, t7, t8, tq, crossingMsb, hm, msbClkOf]
    cases v <;> cases s.lines.notLoad <;> cases s.lines.run <;> cases s.ptm.o1 <;> simp
  · simp [updatePtmC1_outputs, l2, latches?, tc, t1, t2, tp, te, ptmC1Of, crossingEvents]
    cases v <;> cases s.lines.notLoad <;> cases s.lines.run <;> simp

/-! ### lsb, advance -/

@[simp] theorem setLsb_frame (v : BitVec 7) (s : State) :
    ChainFrame s (setLsb v s) ∧ (setLsb v s).seq.newAddr = s.seq.newAddr
      ∧ (setLsb v s).lines.notRstb = s.lines.notRstb ∧ (setLsb v s).lines.rstbX = s.lines.rstbX
      ∧ (setLsb v s).seq.lsb = v := by
  unfold setLsb
  split <;> simp_all

theorem setLsb_keeps_permission {v : BitVec 7} {s : State} (h : PermissionSettled s) :
    PermissionSettled (setLsb v s) := by
  unfold setLsb
  split
  · exact h
  · exact setZx_keeps_permission ⟨h.permit, h.applied, h.derived⟩

/-- What setting lsb does in a settled state: nothing beyond lsb unless bit 6 changes, and a whole zero crossing when
it does (R121, R122). -/
theorem setLsb_settled {v : BitVec 7} {s : State} (hz : s.toBlock.ZeroCrossingSettled)
    (hg : s.toBlock.GatesSettled) :
    (setLsb v s).lines.zx = zxOf v ∧ (setLsb v s).lines.zxFfClk = zxFfClkOf (zxOf v)
      ∧ (setLsb v s).lines.msbClk = msbClkOf s.lines.notLoad (zxOf v)
      ∧ (setLsb v s).lines.ptmC1 = ptmC1Of s.lines.notLoad (zxOf v)
      ∧ (setLsb v s).lines.zxFf
        = (if zxOf v && !zxOf s.seq.lsb && s.lines.run then s.ptm.o1 else s.lines.zxFf)
      ∧ (setLsb v s).lines.gzx = (setLsb v s).lines.zxFf
      ∧ (setLsb v s).lines.upperLoad = (setLsb v s).lines.gzx
      ∧ (setLsb v s).seq.msb = (if zxOf v = zxOf s.seq.lsb then s.seq.msb else crossingMsb (zxOf v) s)
      ∧ (setLsb v s).outputs
        = s.outputs ++ (if zxOf v = zxOf s.seq.lsb then [] else crossingEvents (zxOf v) s) := by
  obtain ⟨z1, z2, z3, z4⟩ := hz
  obtain ⟨g1, g2, g3, _⟩ := hg
  by_cases hv : v = s.seq.lsb
  · subst hv
    simp_all [setLsb, zxFfClkOf]
  · by_cases hx : zxOf v = zxOf s.seq.lsb
    · have hn : zxOf v = (s.onSeq fun q => { q with lsb := v }).lines.zx := by simp [hx, z1]
      simp only [setLsb, if_neg hv, setZx, if_pos hn]
      simp_all [zxFfClkOf]
    · have hn : zxOf v ≠ (s.onSeq fun q => { q with lsb := v }).lines.zx := by simpa [z1] using hx
      obtain ⟨a1, a2, a3, a4, a5, a6, a7, a8⟩ := setZx_settled hn (by simpa using z2) (by simpa using z3)
        (by simpa using z4) (by simpa using g1) (by simpa using g2) (by simpa using g3)
      have hb : zxOf s.seq.lsb = !zxOf v := by cases h : zxOf v <;> simp_all
      simp only [setLsb, if_neg hv, if_neg hx]
      refine ⟨by simp, a1, by simpa using a2, by simpa using a3, ?_, a5, a6, ?_, ?_⟩
      · rw [a4, hb]; cases zxOf v <;> simp
      · exact a7
      · exact a8

@[simp] theorem advance_frame (s : State) :
    ChainFrame s (advance s) ∧ (advance s).seq.newAddr = s.seq.newAddr
      ∧ (advance s).lines.notRstb = s.lines.notRstb ∧ (advance s).lines.rstbX = s.lines.rstbX
      ∧ (advance s).seq.lsb = s.seq.lsb + 1 := setLsb_frame ..

/-- Bit 6 of the counter changes exactly at 63 to 64 and at 127 to 0 (R121). -/
theorem zxOf_succ (v : BitVec 7) :
    zxOf (v + 1) = (if v = 63#7 then true else if v = 127#7 then false else zxOf v) := by
  revert v; decide

theorem zxOf_63 : zxOf 63#7 = false := by decide

theorem zxOf_127 : zxOf 127#7 = true := by decide

/-! ### The strobe -/

@[simp] theorem strobe_frame (s : State) :
    ChainFrame s (strobe s) ∧ (strobe s).lines.rstbX = s.lines.rstbX ∧ (strobe s).lines.notRstb = true
      ∧ (strobe s).seq.lsb = 0#7 ∧ (strobe s).seq.msb = msbLoadValue s.pins.ws
      ∧ (strobe s).seq.newAddr = true := by
  simp [strobe]

theorem strobe_keeps_permission {s : State} (h : PermissionSettled s) : PermissionSettled (strobe s) := by
  have h0 : PermissionSettled (s.onSeq fun q => { q with newAddr := true }) := ⟨h.permit, h.applied, h.derived⟩
  have h1 := setLsb_keeps_permission (v := 0#7)
    (setNotRstb_keeps_permission (v := true) (setNotRstb_keeps_permission (v := false) h0))
  exact ⟨by simpa [strobe] using h1.permit, by simpa [strobe] using h1.applied,
    by simpa [strobe] using h1.derived⟩

@[simp] theorem checkRstb_frame (s : State) : ChainFrame s (checkRstb s) := by
  unfold checkRstb
  dsimp only
  split <;> simp

/-- The pulser's memory is current afterwards (R133). -/
@[simp] theorem checkRstb_rstbX (s : State) :
    (checkRstb s).lines.rstbX = rstbXOf s.lines.run s.lines.notLoad := by
  unfold checkRstb
  dsimp only
  split <;> simp_all

theorem checkRstb_of_change {s : State} (h : rstbXOf s.lines.run s.lines.notLoad ≠ s.lines.rstbX) :
    checkRstb s = strobe (s.onLines fun l => { l with rstbX := rstbXOf s.lines.run s.lines.notLoad }) := by
  simp [checkRstb, h]

theorem checkRstb_keeps_permission {s : State} (h : PermissionSettled s) : PermissionSettled (checkRstb s) := by
  unfold checkRstb
  dsimp only
  split
  · exact h
  · exact strobe_keeps_permission ⟨h.permit, h.applied, h.derived⟩

end Sys2Proof.Machine
end

