-- ==== Sys2Proof/Laws/Strobe.lean ====
section
/-! SUPPORT. The whole effect of a zero crossing that falls, of the strobe, and of the advance, in a settled state. -/

namespace Sys2Proof.Machine

/-! ### A fall reaches nothing but the four zero-crossing lines and the MSB -/

/-- A flip-flop clock that falls only stores its level (R125). -/
@[simp] theorem setZxFfClk_fall (s : State) :
    setZxFfClk false s = s.onLines fun l => { l with zxFfClk := false } := by
  unfold setZxFfClk
  split
  · rename_i h
    refine State.eq_of_fields (Block.eq_of_groups rfl rfl rfl rfl ?_ rfl rfl rfl) rfl rfl rfl rfl rfl
    cases hl : s.lines
    simp_all
  · simp

theorem setZx_fall (s : State) :
    (setZx false s).eg = s.eg ∧ (setZx false s).lines.gzx = s.lines.gzx
      ∧ (setZx false s).lines.upperLoad = s.lines.upperLoad
      ∧ (setZx false s).lines.permitEload = s.lines.permitEload := by
  unfold setZx
  split
  · simp
  · simp [updateZxFfClk, zxFfClkOf]

/-- Unless bit 6 of lsb rises, setting lsb leaves the envelope generator and the gates alone (R121, R125). -/
theorem setLsb_no_rise {v : BitVec 7} {s : State} (h : zxOf v = false ∨ zxOf v = s.lines.zx) :
    (setLsb v s).eg = s.eg ∧ (setLsb v s).lines.gzx = s.lines.gzx
      ∧ (setLsb v s).lines.upperLoad = s.lines.upperLoad
      ∧ (setLsb v s).lines.permitEload = s.lines.permitEload := by
  unfold setLsb
  split
  · simp
  · rcases h with h | h
    · simpa [h] using setZx_fall (s.onSeq fun q => { q with lsb := v })
    · simp [setZx, h]

/-! ### The strobe's two edges -/

/-- The state between the strobe's fall and rise has gzx and upper_load asserted, so a direction the envelope-load pin
lets through has been applied (R144 to R147). -/
theorem setNotRstb_pulse {s : State} (hr : s.lines.notRstb = true) (hp : PermissionSettled s) :
    (setNotRstb true (setNotRstb false s)).lines
        = { s.lines with gzx := s.lines.zxFf, upperLoad := s.lines.zxFf,
                         permitEload := s.lines.zxFf && !s.lines.notEload }
      ∧ (setNotRstb true (setNotRstb false s)).eg
        = (if s.lines.notEload then s.eg else s.eg.withDir s.eg.envDirCtrl) := by
  obtain ⟨u, hu'⟩ : ∃ u, u = setNotRstb false s := ⟨_, rfl⟩
  obtain ⟨t, ht⟩ : ∃ t, t = setNotRstb true u := ⟨_, rfl⟩
  have pu : PermissionSettled u := hu' ▸ setNotRstb_keeps_permission hp
  have pt : PermissionSettled t := ht ▸ setNotRstb_keeps_permission pu
  have fu := setNotRstb_frame false s
  have lu := setNotRstb_lines (v := false) (s := s) (by simp [hr])
  have ft := setNotRstb_frame true u
  rw [← hu'] at fu lu
  have lt := setNotRstb_lines (v := true) (s := u) (by simp [fu])
  rw [← ht] at ft lt
  rw [← hu', ← ht]
  simp [gzxOf, upperLoadOf] at lu lt
  have hpt := pt.permit
  have hpu := pu.permit
  constructor
  · simp [permitEloadOf, lt, ft, fu] at hpt
    apply Lines.eq_of_fields
    simp [ft, fu, lt, hpt, hr]
  · have ht0 : t = updateUpperLoad (updateGzx (u.onLines fun l => { l with notRstb := true })) := by
      simp [ht, setNotRstb, fu]
    have hu0 : u = updateUpperLoad (updateGzx (s.onLines fun l => { l with notRstb := false })) := by
      simp [hu', setNotRstb, hr]
    cases hn : s.lines.notEload with
    | true =>
      have e1 : u.eg = s.eg := by
        rw [hu0]
        simp [updateGzx, setGzx, applyEnvDirIfPermitted, permitEloadOf, hn]
        split <;> simp
      have e2 : t.eg = u.eg := by
        rw [ht0]
        have hn' : u.lines.notEload = true := by simp [fu, hn]
        simp [updateGzx, setGzx, applyEnvDirIfPermitted, permitEloadOf, hn']
        split <;> simp
      simp [e2, e1]
    | false =>
      have hn' : u.lines.notEload = false := by simp [fu, hn]
      have hup : u.lines.permitEload = true := by rw [hpu]; simp [permitEloadOf, lu, hn']
      have e1 : u.eg = s.eg.withDir s.eg.envDirCtrl := by
        have hd := pu.applied hup
        obtain ⟨d1, d2⟩ := pu.derived
        apply EnvGen.eq_of_fields
        simp [EnvGen.withDir, d1, d2, hd, fu]
      have e2 : t.eg = u.eg := by
        have h2 : (updateGzx (u.onLines fun l => { l with notRstb := true })).eg = u.eg := by
          have hk : u.eg.envDirCtrl = u.eg.envDir := (pu.applied hup).symm
          unfold updateGzx setGzx
          split
          · simp
          · unfold applyEnvDirIfPermitted
            split
            · rw [applyEnvDir_eq, if_pos (by simpa using hk)]
              simp
            · simp
        rw [ht0]
        simp [h2]
      simp [e2, e1]

/-! ### The strobe, whole -/

/-- The lines after a strobe (R134): lsb is 0, so the zero-crossing lines are low, and the gates follow the
flip-flop again. -/
def Lines.afterStrobe (l : Lines) : Lines :=
  { l with zx := false, zxFfClk := false, msbClk := false, ptmC1 := false,
           gzx := l.zxFf, upperLoad := l.zxFf, permitEload := l.zxFf && !l.notEload }

/-- The sequencer after a strobe (R134). -/
def Sequencer.afterStrobe (q : Sequencer) (ws : BitVec 7) : Sequencer :=
  { q with lsb := 0#7, msb := msbLoadValue ws, newAddr := true }

/-- The envelope generator after a strobe: the direction reaches it while the envelope-load pin lets it (R145). -/
def EnvGen.afterStrobe (e : EnvGen) (notEload : Bool) : EnvGen :=
  if notEload then e else e.withDir e.envDirCtrl

/-- The zero-crossing lines record lsb, whatever the load pin has just become: a low zx goes with low lines. -/
structure Block.ZeroCrossingRecorded (b : Block) : Prop where
  zx : b.lines.zx = zxOf b.seq.lsb
  clk : b.lines.zxFfClk = b.lines.zx
  low : b.lines.zx = false → b.lines.msbClk = false ∧ b.lines.ptmC1 = false

theorem Block.ZeroCrossingRecorded.of_settled {b : Block} (h : b.ZeroCrossingSettled) : b.ZeroCrossingRecorded :=
  ⟨h.1, h.2.1, fun hz => ⟨by rw [h.2.2.1, hz, msbClkOf, Bool.and_false],
    by rw [h.2.2.2, h.2.1, hz, ptmC1Of, zxFfClkOf, Bool.and_false]⟩⟩

/-- Setting lsb to 0 lowers the four zero-crossing lines and announces those that were high (R121 to R129). -/
theorem setLsb_zero {s : State} (h : s.toBlock.ZeroCrossingRecorded) :
    (setLsb 0#7 s).lines = { s.lines with zx := false, zxFfClk := false, msbClk := false, ptmC1 := false }
      ∧ (setLsb 0#7 s).outputs = s.outputs ++ strobeEvents s := by
  obtain ⟨h1, h2, h3⟩ := h
  have z0 : zxOf 0#7 = false := by decide
  cases hz : s.lines.zx with
  | false =>
    obtain ⟨h3, h4⟩ := h3 hz
    have hl : s.lines = { s.lines with zx := false, zxFfClk := false, msbClk := false, ptmC1 := false } := by
      apply Lines.eq_of_fields
      simp [h2, h3, h4, hz]
    have he : strobeEvents s = [] := by simp [strobeEvents, hz]
    rw [he, List.append_nil, ← hl]
    unfold setLsb
    split
    · simp
    · simp [z0, setZx, hz]
  | true =>
    have hne : ¬(0#7 = s.seq.lsb) := fun e => by rw [← e, z0, hz] at h1; simp at h1
    simp only [setLsb, if_neg hne, z0, setZx, State.onSeq_lines, hz, Bool.false_eq_true, if_false]
    constructor
    · simp [updateZxFfClk, zxFfClkOf, msbClkOf, ptmC1Of]
    · simp [updateZxFfClk, zxFfClkOf, updatePtmC1_outputs, ptmC1Of, strobeEvents, hz]
      cases s.lines.ptmC1 <;> simp

/-- A strobe with the zero-crossing lines recorded, the permission settled and the strobe line high (R134). It does
not ask that gzx, upper_load and the permission follow the flip-flop: a run fall strobes after clearing it (R143). -/
theorem strobe_settled {s : State} (hz : s.toBlock.ZeroCrossingRecorded) (hr : s.lines.notRstb = true)
    (hp : PermissionSettled s) :
    strobe s = { s with seq := s.seq.afterStrobe s.pins.ws, eg := s.eg.afterStrobe s.lines.notEload,
                        lines := s.lines.afterStrobe, outputs := s.outputs ++ strobeEvents s } := by
  obtain ⟨a, ha⟩ : ∃ a, a = s.onSeq fun q => { q with newAddr := true } := ⟨_, rfl⟩
  have pa : PermissionSettled a := ha ▸ ⟨hp.permit, hp.applied, hp.derived⟩
  obtain ⟨p1, p2⟩ := setNotRstb_pulse (s := a) (by simpa [ha] using hr) pa
  obtain ⟨b, hb⟩ : ∃ b, b = setNotRstb true (setNotRstb false a) := ⟨_, rfl⟩
  have fb := setNotRstb_frame true (setNotRstb false a)
  rw [← hb] at p1 p2 fb
  have la : a.lines = s.lines ∧ a.eg = s.eg ∧ a.outputs = s.outputs ∧ a.ptm = s.ptm ∧ a.pins = s.pins
      ∧ a.seq = { s.seq with newAddr := true } := by simp [ha]
  obtain ⟨l1, l2, l3, l4, l5, l6⟩ := la
  rw [l1] at p1 p2
  rw [l2] at p2
  have hl : b.seq.lsb = s.seq.lsb := by simp [fb, l6]
  have hzb : b.toBlock.ZeroCrossingRecorded :=
    ⟨by simp [p1, hl, hz.zx], by simp [p1, hz.clk], fun h => by simpa [p1] using hz.low (by simpa [p1] using h)⟩
  obtain ⟨c1, c2⟩ := setLsb_zero hzb
  obtain ⟨d1, -⟩ := setLsb_no_rise (v := 0#7) (s := b) (.inl (by decide))
  have hs : strobe s = setMsb (msbLoadValue (setLsb 0#7 b).pins.ws) (setLsb 0#7 b) := by rw [hb, ha]; rfl
  rw [hs]
  refine State.eq_of_fields (Block.eq_of_groups ?_ ?_ ?_ ?_ ?_ ?_ ?_ ?_) ?_ ?_ ?_ ?_ ?_
  · simp [fb, ha]
  · apply Sequencer.eq_of_fields
    simp [Sequencer.afterStrobe, fb, l5, l6]
  · simp [d1, p2, EnvGen.afterStrobe]
  · simp [fb, ha]
  · apply Lines.eq_of_fields
    simp [c1, p1, Lines.afterStrobe]
  · simp [fb, ha]
  · simp [fb, ha]
  · simp [fb, ha]
  · simp [fb, ha]
  · simp [fb, ha]
  · simp [c2, fb, l3, strobeEvents, p1]
  · simp [fb, ha]
  · simp [fb, ha]

/-! ### An advance, whole -/

/-- Applying the direction in force changes nothing once the derived values are current. -/
theorem EnvGen.withDir_self {e : EnvGen} {d : EnvDir} (h : e.Derived) (hd : e.envDir = d) : e.withDir d = e := by
  obtain ⟨h1, h2⟩ := h
  apply EnvGen.eq_of_fields
  simp [EnvGen.withDir, ← hd, h1, h2]

theorem updateGzx_eg {s : State} (h : PermissionSettled s) :
    (updateGzx s).eg
      = if (updateGzx s).lines.permitEload then s.eg.withDir s.eg.envDirCtrl else s.eg := by
  have hself : s.lines.permitEload = true → s.eg.withDir s.eg.envDirCtrl = s.eg := fun hp =>
    EnvGen.withDir_self h.derived (h.applied hp)
  unfold updateGzx setGzx
  split
  · split <;> simp_all
  · unfold applyEnvDirIfPermitted
    split
    · rename_i hp
      rw [applyEnvDir_of_derived (by simpa using h.derived)]
      simp_all
    · simp_all

/-- After lsb is set, the direction is the control latch's exactly when the permission is asserted (R145). -/
theorem setLsb_eg {v : BitVec 7} {s : State} (h : PermissionSettled s) :
    (setLsb v s).eg
      = if (setLsb v s).lines.permitEload then s.eg.withDir s.eg.envDirCtrl else s.eg := by
  have hself : ∀ u : State, u.lines.permitEload = s.lines.permitEload → u.eg = s.eg →
      u.eg = if u.lines.permitEload then s.eg.withDir s.eg.envDirCtrl else s.eg := by
    intro u hp he
    split
    · rename_i hq
      rw [he, EnvGen.withDir_self h.derived (h.applied (hp ▸ hq))]
    · exact he
  unfold setLsb
  split
  · exact hself _ rfl rfl
  · unfold setZx
    split
    · exact hself _ rfl rfl
    · simp only [updateZxFfClk, updatePtmC1_frame]
      unfold setZxFfClk
      split
      · exact hself _ (by simp) (by simp)
      · dsimp only
        split
        · rw [updateGzx_eg ⟨by simpa [setZxFf_eq] using h.permit, by simpa [setZxFf_eq] using h.applied,
            by simpa [setZxFf_eq] using h.derived⟩]
          simp [setZxFf_eq]
        · exact hself _ (by simp) (by simp)

/-- The flip-flop's value after lsb is set to `v`: a rise of bit 6 while run latches the timer's output 1 (R125). -/
def State.nextZxFf (s : State) (v : BitVec 7) : Bool :=
  if zxOf v && !zxOf s.seq.lsb && s.lines.run then s.ptm.o1 else s.lines.zxFf

/-- The lines after lsb is set to `v`: the zero-crossing lines follow lsb, the gates follow the flip-flop. -/
def State.linesAfterLsb (s : State) (v : BitVec 7) : Lines :=
  { s.lines with
    zx := zxOf v, zxFfClk := zxOf v, msbClk := !s.lines.notLoad && zxOf v, ptmC1 := !s.lines.notLoad && zxOf v
    zxFf := s.nextZxFf v, gzx := s.nextZxFf v, upperLoad := s.nextZxFf v
    permitEload := s.nextZxFf v && !s.lines.notEload }

/-- Setting lsb in a settled state, whole (R121 to R129, R145 to R147). -/
theorem setLsb_eq {v : BitVec 7} {s : State} (hz : s.toBlock.ZeroCrossingSettled)
    (hg : s.toBlock.GatesSettled) (hp : PermissionSettled s) :
    setLsb v s = { s with
      seq := { s.seq with
        lsb := v, msb := if zxOf v = zxOf s.seq.lsb then s.seq.msb else crossingMsb (zxOf v) s }
      eg := if s.nextZxFf v && !s.lines.notEload then s.eg.withDir s.eg.envDirCtrl else s.eg
      lines := s.linesAfterLsb v
      outputs := s.outputs ++ (if zxOf v = zxOf s.seq.lsb then [] else crossingEvents (zxOf v) s) } := by
  obtain ⟨c1, c2, c3, c4, c5, c6, c7, c8, c9⟩ := setLsb_settled (v := v) hz hg
  have hk := (setLsb_keeps_permission (v := v) hp).permit
  have he := setLsb_eg (v := v) hp
  have hff : (setLsb v s).lines.zxFf = s.nextZxFf v := c5
  rw [hff] at c6
  rw [c6] at c7 hk
  refine State.eq_of_fields (Block.eq_of_groups ?_ ?_ ?_ ?_ ?_ ?_ ?_ ?_) ?_ ?_ ?_ ?_ ?_
  · simp
  · apply Sequencer.eq_of_fields
    simp [c8]
  · rw [he, hk]
    simp [permitEloadOf]
  · simp
  · apply Lines.eq_of_fields
    simp [c1, c2, c3, c4, hff, c6, c7, hk, State.linesAfterLsb, permitEloadOf, zxFfClkOf, msbClkOf, ptmC1Of, hg.1]
  · simp
  · simp
  · simp
  · simp
  · simp
  · simp [c9]
  · simp
  · simp

/-- An advance in a settled state, whole (R120). -/
theorem advance_eq {s : State} (hz : s.toBlock.ZeroCrossingSettled) (hg : s.toBlock.GatesSettled)
    (hp : PermissionSettled s) :
    advance s = { s with
      seq := { s.seq with
        lsb := s.seq.lsb + 1
        msb := if zxOf (s.seq.lsb + 1) = zxOf s.seq.lsb then s.seq.msb
               else crossingMsb (zxOf (s.seq.lsb + 1)) s }
      eg := if s.nextZxFf (s.seq.lsb + 1) && !s.lines.notEload then s.eg.withDir s.eg.envDirCtrl else s.eg
      lines := s.linesAfterLsb (s.seq.lsb + 1)
      outputs := s.outputs ++ (if zxOf (s.seq.lsb + 1) = zxOf s.seq.lsb then []
                               else crossingEvents (zxOf (s.seq.lsb + 1)) s) } :=
  setLsb_eq hz hg hp

/-- The permission and the envelope's derived values are settled in a quiescent block (R51). -/
theorem PermissionSettled.of_quiescent {s : State} (h : s.toBlock.Quiescent) : PermissionSettled s :=
  ⟨h.2.1.2.2.2, h.2.2.1.2.2.2, h.2.2.1.1, h.2.2.1.2.1⟩

end Sys2Proof.Machine
end

