-- ==== Sys2Proof/Laws/ControlPins.lean ====
section
/-! SUPPORT. The whole effect of an envelope clock, of a direction select and of each pin change. -/

namespace Sys2Proof.Machine

/-! ### The composite envelope clock -/

/-- One effective clock is the setter's replacement with the stepped value (R114). -/
theorem EnvGen.afterClock_eq (e : EnvGen) : e.afterClock = e.withEnv (envStep e.envDir e.env) := by
  cases h : e.envDir <;> simp [EnvGen.afterClock, EnvGen.withEnv, envStep, h]

/-- The envelope generator after the composite clock takes a level: a rise with tri clear clocks it once (R114,
R116). -/
def EnvGen.afterEnvClk (e : EnvGen) (clk : Bool) : EnvGen :=
  if clk && !e.envClk && !e.tri then { e with envClk := clk }.afterClock else { e with envClk := clk }

/-- The events of the composite clock's new level: TRI_OUT when the latch output changes (R113). -/
def EnvGen.clockEvents (e : EnvGen) (clk : Bool) : List OutEvent :=
  if clk && !e.envClk && !e.tri && e.afterClock.tri != e.triOut then [.triOut e.afterClock.tri] else []

/-- The composite clock takes a level, whole (R116). -/
theorem setEnvClk_eq (v : Bool) (s : State) :
    setEnvClk v s = { s with eg := s.eg.afterEnvClk v, outputs := s.outputs ++ s.eg.clockEvents v } := by
  by_cases h : v = s.eg.envClk
  · have h1 : s.eg.afterEnvClk v = s.eg := by cases v <;> simp [EnvGen.afterEnvClk, ← h] <;> simp [h]
    have h2 : s.eg.clockEvents v = [] := by cases v <;> simp [EnvGen.clockEvents, ← h]
    simp [setEnvClk, h1, h2, if_pos h]
  · cases v with
    | false =>
      simp only [setEnvClk, if_neg h]
      simp [EnvGen.afterEnvClk, EnvGen.clockEvents, State.onEg]
    | true =>
      have hc : s.eg.envClk = false := by simpa using Ne.symm h
      cases ht : s.eg.tri with
      | true =>
        simp only [setEnvClk, if_neg h]
        rw [if_pos trivial, clockEnvelope_of_tri (by simpa using ht)]
        simp [EnvGen.afterEnvClk, EnvGen.clockEvents, State.onEg, ht]
      | false =>
        have hr : (s.onEg fun e => { e with envClk := true }).eg.tri = false := by simpa using ht
        simp only [setEnvClk, if_neg h]
        rw [if_pos trivial]
        refine State.eq_of_fields (Block.eq_of_groups ?_ ?_ ?_ ?_ ?_ ?_ ?_ ?_) ?_ ?_ ?_ ?_ ?_
        · simp
        · simp
        · rw [clockEnvelope_eg_of_running hr]
          simp [EnvGen.afterEnvClk, hc, ht, EnvGen.afterClock_eq]
        · simp
        · simp
        · simp
        · simp
        · simp
        · simp
        · simp
        · rw [clockEnvelope_outputs_of_running hr]
          simp [EnvGen.clockEvents, hc, ht, EnvGen.afterClock_eq, EnvGen.withEnv, triEvents]
          congr 1
          exact propext eq_comm
        · simp
        · simp

/-- The recompute of the composite clock, whole (R115). -/
theorem updateEnvClk_eq (s : State) :
    updateEnvClk s = { s with
      eg := s.eg.afterEnvClk (envClkOf s.lines.notLoad s.eg.eclk s.eg.edivOut)
      outputs := s.outputs ++ s.eg.clockEvents (envClkOf s.lines.notLoad s.eg.eclk s.eg.edivOut) } :=
  setEnvClk_eq ..

/-- The formula of the composite clock as a choice (R115). -/
theorem envClkOf_eq (notLoad eclk edivOut : Bool) :
    envClkOf notLoad eclk edivOut = if notLoad then eclk else edivOut := by
  cases notLoad <;> simp [envClkOf]

/-! ### The direction -/

/-- "if permit_eload = 1: call apply_env_dir()", whole (R145, R148, R163, R164). -/
theorem applyEnvDirIfPermitted_eq {s : State} (h : s.eg.Derived) :
    applyEnvDirIfPermitted s = { s with
      eg := if s.lines.permitEload then s.eg.withDir s.eg.envDirCtrl else s.eg } := by
  unfold applyEnvDirIfPermitted
  split
  · rw [applyEnvDir_of_derived h]
    rfl
  · rfl

/-- The permission's recompute stores its formula (R147). -/
theorem updatePermitEload_eq (s : State) :
    updatePermitEload s
      = s.onLines fun l => { l with permitEload := permitEloadOf l.gzx l.notEload } := by
  unfold updatePermitEload
  dsimp only
  split
  · rename_i h
    refine State.eq_of_fields (Block.eq_of_groups rfl rfl rfl rfl ?_ rfl rfl rfl) rfl rfl rfl rfl rfl
    apply Lines.eq_of_fields
    simp [h]
  · rfl

/-! ### The strobe check -/

/-- With the pulser's memory out of date, the check strobes once (R133, R134). -/
theorem checkRstb_eq {s : State} (hx : s.lines.rstbX = !rstbXOf s.lines.run s.lines.notLoad)
    (hz : s.toBlock.ZeroCrossingRecorded) (hr : s.lines.notRstb = true) (hp : PermissionSettled s) :
    checkRstb s = { s with
      seq := s.seq.afterStrobe s.pins.ws
      eg := s.eg.afterStrobe s.lines.notEload
      lines := { s.lines.afterStrobe with rstbX := rstbXOf s.lines.run s.lines.notLoad }
      outputs := s.outputs ++ strobeEvents s } := by
  rw [checkRstb_of_change (by simp [hx])]
  exact strobe_settled (s := s.onLines fun l => { l with rstbX := rstbXOf s.lines.run s.lines.notLoad })
    ⟨hz.zx, hz.clk, hz.low⟩ hr
    ⟨hp.permit, hp.applied, hp.derived⟩

/-! ### Pins -/

/-- Reprogramming the timer writes no field (R151). -/
@[simp] theorem reprogramIfRunning_frame (s : State) :
    (reprogramIfRunning s).toBlock = s.toBlock ∧ (reprogramIfRunning s).inputs = s.inputs
      ∧ (reprogramIfRunning s).carried = s.carried ∧ (reprogramIfRunning s).result = s.result
      ∧ (reprogramIfRunning s).draws = s.draws
      ∧ (reprogramIfRunning s).outputs
        = s.outputs ++ (if s.lines.run then [.timerReprogram s.pins.pitch s.pins.octave] else []) := by
  unfold reprogramIfRunning
  split <;> simp

/-- The three gate lines, whole (R143). -/
theorem driveGates_eq (v : Bool) (s : State) :
    driveGates v s = { s with
      ptm := { s.ptm with gate1 := v, gate2 := v, gate3 := v }
      outputs := s.outputs ++ [.ptmGate .gate1 v, .ptmGate .gate2 v, .ptmGate .gate3 v] } := by
  simp [driveGates, State.emit, State.onPtm]

/-- run's own effects on a rise (R143). -/
theorem startRun_eq (s : State) :
    startRun s = { s with
      ptm := { s.ptm with sampleTimerEnabled := true, gate1 := false, gate2 := false, gate3 := false }
      outputs := s.outputs ++ [.timerStart s.pins.pitch s.pins.octave, .ptmGate .gate1 false,
        .ptmGate .gate2 false, .ptmGate .gate3 false] } := by
  simp [startRun, driveGates_eq, State.emit, State.onPtm]

/-- The neutral byte gives the silent sample, whatever the envelope and the volume (R131, R143). -/
theorem sampleOf_neutral (env vol : Byte) : sampleOf 0x80#8 env vol = 0#16 := by
  simp [sampleOf, asr]

/-- run's own effects on a fall (R143). -/
theorem stopRun_eq (s : State) :
    stopRun s = { s with
      seq := { s.seq with waveByte := 0x80#8, currentSample := 0#16 }
      lines := { s.lines with zxFf := false }
      ptm := { s.ptm with sampleTimerEnabled := false, gate1 := true, gate2 := true, gate3 := true }
      outputs := s.outputs ++ [.timerStop, .ptmGate .gate1 true, .ptmGate .gate2 true, .ptmGate .gate3 true] } := by
  simp [stopRun, driveGates_eq, setZxFf_eq, updateSample, sampleOf_neutral, State.emit, State.onPtm, State.onSeq,
    State.onLines]

/-- A run rise in a quiescent state, whole (R143). -/
theorem setRun_rise {s : State} (h : s.toBlock.Quiescent) (hr : s.lines.run = false) :
    setRun true s = { s with
      seq := s.seq.afterStrobe s.pins.ws
      eg := s.eg.afterStrobe s.lines.notEload
      lines := { s.lines.afterStrobe with run := true, rstbX := !s.lines.rstbX }
      ptm := { s.ptm with sampleTimerEnabled := true, gate1 := false, gate2 := false, gate3 := false }
      outputs := s.outputs ++ [.timerStart s.pins.pitch s.pins.octave, .ptmGate .gate1 false,
        .ptmGate .gate2 false, .ptmGate .gate3 false] ++ strobeEvents s } := by
  have hp := PermissionSettled.of_quiescent h
  have hz := Block.ZeroCrossingRecorded.of_settled h.1
  obtain ⟨-, hg, -, hx, -⟩ := h
  have hx' : s.lines.rstbX = !s.lines.notLoad := by simpa [rstbXOf, hr] using hx
  rw [setRun, if_neg (by simp [hr])]
  simp only [if_pos trivial, startRun_eq]
  rw [checkRstb_eq (by simp [hx', rstbXOf]) ⟨by simpa using hz.zx, by simpa using hz.clk, by simpa using hz.low⟩ (by simpa using hg.1)
    ⟨by simpa using hp.permit, by simpa using hp.applied, by simpa using hp.derived⟩]
  simp [Lines.afterStrobe, State.onLines, strobeEvents, rstbXOf, hx']

/-- A run fall in a quiescent state, whole (R143). -/
theorem setRun_fall {s : State} (h : s.toBlock.Quiescent) (hr : s.lines.run = true) :
    setRun false s = { s with
      seq := { s.seq.afterStrobe s.pins.ws with waveByte := 0x80#8, currentSample := 0#16 }
      eg := s.eg.afterStrobe s.lines.notEload
      lines := { { s.lines with run := false, zxFf := false }.afterStrobe with rstbX := !s.lines.rstbX }
      ptm := { s.ptm with sampleTimerEnabled := false, gate1 := true, gate2 := true, gate3 := true }
      outputs := s.outputs ++ [.timerStop, .ptmGate .gate1 true, .ptmGate .gate2 true, .ptmGate .gate3 true]
        ++ strobeEvents s } := by
  have hp := PermissionSettled.of_quiescent h
  have hz := Block.ZeroCrossingRecorded.of_settled h.1
  obtain ⟨-, hg, -, hx, -⟩ := h
  have hx' : s.lines.rstbX = s.lines.notLoad := by simpa [rstbXOf, hr] using hx
  rw [setRun, if_neg (by simp [hr])]
  simp only [Bool.false_eq_true, if_false, stopRun_eq]
  rw [checkRstb_eq (by simp [hx', rstbXOf]) ⟨by simpa using hz.zx, by simpa using hz.clk, by simpa using hz.low⟩ (by simpa using hg.1)
    ⟨by simpa using hp.permit, by simpa using hp.applied, by simpa using hp.derived⟩]
  simp [Lines.afterStrobe, State.onLines, strobeEvents, rstbXOf, hx', Sequencer.afterStrobe]

/-- The envelope-load pin in a quiescent state, whole (R148). -/
theorem setNotEload_eq {s : State} (v : Bool) (h : s.toBlock.Quiescent) :
    setNotEload v s = { s with
      lines := { s.lines with notEload := v, permitEload := s.lines.gzx && !v }
      eg := if s.lines.gzx && !v then s.eg.withDir s.eg.envDirCtrl else s.eg } := by
  have hp := PermissionSettled.of_quiescent h
  unfold setNotEload
  split
  · rename_i hv
    have hm : s.lines.permitEload = (s.lines.gzx && !v) := by rw [hp.permit, hv, permitEloadOf]
    refine State.eq_of_fields (Block.eq_of_groups rfl rfl ?_ rfl ?_ rfl rfl rfl) rfl rfl rfl rfl rfl
    · split
      · rename_i ht
        exact (EnvGen.withDir_self hp.derived (hp.applied (hm ▸ ht))).symm
      · rfl
    · apply Lines.eq_of_fields
      rw [← hm]
      simp [hv]
  · rw [updatePermitEload_eq, applyEnvDirIfPermitted_eq (by simpa using hp.derived)]
    rfl

/-- A direction select in a quiescent state, whole (R163, R164). -/
theorem permitted_select_eq {s : State} (d : EnvDir) (h : s.eg.Derived) :
    applyEnvDirIfPermitted (s.onEg fun e => { e with envDirCtrl := d }) = { s with
      eg := if s.lines.permitEload then { s.eg with envDirCtrl := d }.withDir d
            else { s.eg with envDirCtrl := d } } := by
  rw [applyEnvDirIfPermitted_eq (by exact h)]
  rfl

/-- A change of the load pin in a quiescent state, whole (R142). -/
theorem setNotLoad_change {v : Bool} {s : State} (h : s.toBlock.Quiescent) (hv : v ≠ s.lines.notLoad) :
    setNotLoad v s = { s with
      seq := s.seq.afterStrobe s.pins.ws
      eg := (s.eg.afterStrobe s.lines.notEload).afterEnvClk (envClkOf v s.eg.eclk s.eg.edivOut)
      lines := { s.lines.afterStrobe with notLoad := v, rstbX := !s.lines.rstbX }
      outputs := s.outputs ++ strobeEvents s
        ++ (s.eg.afterStrobe s.lines.notEload).clockEvents (envClkOf v s.eg.eclk s.eg.edivOut) } := by
  have hp := PermissionSettled.of_quiescent h
  have hz := Block.ZeroCrossingRecorded.of_settled h.1
  obtain ⟨-, hg, -, hx, -⟩ := h
  have hx' : s.lines.rstbX = !rstbXOf s.lines.run v := by
    rw [hx]
    cases v <;> simp_all [rstbXOf]
  rw [setNotLoad, if_neg hv, checkRstb_eq (by simpa using hx')
    ⟨by simpa using hz.zx, by simpa using hz.clk, by simpa using hz.low⟩ (by simpa using hg.1)
    ⟨by simpa using hp.permit, by simpa using hp.applied, by simpa using hp.derived⟩]
  have hc : ∀ t : State, t.lines.zxFfClk = false → t.lines.ptmC1 = false → updatePtmC1 t = t := by
    intro t h1 h2
    simp [updatePtmC1, ptmC1Of, h1, h2]
  rw [hc _ rfl rfl, updateEnvClk_eq]
  have he : ∀ (e : EnvGen) (b : Bool), (e.afterStrobe b).eclk = e.eclk ∧ (e.afterStrobe b).edivOut = e.edivOut := by
    intro e b
    cases b <;> simp [EnvGen.afterStrobe]
  simp [Lines.afterStrobe, State.onLines, strobeEvents, hx', he]

end Sys2Proof.Machine
end

