-- ==== Sys2Proof/Laws/BusInterface.lean ====
section
/-! SUPPORT. The frame of each bus access and of each pin setter, in any state. -/

namespace Sys2Proof.Machine

/-- A data port write stores one byte and advances: the frame beside the byte (R161). -/
@[simp] theorem waveWrite_frame (s : State) (v : Byte) :
    (s.waveWrite v).ram = s.ram.write s.addr v ∧ (s.waveWrite v).seq = s.seq ∧ (s.waveWrite v).eg = s.eg
      ∧ (s.waveWrite v).latches = s.latches ∧ (s.waveWrite v).lines = s.lines ∧ (s.waveWrite v).pins = s.pins
      ∧ (s.waveWrite v).ptm = s.ptm ∧ (s.waveWrite v).irq = s.irq ∧ (s.waveWrite v).inputs = s.inputs
      ∧ (s.waveWrite v).carried = s.carried ∧ (s.waveWrite v).outputs = s.outputs
      ∧ (s.waveWrite v).result = s.result ∧ (s.waveWrite v).draws = s.draws := by
  simp [State.waveWrite]

/-- A data port read reaches what a zero crossing reaches, and new_addr (R162). -/
@[simp] theorem afterWaveRead_frame (s : State) :
    ChainFrame s (afterWaveRead s) ∧ (afterWaveRead s).lines.rstbX = s.lines.rstbX
      ∧ (afterWaveRead s).lines.notRstb = s.lines.notRstb := by
  unfold afterWaveRead
  split <;> simp

/-- A direction select writes the control latch, and the direction with the selector and tri (R163, R164). -/
@[simp] theorem selectDirection_frame (d : EnvDir) (s : State) :
    EnvelopeFrame s (selectDirection d s) ∧ (selectDirection d s).outputs = s.outputs
      ∧ DirectionFrame { s.eg with envDirCtrl := d } (selectDirection d s).eg := by
  simp [selectDirection]

/-- A sample tick reaches what a zero crossing reaches, the wave byte and the sample (R130). -/
@[simp] theorem sampleTick_frame (s : State) :
    (sampleTick s).ram = s.ram ∧ (sampleTick s).seq.newAddr = s.seq.newAddr
      ∧ DirectionFrame s.eg (sampleTick s).eg ∧ (sampleTick s).latches = s.latches
      ∧ (sampleTick s).lines.run = s.lines.run ∧ (sampleTick s).lines.notLoad = s.lines.notLoad
      ∧ (sampleTick s).lines.notWpe = s.lines.notWpe ∧ (sampleTick s).lines.notEload = s.lines.notEload
      ∧ (sampleTick s).pins = s.pins ∧ (sampleTick s).ptm = s.ptm ∧ (sampleTick s).irq = s.irq
      ∧ (sampleTick s).inputs = s.inputs ∧ (sampleTick s).carried = s.carried
      ∧ (sampleTick s).result = s.result ∧ (sampleTick s).draws = s.draws
      ∧ (sampleTick s).lines.rstbX = s.lines.rstbX ∧ (sampleTick s).lines.notRstb = s.lines.notRstb := by
  simp [sampleTick, updateSample]

/-- A run change reaches what a strobe reaches, and the gates, the timer's enable and the sample path (R143). -/
@[simp] theorem setRun_frame (v : Bool) (s : State) :
    (setRun v s).ram = s.ram ∧ DirectionFrame s.eg (setRun v s).eg ∧ (setRun v s).latches = s.latches
      ∧ (setRun v s).lines.run = v ∧ (setRun v s).lines.notLoad = s.lines.notLoad
      ∧ (setRun v s).lines.notWpe = s.lines.notWpe ∧ (setRun v s).lines.notEload = s.lines.notEload
      ∧ (setRun v s).pins = s.pins ∧ (setRun v s).ptm.o1 = s.ptm.o1 ∧ (setRun v s).ptm.o2 = s.ptm.o2
      ∧ (setRun v s).ptm.o3 = s.ptm.o3 ∧ (setRun v s).irq = s.irq ∧ (setRun v s).inputs = s.inputs
      ∧ (setRun v s).carried = s.carried ∧ (setRun v s).result = s.result
      ∧ (setRun v s).draws = s.draws := by
  unfold setRun
  split
  · simp_all
  · cases v <;> simp [startRun_eq, stopRun_eq]

/-- A load pin change reaches what a strobe reaches, and the composite envelope clock (R142). -/
@[simp] theorem setNotLoad_frame (v : Bool) (s : State) :
    (setNotLoad v s).ram = s.ram ∧ (setNotLoad v s).seq.waveByte = s.seq.waveByte
      ∧ (setNotLoad v s).seq.currentSample = s.seq.currentSample
      ∧ (setNotLoad v s).eg.envDirCtrl = s.eg.envDirCtrl ∧ (setNotLoad v s).eg.edivCount = s.eg.edivCount
      ∧ (setNotLoad v s).eg.edivOut = s.eg.edivOut ∧ (setNotLoad v s).eg.eclk = s.eg.eclk
      ∧ (setNotLoad v s).latches = s.latches
      ∧ (setNotLoad v s).lines.run = s.lines.run ∧ (setNotLoad v s).lines.notLoad = v
      ∧ (setNotLoad v s).lines.notWpe = s.lines.notWpe ∧ (setNotLoad v s).lines.notEload = s.lines.notEload
      ∧ (setNotLoad v s).pins = s.pins ∧ (setNotLoad v s).ptm = s.ptm ∧ (setNotLoad v s).irq = s.irq
      ∧ (setNotLoad v s).inputs = s.inputs ∧ (setNotLoad v s).carried = s.carried
      ∧ (setNotLoad v s).result = s.result ∧ (setNotLoad v s).draws = s.draws := by
  unfold setNotLoad
  split
  · simp_all
  · simp

/-- The envelope-load pin reaches the permission, and the direction with the selector and tri (R148). -/
@[simp] theorem setNotEload_frame (v : Bool) (s : State) :
    (setNotEload v s).ram = s.ram ∧ (setNotEload v s).seq = s.seq ∧ DirectionFrame s.eg (setNotEload v s).eg
      ∧ (setNotEload v s).latches = s.latches ∧ (setNotEload v s).pins = s.pins ∧ (setNotEload v s).ptm = s.ptm
      ∧ (setNotEload v s).irq = s.irq ∧ (setNotEload v s).inputs = s.inputs
      ∧ (setNotEload v s).carried = s.carried ∧ (setNotEload v s).outputs = s.outputs
      ∧ (setNotEload v s).result = s.result ∧ (setNotEload v s).draws = s.draws
      ∧ (setNotEload v s).lines.run = s.lines.run ∧ (setNotEload v s).lines.notLoad = s.lines.notLoad
      ∧ (setNotEload v s).lines.notWpe = s.lines.notWpe ∧ (setNotEload v s).lines.notEload = v := by
  unfold setNotEload
  split
  · simp_all
  · simp [updatePermitEload_eq]

/-- The write-protect pin is stored and nothing else (R149). -/
theorem setNotWpe_eq (v : Bool) (s : State) : setNotWpe v s = s.onLines fun l => { l with notWpe := v } := by
  unfold setNotWpe
  split
  · rename_i h
    subst h
    rfl
  · rfl

/-- A pitch change reaches the pitch register and the output list (R151). -/
@[simp] theorem setPitch_frame (v : Nat) (s : State) :
    (setPitch v s).toBlock = { s.toBlock with pins := { s.pins with pitch := v } }
      ∧ (setPitch v s).inputs = s.inputs ∧ (setPitch v s).carried = s.carried
      ∧ (setPitch v s).result = s.result ∧ (setPitch v s).draws = s.draws := by
  unfold setPitch
  split
  · rename_i h
    subst h
    exact ⟨rfl, rfl, rfl, rfl, rfl⟩
  · simp [State.onPins]

/-- An octave change reaches the octave register and the output list (R151). -/
@[simp] theorem setOctave_frame (v : Nat) (s : State) :
    (setOctave v s).toBlock = { s.toBlock with pins := { s.pins with octave := v } }
      ∧ (setOctave v s).inputs = s.inputs ∧ (setOctave v s).carried = s.carried
      ∧ (setOctave v s).result = s.result ∧ (setOctave v s).draws = s.draws := by
  unfold setOctave
  split
  · rename_i h
    subst h
    exact ⟨rfl, rfl, rfl, rfl, rfl⟩
  · simp [State.onPins]

end Sys2Proof.Machine
end

