-- ==== Sys2Proof/Laws/Decode.lean ====
section
/-! SUPPORT. The fields of the words the encoder builds, and when each decoding function accepts. -/

namespace Sys2Proof

/-- A value fits a width exactly when it is below 2 to the width. -/
@[simp] theorem fitsWidth_iff (v n : Nat) : fitsWidth v n = true ↔ v < 2 ^ n := by
  unfold fitsWidth
  have := Nat.two_pow_pos n
  by_cases h : v = 0 <;> simp [h]

/-- An OPEN width is at most 16, so its values fit the 16-bit payload (R82). -/
theorem lt_of_fitsWidth {v : Nat} {n : Fin 17} (h : fitsWidth v n.val = true) : v < 2 ^ 16 :=
  Nat.lt_of_lt_of_le ((fitsWidth_iff ..).1 h) (Nat.pow_le_pow_right (by decide) (by omega))

/-- The number of a bus write word (R81). -/
theorem busWriteWord_toNat {off : Nat} (h : off < 32) (d : Byte) :
    (busWriteWord off d).toNat = off * 2 ^ 24 + d.toNat := by
  have := d.isLt
  simp only [busWriteWord, BitVec.toNat_ofNat]
  omega

/-- The number of a bus read word (R81). -/
theorem busReadWord_toNat {off : Nat} (h : off < 32) : (busReadWord off).toNat = 2 ^ 30 + off * 2 ^ 24 := by
  simp only [busReadWord, BitVec.toNat_ofNat]
  omega

/-- The number of an input event word (R82). -/
theorem inputEventWord_toNat {code p : Nat} (h : code < 64) (hp : p < 2 ^ 16) :
    (inputEventWord code p).toNat = 2 * 2 ^ 30 + code * 2 ^ 24 + p := by
  simp only [inputEventWord, BitVec.toNat_ofNat]
  omega

/-- The number of a host event word (R82). -/
theorem hostEventWord_toNat {code : Nat} (h : code < 64) :
    (hostEventWord code).toNat = 3 * 2 ^ 30 + code * 2 ^ 24 := by
  simp only [hostEventWord, BitVec.toNat_ofNat]
  omega

/-- A bus write word decodes by its offset and its data byte (R81, R86). -/
theorem decode_busWriteWord {off : Nat} (h : off < 32) (d : Byte) :
    decode (busWriteWord off d) = decodeBusWrite off d := by
  have hd := d.isLt
  have hw := busWriteWord_toNat h d
  have h1 : bits (busWriteWord off d) 31 30 = 0 := by simp only [bits, hw]; omega
  have h2 : bits (busWriteWord off d) 29 29 = 0 := by simp only [bits, hw]; omega
  have h3 : bits (busWriteWord off d) 23 8 = 0 := by simp only [bits, hw]; omega
  have h4 : bits (busWriteWord off d) 28 24 = off := by simp only [bits, hw]; omega
  have h5 : bits (busWriteWord off d) 7 0 = d.toNat := by simp only [bits, hw]; omega
  simp [decode, decodeBus, h1, h2, h3, h4, h5]

/-- A bus read word decodes by its offset (R81, R86). -/
theorem decode_busReadWord {off : Nat} (h : off < 32) : decode (busReadWord off) = decodeBusRead off := by
  have hw := busReadWord_toNat h
  have h1 : bits (busReadWord off) 31 30 = 1 := by simp only [bits, hw]; omega
  have h2 : bits (busReadWord off) 29 29 = 0 := by simp only [bits, hw]; omega
  have h3 : bits (busReadWord off) 23 8 = 0 := by simp only [bits, hw]; omega
  have h4 : bits (busReadWord off) 28 24 = off := by simp only [bits, hw]; omega
  have h5 : bits (busReadWord off) 7 0 = 0 := by simp only [bits, hw]; omega
  simp [decode, decodeBus, h1, h2, h3, h4, h5]

/-- An input event word decodes by its code and payload (R82, R83). -/
theorem decode_inputEventWord {code p : Nat} (h : code < 64) (hp : p < 2 ^ 16) :
    decode (inputEventWord code p) = decodeInputEvent code p := by
  have hw := inputEventWord_toNat h hp
  have h1 : bits (inputEventWord code p) 31 30 = 2 := by simp only [bits, hw]; omega
  have h2 : bits (inputEventWord code p) 23 16 = 0 := by simp only [bits, hw]; omega
  have h3 : bits (inputEventWord code p) 29 24 = code := by simp only [bits, hw]; omega
  have h4 : bits (inputEventWord code p) 15 0 = p := by simp only [bits, hw]; omega
  simp [decode, decodeEvent, h1, h2, h3, h4]

/-- A host event word decodes by its code (R82, R84). -/
theorem decode_hostEventWord {code : Nat} (h : code < 64) :
    decode (hostEventWord code) = decodeHostEvent code 0 := by
  have hw := hostEventWord_toNat h
  have h1 : bits (hostEventWord code) 31 30 = 3 := by simp only [bits, hw]; omega
  have h2 : bits (hostEventWord code) 23 16 = 0 := by simp only [bits, hw]; omega
  have h3 : bits (hostEventWord code) 29 24 = code := by simp only [bits, hw]; omega
  have h4 : bits (hostEventWord code) 15 0 = 0 := by simp only [bits, hw]; omega
  simp [decode, decodeEvent, h1, h2, h3, h4]

/-- A one-bit payload is a level (R83). -/
@[simp] theorem levelPayload_toNat (v : Bool) (make : Bool → Instr) :
    levelPayload v.toNat make = .ok (make v) := by
  cases v <;> rfl

/-- The fields of a word name it: the class, bit 29 and the offset, the zero field and the data (R81). -/
theorem word_eq_of_bus_fields (w : Word) :
    w.toNat = bits w 31 30 * 2 ^ 30 + bits w 29 29 * 2 ^ 29 + bits w 28 24 * 2 ^ 24 + bits w 23 8 * 2 ^ 8
      + bits w 7 0 := by
  have := w.isLt
  simp only [bits]
  omega

/-- The fields of an event word name it (R82). -/
theorem word_eq_of_event_fields (w : Word) :
    w.toNat = bits w 31 30 * 2 ^ 30 + bits w 29 24 * 2 ^ 24 + bits w 23 16 * 2 ^ 16 + bits w 15 0 := by
  have := w.isLt
  simp only [bits]
  omega

/-! ### What each decoding function accepts -/

/-- A bus write offset that decodes is below 0x18, and its instruction has the write word of the offset (R86). -/
theorem decodeBusWrite_ok {off : Nat} {d : Byte} {i : Instr} (h : decodeBusWrite off d = .ok i) :
    off ≤ 0x17 ∧ i.wellFormed = true ∧ encode i = busWriteWord off d := by
  have hoff : off ≤ 0x17 := by
    by_contra hc
    have : decodeBusWrite off d = .error .offsetOutOfRange := by
      unfold decodeBusWrite
      iterate 11 rw [if_neg (by omega)]
    rw [this] at h
    simp at h
  refine ⟨hoff, ?_⟩
  interval_cases off <;> cases h <;> exact ⟨rfl, rfl⟩

/-- A bus read offset that decodes is below 0x18, and its instruction has the read word of the offset (R86). -/
theorem decodeBusRead_ok {off : Nat} {i : Instr} (h : decodeBusRead off = .ok i) :
    off ≤ 0x17 ∧ i.wellFormed = true ∧ encode i = busReadWord off := by
  have hoff : off ≤ 0x17 := by
    by_contra hc
    have : decodeBusRead off = .error .offsetOutOfRange := by
      unfold decodeBusRead
      iterate 11 rw [if_neg (by omega)]
    rw [this] at h
    simp at h
  refine ⟨hoff, ?_⟩
  interval_cases off <;> cases h <;> exact ⟨rfl, rfl⟩

/-- Every bus write offset below 0x18 decodes (R86). -/
theorem decodeBusWrite_accepts {off : Nat} (h : off ≤ 0x17) (d : Byte) : ∃ i, decodeBusWrite off d = .ok i := by
  interval_cases off <;> exact ⟨_, rfl⟩

/-- Every bus read offset below 0x18 decodes (R86). -/
theorem decodeBusRead_accepts {off : Nat} (h : off ≤ 0x17) : ∃ i, decodeBusRead off = .ok i := by
  interval_cases off <;> exact ⟨_, rfl⟩

/-- An accepted level payload is a level (R83). -/
theorem levelPayload_ok {p : Nat} {make : Bool → Instr} {i : Instr} (h : levelPayload p make = .ok i) :
    ∃ v : Bool, p = v.toNat ∧ i = make v := by
  unfold levelPayload at h
  split at h
  · rename_i hp
    cases h
    refine ⟨p == 1, ?_, rfl⟩
    interval_cases p <;> rfl
  · simp at h

/-- An accepted empty payload is 0 (R83 to R85). -/
theorem noPayload_ok {p : Nat} {i j : Instr} (h : noPayload p j = .ok i) : p = 0 ∧ i = j := by
  unfold noPayload at h
  split at h
  · rename_i hp
    cases h
    exact ⟨hp, rfl⟩
  · simp at h

/-- An accepted payload of an OPEN width fits it (R85, R151). -/
theorem widePayload_ok {p width : Nat} {make : Nat → Instr} {i : Instr} (h : widePayload p width make = .ok i) :
    fitsWidth p width = true ∧ i = make p := by
  unfold widePayload at h
  split at h
  · rename_i hp
    cases h
    exact ⟨hp, rfl⟩
  · simp at h

/-- An input event that decodes has the word of its code and payload (R82, R83). -/
theorem decodeInputEvent_ok {code p : Nat} {i : Instr} (h : decodeInputEvent code p = .ok i) :
    i.wellFormed = true ∧ encode i = inputEventWord code p := by
  unfold decodeInputEvent at h
  by_cases hc : code ≤ 0x14
  · interval_cases code
    all_goals simp only [Nat.reduceEqDiff, if_true, if_false] at h
    all_goals first
      | (simp at h; done)
      | (obtain ⟨v, rfl, rfl⟩ := levelPayload_ok h; exact ⟨rfl, rfl⟩)
      | (obtain ⟨rfl, rfl⟩ := noPayload_ok h; exact ⟨rfl, rfl⟩)
      | (obtain ⟨hf, rfl⟩ := widePayload_ok h; exact ⟨hf, rfl⟩)
      | skip
    split at h
    · rename_i hp
      cases h
      refine ⟨rfl, ?_⟩
      simp only [encode, BitVec.toNat_ofNat, Nat.mod_eq_of_lt hp]
    · simp at h
  · iterate 17 rw [if_neg (by omega)] at h
    simp at h

/-- A host event that decodes has payload 0 and the word of its code (R82, R84). -/
theorem decodeHostEvent_ok {code p : Nat} {i : Instr} (h : decodeHostEvent code p = .ok i) :
    p = 0 ∧ i.wellFormed = true ∧ encode i = hostEventWord code := by
  unfold decodeHostEvent at h
  by_cases hc : code ≤ 4
  · interval_cases code
    all_goals
      simp only [Nat.reduceEqDiff, if_true, if_false] at h
      obtain ⟨rfl, rfl⟩ := noPayload_ok h
      exact ⟨rfl, rfl, rfl⟩
  · iterate 5 rw [if_neg (by omega)] at h
    simp at h

end Sys2Proof
end

