-- ==== Sys2Proof/Laws/Memory.lean ====
section
/-! SUPPORT. The wave RAM: read after write, the rest unchanged, and the canonical form kept and unique. -/

namespace Sys2Proof.Machine

namespace Memory

theorem find_put_same (m : Memory) (a : Nat) (v : Byte) : (m.put a v).find a = some v := by
  induction m with
  | nil => simp [put, find]
  | cons c m ih =>
    unfold put
    split
    · simp [find]
    · split
      · simp [find]
      · rename_i hne
        simp [find, hne, ih]

theorem find_put_other (m : Memory) {a b : Nat} (v : Byte) (h : b ≠ a) : (m.put a v).find b = m.find b := by
  induction m with
  | nil => simp [put, find, Ne.symm h]
  | cons c m ih =>
    unfold put
    split
    · simp [find, Ne.symm h]
    · split
      · rename_i hc
        simp [find, hc, Ne.symm h]
      · simp [find, ih]

/-- Every cell of a written memory is the new one or an old one. -/
theorem mem_put {m : Memory} {a : Nat} {v : Byte} {c : Host.Cell} (h : c ∈ m.put a v) : c = (a, v) ∨ c ∈ m := by
  induction m with
  | nil => simpa [put] using h
  | cons d m ih =>
    unfold put at h
    split at h
    · simpa using h
    · split at h
      · rcases List.mem_cons.1 h with h | h
        · exact .inl h
        · exact .inr (List.mem_cons_of_mem _ h)
      · rcases List.mem_cons.1 h with h | h
        · exact .inr (h ▸ List.mem_cons_self ..)
        · exact (ih h).imp id (List.mem_cons_of_mem _)

/-- A write keeps the canonical form. -/
theorem put_wf {m : Memory} {a : Nat} (v : Byte) (ha : a < size) (h : m.wf) : (m.put a v).wf := by
  refine ⟨?_, fun c hc => (mem_put hc).elim (fun e => e ▸ ha) (h.2 c)⟩
  have hp := h.1
  clear h
  induction m with
  | nil => simp [put]
  | cons c m ih =>
    obtain ⟨hc, hm⟩ := List.pairwise_cons.1 hp
    unfold put
    split
    · rename_i hlt
      refine List.pairwise_cons.2 ⟨fun d hd => ?_, hp⟩
      rcases List.mem_cons.1 hd with rfl | hd
      · exact hlt
      · exact Nat.lt_trans hlt (hc d hd)
    · split
      · rename_i heq
        exact List.pairwise_cons.2 ⟨fun d hd => heq ▸ hc d hd, hm⟩
      · rename_i hnlt hne
        refine List.pairwise_cons.2 ⟨fun d hd => ?_, ih hm⟩
        rcases mem_put hd with rfl | hd
        · simp only; omega
        · exact hc d hd

theorem find_of_lt_all {m : Memory} {a : Nat} (h : ∀ c ∈ m, a < c.1) : m.find a = none := by
  induction m with
  | nil => rfl
  | cons c m ih =>
    have hc := h c (List.mem_cons_self ..)
    simp only [find]
    rw [if_neg (by omega)]
    exact ih fun d hd => h d (List.mem_cons_of_mem _ hd)

/-- Equal contents are equal lists: the canonical form is unique. -/
theorem eq_of_find_eq {m m' : Memory} (h : m.wf) (h' : m'.wf) (he : ∀ a, m.find a = m'.find a) : m = m' := by
  have hp := h.1
  have hp' := h'.1
  clear h h'
  induction m generalizing m' with
  | nil =>
    cases m' with
    | nil => rfl
    | cons d m' => simpa [find] using he d.1
  | cons c m ih =>
    cases m' with
    | nil => simpa [find] using he c.1
    | cons d m' =>
      obtain ⟨hc, hm⟩ := List.pairwise_cons.1 hp
      obtain ⟨hd, hm'⟩ := List.pairwise_cons.1 hp'
      have hcd : c.1 = d.1 := by
        rcases Nat.lt_trichotomy c.1 d.1 with hlt | heq | hlt
        · have hnone : find (d :: m') c.1 = none := find_of_lt_all fun e he' => by
            rcases List.mem_cons.1 he' with rfl | he'
            · exact hlt
            · exact Nat.lt_trans hlt (hd e he')
          have := he c.1
          rw [hnone] at this
          simp [find] at this
        · exact heq
        · have hnone : find (c :: m) d.1 = none := find_of_lt_all fun e he' => by
            rcases List.mem_cons.1 he' with rfl | he'
            · exact hlt
            · exact Nat.lt_trans hlt (hc e he')
          have := he d.1
          rw [hnone] at this
          simp [find] at this
      have hv : c.2 = d.2 := by
        have := he c.1
        simp [find, hcd] at this
        exact this
      have htail : m = m' := by
        refine ih (fun a => ?_) hm hm'
        by_cases ha : c.1 = a
        · subst ha
          rw [find_of_lt_all hc, find_of_lt_all (by rw [hcd]; exact hd)]
        · have := he a
          simpa [find, ha, hcd ▸ ha] using this
      obtain ⟨_, _⟩ := c
      obtain ⟨_, _⟩ := d
      simp_all

/-- Reading the byte just written gives it (R67). -/
@[simp] theorem read_write_same (m : Memory) (a : BitVec 14) (v : Byte) : (m.write a v).read a = v := by
  simp [read, write, find_put_same]

/-- A write leaves every other byte alone. -/
theorem read_write_other (m : Memory) {a b : BitVec 14} (v : Byte) (h : b ≠ a) :
    (m.write a v).read b = m.read b := by
  have : b.toNat ≠ a.toNat := fun e => h (BitVec.eq_of_toNat_eq e)
  simp [read, write, find_put_other m v this]

/-- Every wave address is inside the RAM, so a write keeps the canonical form. -/
theorem write_wf {m : Memory} (a : BitVec 14) (v : Byte) (h : m.wf) : (m.write a v).wf :=
  put_wf v a.isLt h

/-- A byte nobody has written reads as its power-on draw (R222). -/
theorem read_nil (a : BitVec 14) : Memory.read [] a = Config.initWaveRam a := rfl

/-! ### All bytes at once (R52, R184) -/

@[simp] theorem length_bytes (m : Memory) : m.bytes.length = size := by simp [bytes]

/-- The byte at each address stands at that place. -/
@[simp] theorem getElem?_bytes (m : Memory) (a : BitVec 14) : m.bytes[a.toNat]? = some (m.read a) := by
  have h : a.toNat < size := a.isLt
  simp [bytes, List.getElem?_map, List.getElem?_range' h]

theorem find_zipIdx (bs : List Byte) (k a : Nat) :
    find ((bs.zipIdx k).map fun p => (p.2, p.1)) (k + a) = bs[a]? := by
  induction bs generalizing k a with
  | nil => rfl
  | cons b bs ih =>
    cases a with
    | zero => simp [List.zipIdx_cons, find]
    | succ a => simpa [List.zipIdx_cons, find, Nat.add_assoc, Nat.add_comm 1 a] using ih (k + 1) a

/-- A loaded byte reads as the byte at its place, whatever the card held at power-on. -/
theorem read_ofBytes (bs : List Byte) (a : BitVec 14) :
    (ofBytes bs).read a = bs[a.toNat]?.getD (Config.initWaveRam a) := by
  have := find_zipIdx bs 0 a.toNat
  rw [Nat.zero_add] at this
  rw [read, ofBytes, this]

/-- Loading the bytes a memory holds gives each of them back. -/
@[simp] theorem read_ofBytes_bytes (m : Memory) (a : BitVec 14) : (ofBytes m.bytes).read a = m.read a := by
  simp [read_ofBytes]

/-- Memories that read alike hold the same bytes. -/
theorem bytes_congr {m m' : Memory} (h : ∀ a, m.read a = m'.read a) : m.bytes = m'.bytes := by
  simp [bytes, h]

/-- A memory loaded with a byte for each address holds those bytes. -/
theorem bytes_ofBytes {bs : List Byte} (h : bs.length = size) : (ofBytes bs).bytes = bs := by
  refine List.ext_getElem? fun n => ?_
  by_cases hn : n < size
  · have hlt : n < 2 ^ 14 := hn
    have := getElem?_bytes (ofBytes bs) (BitVec.ofNat 14 n)
    rw [BitVec.toNat_ofNat, Nat.mod_eq_of_lt hlt, read_ofBytes, BitVec.toNat_ofNat, Nat.mod_eq_of_lt hlt] at this
    rw [this, List.getElem?_eq_getElem (h ▸ hn), Option.getD_some]
  · rw [List.getElem?_eq_none (by rw [length_bytes]; omega), List.getElem?_eq_none (by omega)]

/-- A loaded memory is in the canonical form. -/
theorem ofBytes_wf {bs : List Byte} (h : bs.length = size) : (ofBytes bs).wf := by
  constructor
  · have := List.pairwise_lt_range' (s := 0) (n := bs.length)
    rw [← List.zipIdx_map_snd, List.pairwise_map] at this
    exact List.pairwise_map.2 this
  · intro c hc
    obtain ⟨p, hp, rfl⟩ := List.mem_map.1 hc
    have := (List.mem_zipIdx hp).2.1
    omega

end Memory

/-- The memory of the reset state is in its canonical form. -/
theorem State.reset_ram_wf : State.reset.ram.wf := by decide

end Sys2Proof.Machine
end

