-- ==== Sys2Proof/Laws/PerInstr.lean ====
section
/-! SUPPORT. Family EncodesToRow, one lemma per constructor: the word of a well-formed instruction is a word of the
row of the opcode table that the instruction stands for, with every fixed field of the row. -/

namespace Sys2Proof.Laws.EncodesToRow

/-- The word of `i` has the fixed fields of the row named by its mnemonic, and its payload fits the row's OPEN width. -/
def Statement (i : Instr) : Prop :=
  i.wellFormed = true →
    ∃ r ∈ opcodeTable, r.mnemonic = i.mnemonic ∧ r.admits (encode i) = true ∧ r.openWidthOk (encode i) = true

/-- A level is at most 1. -/
theorem level_le (v : Bool) : v.toNat ≤ 1 := by cases v <;> decide

theorem waveWr (data : Byte) : Statement (.waveWr data) := by
  intro _
  have h_data := data.isLt
  have hw := busWriteWord_toNat (off := 0x00) (by decide) data
  refine ⟨⟨"WAVE_WR", [(31, 8, 0x0)]⟩, by decide, rfl, ?_, by simp [OpcodeRow.openWidthOk]⟩
  simp only [OpcodeRow.admits, List.all_cons, List.all_nil, encode, bits, hw, Bool.and_true,
    beq_iff_eq]
  omega

theorem waveRd : Statement .waveRd := by
  intro _
  exact ⟨⟨"WAVE_RD", [(31, 0, 0x40000000)]⟩, by decide, rfl, by decide, by decide⟩

theorem envdnWr (data : Byte) : Statement (.envdnWr data) := by
  intro _
  have h_data := data.isLt
  have hw := busWriteWord_toNat (off := 0x03) (by decide) data
  refine ⟨⟨"ENVDN_WR", [(31, 8, 0x30000)]⟩, by decide, rfl, ?_, by simp [OpcodeRow.openWidthOk]⟩
  simp only [OpcodeRow.admits, List.all_cons, List.all_nil, encode, bits, hw, Bool.and_true,
    beq_iff_eq]
  omega

theorem envdnRd : Statement .envdnRd := by
  intro _
  exact ⟨⟨"ENVDN_RD", [(31, 0, 0x43000000)]⟩, by decide, rfl, by decide, by decide⟩

theorem envupWr (data : Byte) : Statement (.envupWr data) := by
  intro _
  have h_data := data.isLt
  have hw := busWriteWord_toNat (off := 0x04) (by decide) data
  refine ⟨⟨"ENVUP_WR", [(31, 8, 0x40000)]⟩, by decide, rfl, ?_, by simp [OpcodeRow.openWidthOk]⟩
  simp only [OpcodeRow.admits, List.all_cons, List.all_nil, encode, bits, hw, Bool.and_true,
    beq_iff_eq]
  omega

theorem envupRd : Statement .envupRd := by
  intro _
  exact ⟨⟨"ENVUP_RD", [(31, 0, 0x44000000)]⟩, by decide, rfl, by decide, by decide⟩

theorem volWr (data : Byte) : Statement (.volWr data) := by
  intro _
  have h_data := data.isLt
  have hw := busWriteWord_toNat (off := 0x05) (by decide) data
  refine ⟨⟨"VOL_WR", [(31, 8, 0x50000)]⟩, by decide, rfl, ?_, by simp [OpcodeRow.openWidthOk]⟩
  simp only [OpcodeRow.admits, List.all_cons, List.all_nil, encode, bits, hw, Bool.and_true,
    beq_iff_eq]
  omega

theorem volRd : Statement .volRd := by
  intro _
  exact ⟨⟨"VOL_RD", [(31, 0, 0x45000000)]⟩, by decide, rfl, by decide, by decide⟩

theorem fltWr (data : Byte) : Statement (.fltWr data) := by
  intro _
  have h_data := data.isLt
  have hw := busWriteWord_toNat (off := 0x06) (by decide) data
  refine ⟨⟨"FLT_WR", [(31, 8, 0x60000)]⟩, by decide, rfl, ?_, by simp [OpcodeRow.openWidthOk]⟩
  simp only [OpcodeRow.admits, List.all_cons, List.all_nil, encode, bits, hw, Bool.and_true,
    beq_iff_eq]
  omega

theorem fltRd : Statement .fltRd := by
  intro _
  exact ⟨⟨"FLT_RD", [(31, 0, 0x46000000)]⟩, by decide, rfl, by decide, by decide⟩

theorem pia0Wr (offLo : BitVec 2) (data : Byte) : Statement (.pia0Wr offLo data) := by
  intro _
  have h_offLo := offLo.isLt
  have h_data := data.isLt
  have hw := busWriteWord_toNat (off := 0x08 + offLo.toNat) (by omega) data
  refine ⟨⟨"PIA0_WR", [(23, 8, 0x0), (31, 26, 0x2)]⟩, by decide, rfl, ?_, by simp [OpcodeRow.openWidthOk]⟩
  simp only [OpcodeRow.admits, List.all_cons, List.all_nil, encode, bits, hw, Bool.and_true, Bool.and_eq_true,
    beq_iff_eq]
  omega

theorem pia0Rd (offLo : BitVec 2) : Statement (.pia0Rd offLo) := by
  intro _
  have h_offLo := offLo.isLt
  have hw := busReadWord_toNat (off := 0x08 + offLo.toNat) (by omega)
  refine ⟨⟨"PIA0_RD", [(23, 0, 0x0), (31, 26, 0x12)]⟩, by decide, rfl, ?_, by simp [OpcodeRow.openWidthOk]⟩
  simp only [OpcodeRow.admits, List.all_cons, List.all_nil, encode, bits, hw, Bool.and_true, Bool.and_eq_true,
    beq_iff_eq]
  omega

theorem pia1Wr (offLo : BitVec 2) (data : Byte) : Statement (.pia1Wr offLo data) := by
  intro _
  have h_offLo := offLo.isLt
  have h_data := data.isLt
  have hw := busWriteWord_toNat (off := 0x0C + offLo.toNat) (by omega) data
  refine ⟨⟨"PIA1_WR", [(23, 8, 0x0), (31, 26, 0x3)]⟩, by decide, rfl, ?_, by simp [OpcodeRow.openWidthOk]⟩
  simp only [OpcodeRow.admits, List.all_cons, List.all_nil, encode, bits, hw, Bool.and_true, Bool.and_eq_true,
    beq_iff_eq]
  omega

theorem pia1Rd (offLo : BitVec 2) : Statement (.pia1Rd offLo) := by
  intro _
  have h_offLo := offLo.isLt
  have hw := busReadWord_toNat (off := 0x0C + offLo.toNat) (by omega)
  refine ⟨⟨"PIA1_RD", [(23, 0, 0x0), (31, 26, 0x13)]⟩, by decide, rfl, ?_, by simp [OpcodeRow.openWidthOk]⟩
  simp only [OpcodeRow.admits, List.all_cons, List.all_nil, encode, bits, hw, Bool.and_true, Bool.and_eq_true,
    beq_iff_eq]
  omega

theorem ptmWr (offLo : BitVec 3) (data : Byte) : Statement (.ptmWr offLo data) := by
  intro _
  have h_offLo := offLo.isLt
  have h_data := data.isLt
  have hw := busWriteWord_toNat (off := 0x10 + offLo.toNat) (by omega) data
  refine ⟨⟨"PTM_WR", [(23, 8, 0x0), (31, 27, 0x2)]⟩, by decide, rfl, ?_, by simp [OpcodeRow.openWidthOk]⟩
  simp only [OpcodeRow.admits, List.all_cons, List.all_nil, encode, bits, hw, Bool.and_true, Bool.and_eq_true,
    beq_iff_eq]
  omega

theorem ptmRd (offLo : BitVec 3) : Statement (.ptmRd offLo) := by
  intro _
  have h_offLo := offLo.isLt
  have hw := busReadWord_toNat (off := 0x10 + offLo.toNat) (by omega)
  refine ⟨⟨"PTM_RD", [(23, 0, 0x0), (31, 27, 0xa)]⟩, by decide, rfl, ?_, by simp [OpcodeRow.openWidthOk]⟩
  simp only [OpcodeRow.admits, List.all_cons, List.all_nil, encode, bits, hw, Bool.and_true, Bool.and_eq_true,
    beq_iff_eq]
  omega

theorem unkWr1 (data : Byte) : Statement (.unkWr1 data) := by
  intro _
  have h_data := data.isLt
  have hw := busWriteWord_toNat (off := 0x01) (by decide) data
  refine ⟨⟨"UNK_WR.1", [(31, 8, 0x10000)]⟩, by decide, rfl, ?_, by simp [OpcodeRow.openWidthOk]⟩
  simp only [OpcodeRow.admits, List.all_cons, List.all_nil, encode, bits, hw, Bool.and_true,
    beq_iff_eq]
  omega

theorem unkWr2 (data : Byte) : Statement (.unkWr2 data) := by
  intro _
  have h_data := data.isLt
  have hw := busWriteWord_toNat (off := 0x02) (by decide) data
  refine ⟨⟨"UNK_WR.2", [(31, 8, 0x20000)]⟩, by decide, rfl, ?_, by simp [OpcodeRow.openWidthOk]⟩
  simp only [OpcodeRow.admits, List.all_cons, List.all_nil, encode, bits, hw, Bool.and_true,
    beq_iff_eq]
  omega

theorem unkWr7 (data : Byte) : Statement (.unkWr7 data) := by
  intro _
  have h_data := data.isLt
  have hw := busWriteWord_toNat (off := 0x07) (by decide) data
  refine ⟨⟨"UNK_WR.7", [(31, 8, 0x70000)]⟩, by decide, rfl, ?_, by simp [OpcodeRow.openWidthOk]⟩
  simp only [OpcodeRow.admits, List.all_cons, List.all_nil, encode, bits, hw, Bool.and_true,
    beq_iff_eq]
  omega

theorem unkRd1 : Statement .unkRd1 := by
  intro _
  exact ⟨⟨"UNK_RD.1", [(31, 0, 0x41000000)]⟩, by decide, rfl, by decide, by decide⟩

theorem unkRd2 : Statement .unkRd2 := by
  intro _
  exact ⟨⟨"UNK_RD.2", [(31, 0, 0x42000000)]⟩, by decide, rfl, by decide, by decide⟩

theorem unkRd7 : Statement .unkRd7 := by
  intro _
  exact ⟨⟨"UNK_RD.7", [(31, 0, 0x47000000)]⟩, by decide, rfl, by decide, by decide⟩

theorem pinRun (v : Bool) : Statement (.pinRun v) := by
  intro _
  have h_v := level_le v
  have hw := inputEventWord_toNat (code := 0x00) (p := v.toNat) (by decide) (by omega)
  refine ⟨⟨"PIN_RUN", [(31, 1, 0x40000000)]⟩, by decide, rfl, ?_, by simp [OpcodeRow.openWidthOk]⟩
  simp only [OpcodeRow.admits, List.all_cons, List.all_nil, encode, bits, hw, Bool.and_true,
    beq_iff_eq]
  omega

theorem pinNotLoad (v : Bool) : Statement (.pinNotLoad v) := by
  intro _
  have h_v := level_le v
  have hw := inputEventWord_toNat (code := 0x01) (p := v.toNat) (by decide) (by omega)
  refine ⟨⟨"PIN_NOT_LOAD", [(31, 1, 0x40800000)]⟩, by decide, rfl, ?_, by simp [OpcodeRow.openWidthOk]⟩
  simp only [OpcodeRow.admits, List.all_cons, List.all_nil, encode, bits, hw, Bool.and_true,
    beq_iff_eq]
  omega

theorem pinNotWpe (v : Bool) : Statement (.pinNotWpe v) := by
  intro _
  have h_v := level_le v
  have hw := inputEventWord_toNat (code := 0x02) (p := v.toNat) (by decide) (by omega)
  refine ⟨⟨"PIN_NOT_WPE", [(31, 1, 0x41000000)]⟩, by decide, rfl, ?_, by simp [OpcodeRow.openWidthOk]⟩
  simp only [OpcodeRow.admits, List.all_cons, List.all_nil, encode, bits, hw, Bool.and_true,
    beq_iff_eq]
  omega

theorem pinNotEload (v : Bool) : Statement (.pinNotEload v) := by
  intro _
  have h_v := level_le v
  have hw := inputEventWord_toNat (code := 0x03) (p := v.toNat) (by decide) (by omega)
  refine ⟨⟨"PIN_NOT_ELOAD", [(31, 1, 0x41800000)]⟩, by decide, rfl, ?_, by simp [OpcodeRow.openWidthOk]⟩
  simp only [OpcodeRow.admits, List.all_cons, List.all_nil, encode, bits, hw, Bool.and_true,
    beq_iff_eq]
  omega

theorem pinWs (v : BitVec 7) : Statement (.pinWs v) := by
  intro _
  have h_v := v.isLt
  have hw := inputEventWord_toNat (code := 0x04) (p := v.toNat) (by decide) (by omega)
  refine ⟨⟨"PIN_WS", [(31, 7, 0x1080000)]⟩, by decide, rfl, ?_, by simp [OpcodeRow.openWidthOk]⟩
  simp only [OpcodeRow.admits, List.all_cons, List.all_nil, encode, bits, hw, Bool.and_true,
    beq_iff_eq]
  omega

theorem pinPitch (v : Nat) : Statement (.pinPitch v) := by
  intro h
  have hv := lt_of_fitsWidth h
  have hw := inputEventWord_toNat (code := 5) (by decide) hv
  have hp : bits (encode (.pinPitch v)) 15 0 = v := by
    simp only [encode, bits, hw]
    omega
  refine ⟨⟨"PIN_PITCH", [(31, 16, 0x8500)]⟩, by decide, rfl, ?_, ?_⟩
  · simp only [OpcodeRow.admits, List.all_cons, List.all_nil, encode, bits, hw, Bool.and_true, beq_iff_eq]
    omega
  · simp only [OpcodeRow.openWidthOk, hp]
    exact h

theorem pinOctave (v : Nat) : Statement (.pinOctave v) := by
  intro h
  have hv := lt_of_fitsWidth h
  have hw := inputEventWord_toNat (code := 6) (by decide) hv
  have hp : bits (encode (.pinOctave v)) 15 0 = v := by
    simp only [encode, bits, hw]
    omega
  refine ⟨⟨"PIN_OCTAVE", [(31, 16, 0x8600)]⟩, by decide, rfl, ?_, ?_⟩
  · simp only [OpcodeRow.admits, List.all_cons, List.all_nil, encode, bits, hw, Bool.and_true, beq_iff_eq]
    omega
  · simp only [OpcodeRow.openWidthOk, hp]
    exact h

theorem eclk (v : Bool) : Statement (.eclk v) := by
  intro _
  have h_v := level_le v
  have hw := inputEventWord_toNat (code := 0x07) (p := v.toNat) (by decide) (by omega)
  refine ⟨⟨"ECLK", [(31, 1, 0x43800000)]⟩, by decide, rfl, ?_, by simp [OpcodeRow.openWidthOk]⟩
  simp only [OpcodeRow.admits, List.all_cons, List.all_nil, encode, bits, hw, Bool.and_true,
    beq_iff_eq]
  omega

theorem divTick : Statement .divTick := by
  intro _
  exact ⟨⟨"DIV_TICK", [(31, 0, 0x88000000)]⟩, by decide, rfl, by decide, by decide⟩

theorem ptmO1 (v : Bool) : Statement (.ptmO1 v) := by
  intro _
  have h_v := level_le v
  have hw := inputEventWord_toNat (code := 0x09) (p := v.toNat) (by decide) (by omega)
  refine ⟨⟨"PTM_O1", [(31, 1, 0x44800000)]⟩, by decide, rfl, ?_, by simp [OpcodeRow.openWidthOk]⟩
  simp only [OpcodeRow.admits, List.all_cons, List.all_nil, encode, bits, hw, Bool.and_true,
    beq_iff_eq]
  omega

theorem ptmO2 (v : Bool) : Statement (.ptmO2 v) := by
  intro _
  have h_v := level_le v
  have hw := inputEventWord_toNat (code := 0x0A) (p := v.toNat) (by decide) (by omega)
  refine ⟨⟨"PTM_O2", [(31, 1, 0x45000000)]⟩, by decide, rfl, ?_, by simp [OpcodeRow.openWidthOk]⟩
  simp only [OpcodeRow.admits, List.all_cons, List.all_nil, encode, bits, hw, Bool.and_true,
    beq_iff_eq]
  omega

theorem ptmO3 (v : Bool) : Statement (.ptmO3 v) := by
  intro _
  have h_v := level_le v
  have hw := inputEventWord_toNat (code := 0x0B) (p := v.toNat) (by decide) (by omega)
  refine ⟨⟨"PTM_O3", [(31, 1, 0x45800000)]⟩, by decide, rfl, ?_, by simp [OpcodeRow.openWidthOk]⟩
  simp only [OpcodeRow.admits, List.all_cons, List.all_nil, encode, bits, hw, Bool.and_true,
    beq_iff_eq]
  omega

theorem irqIn0 (v : Bool) : Statement (.irqIn0 v) := by
  intro _
  have h_v := level_le v
  have hw := inputEventWord_toNat (code := 0x10) (p := v.toNat) (by decide) (by omega)
  refine ⟨⟨"IRQ_IN0", [(31, 1, 0x48000000)]⟩, by decide, rfl, ?_, by simp [OpcodeRow.openWidthOk]⟩
  simp only [OpcodeRow.admits, List.all_cons, List.all_nil, encode, bits, hw, Bool.and_true,
    beq_iff_eq]
  omega

theorem irqIn1 (v : Bool) : Statement (.irqIn1 v) := by
  intro _
  have h_v := level_le v
  have hw := inputEventWord_toNat (code := 0x11) (p := v.toNat) (by decide) (by omega)
  refine ⟨⟨"IRQ_IN1", [(31, 1, 0x48800000)]⟩, by decide, rfl, ?_, by simp [OpcodeRow.openWidthOk]⟩
  simp only [OpcodeRow.admits, List.all_cons, List.all_nil, encode, bits, hw, Bool.and_true,
    beq_iff_eq]
  omega

theorem irqIn2 (v : Bool) : Statement (.irqIn2 v) := by
  intro _
  have h_v := level_le v
  have hw := inputEventWord_toNat (code := 0x12) (p := v.toNat) (by decide) (by omega)
  refine ⟨⟨"IRQ_IN2", [(31, 1, 0x49000000)]⟩, by decide, rfl, ?_, by simp [OpcodeRow.openWidthOk]⟩
  simp only [OpcodeRow.admits, List.all_cons, List.all_nil, encode, bits, hw, Bool.and_true,
    beq_iff_eq]
  omega

theorem irqIn3 (v : Bool) : Statement (.irqIn3 v) := by
  intro _
  have h_v := level_le v
  have hw := inputEventWord_toNat (code := 0x13) (p := v.toNat) (by decide) (by omega)
  refine ⟨⟨"IRQ_IN3", [(31, 1, 0x49800000)]⟩, by decide, rfl, ?_, by simp [OpcodeRow.openWidthOk]⟩
  simp only [OpcodeRow.admits, List.all_cons, List.all_nil, encode, bits, hw, Bool.and_true,
    beq_iff_eq]
  omega

theorem irqIn4 (v : Bool) : Statement (.irqIn4 v) := by
  intro _
  have h_v := level_le v
  have hw := inputEventWord_toNat (code := 0x14) (p := v.toNat) (by decide) (by omega)
  refine ⟨⟨"IRQ_IN4", [(31, 1, 0x4a000000)]⟩, by decide, rfl, ?_, by simp [OpcodeRow.openWidthOk]⟩
  simp only [OpcodeRow.admits, List.all_cons, List.all_nil, encode, bits, hw, Bool.and_true,
    beq_iff_eq]
  omega

theorem reset : Statement .reset := by
  intro _
  exact ⟨⟨"RESET", [(31, 0, 0xc0000000)]⟩, by decide, rfl, by decide, by decide⟩

theorem sampleTick : Statement .sampleTick := by
  intro _
  exact ⟨⟨"SAMPLE_TICK", [(31, 0, 0xc1000000)]⟩, by decide, rfl, by decide, by decide⟩

theorem pullSample : Statement .pullSample := by
  intro _
  exact ⟨⟨"PULL_SAMPLE", [(31, 0, 0xc2000000)]⟩, by decide, rfl, by decide, by decide⟩

theorem save : Statement .save := by
  intro _
  exact ⟨⟨"SAVE", [(31, 0, 0xc3000000)]⟩, by decide, rfl, by decide, by decide⟩

theorem restore : Statement .restore := by
  intro _
  exact ⟨⟨"RESTORE", [(31, 0, 0xc4000000)]⟩, by decide, rfl, by decide, by decide⟩

end Sys2Proof.Laws.EncodesToRow
end

