-- ==== Sys2Proof/Laws/SaveImage.lean ====
section
/-! SUPPORT. Reading back what an image holds, group by group, in both directions. -/

namespace Sys2Proof.Machine

/-! ### Single fields -/

@[simp] theorem takeNum_num {width n : Nat} (h : n < 2 ^ width) (rest : Image) :
    takeNum width (.num n :: rest) = some (n, rest) := by
  simp [takeNum, h]

theorem takeNum_eq_some {width n : Nat} {img rest : Image} (h : takeNum width img = some (n, rest)) :
    img = .num n :: rest ∧ n < 2 ^ width := by
  unfold takeNum at h
  split at h
  · split at h
    · rename_i hf
      simp only [Option.some.injEq, Prod.mk.injEq] at h
      exact ⟨by rw [h.1, h.2], h.1 ▸ (fitsWidth_iff ..).1 hf⟩
    · simp at h
  · simp at h

@[simp] theorem takeBits_num (width : Nat) (v : BitVec width) (rest : Image) :
    takeBits width (.num v.toNat :: rest) = some (v, rest) := by
  simp [takeBits, v.isLt]

theorem takeBits_eq_some {width : Nat} {v : BitVec width} {img rest : Image}
    (h : takeBits width img = some (v, rest)) : img = .num v.toNat :: rest := by
  simp only [takeBits, Option.bind_eq_bind, Option.bind_eq_some_iff] at h
  obtain ⟨⟨n, r⟩, h1, h2⟩ := h
  obtain ⟨h3, h4⟩ := takeNum_eq_some h1
  simp only [Option.pure_def, Option.some.injEq, Prod.mk.injEq] at h2
  rw [h3, ← h2.1, ← h2.2, BitVec.toNat_ofNat, Nat.mod_eq_of_lt h4]

@[simp] theorem takeBool_bitField (b : Bool) (rest : Image) : takeBool (bitField b :: rest) = some (b, rest) := by
  cases b <;> rfl

theorem takeBool_eq_some {b : Bool} {img rest : Image} (h : takeBool img = some (b, rest)) :
    img = bitField b :: rest := by
  simp only [takeBool, Option.bind_eq_bind, Option.bind_eq_some_iff] at h
  obtain ⟨⟨n, r⟩, h1, h2⟩ := h
  obtain ⟨h3, h4⟩ := takeNum_eq_some h1
  simp only [Option.pure_def, Option.some.injEq, Prod.mk.injEq] at h2
  rw [h3, ← h2.1, ← h2.2]
  have : n = 0 ∨ n = 1 := by omega
  rcases this with rfl | rfl <;> rfl

@[simp] theorem takeDir_num (d : EnvDir) (rest : Image) : takeDir (.num d.toNat :: rest) = some (d, rest) := by
  cases d <;> rfl

theorem takeDir_eq_some {d : EnvDir} {img rest : Image} (h : takeDir img = some (d, rest)) :
    img = .num d.toNat :: rest := by
  simp only [takeDir, Option.bind_eq_bind, Option.bind_eq_some_iff] at h
  obtain ⟨⟨b, r⟩, h1, h2⟩ := h
  simp only [Option.pure_def, Option.some.injEq, Prod.mk.injEq] at h2
  rw [takeBool_eq_some h1, ← h2.1, ← h2.2]
  cases b <;> rfl

@[simp] theorem takeRam_bytes (m : Memory) (rest : Image) :
    takeRam (.ram m.bytes :: rest) = some (Memory.ofBytes m.bytes, rest) := by
  simp [takeRam]

theorem takeRam_eq_some {m : Memory} {img rest : Image} (h : takeRam img = some (m, rest)) :
    img = .ram m.bytes :: rest ∧ m.wf ∧ Memory.ofBytes m.bytes = m := by
  unfold takeRam at h
  split at h
  · split at h
    · rename_i hl
      simp only [Option.some.injEq, Prod.mk.injEq] at h
      obtain ⟨rfl, rfl⟩ := h
      exact ⟨by rw [Memory.bytes_ofBytes hl], Memory.ofBytes_wf hl, by rw [Memory.bytes_ofBytes hl]⟩
    · simp at h
  · simp at h

/-! ### Groups: reading back the fields written -/

@[simp] theorem Sequencer.take_fields (q : Sequencer) (rest : Image) :
    Sequencer.take (q.fields ++ rest) = some (q, rest) := by
  simp [Sequencer.take, Sequencer.fields]

@[simp] theorem EnvGen.take_fields (e : EnvGen) (rest : Image) : EnvGen.take (e.fields ++ rest) = some (e, rest) := by
  simp [EnvGen.take, EnvGen.fields]

@[simp] theorem Latches.take_fields (l : Latches) (rest : Image) :
    Latches.take (l.fields ++ rest) = some (l, rest) := by
  simp [Latches.take, Latches.fields]

@[simp] theorem Lines.take_fields (l : Lines) (rest : Image) : Lines.take (l.fields ++ rest) = some (l, rest) := by
  have hb (b : Bool) (r : Image) (f : Bool × Image → Option (Lines × Image)) (x : Option (Lines × Image))
      (h : f (b, r) = x) : (takeBool (bitField b :: r) >>= f) = x := by
    rw [takeBool_bitField]
    exact h
  unfold Lines.take Lines.fields
  iterate 14 apply hb
  rfl

theorem PinRegs.take_fields {p : PinRegs} (hp : fitsWidth p.pitch Config.pitchBits.val = true)
    (ho : fitsWidth p.octave Config.octaveBits.val = true) (rest : Image) :
    PinRegs.take (p.fields ++ rest) = some (p, rest) := by
  simp [PinRegs.take, PinRegs.fields, (fitsWidth_iff ..).1 hp, (fitsWidth_iff ..).1 ho]

@[simp] theorem PtmLines.take_fields (p : PtmLines) (rest : Image) :
    PtmLines.take (p.fields ++ rest) = some (p, rest) := by
  simp [PtmLines.take, PtmLines.fields]

@[simp] theorem IrqLines.take_fields (q : IrqLines) (rest : Image) :
    IrqLines.take (q.fields ++ rest) = some (q, rest) := by
  simp [IrqLines.take, IrqLines.fields]

/-- A well-typed block's image reads back as the block, with every wave RAM byte a written one (R183, R184). -/
theorem Block.ofImage?_image {b : Block} (h : b.WellTyped) :
    Block.ofImage? b.image = some { b with ram := Memory.ofBytes b.ram.bytes } := by
  have hi := IrqLines.take_fields b.irq []
  simp only [List.append_nil] at hi
  simp [Block.ofImage?, Block.image, PinRegs.take_fields h.pitch h.octave, hi]

/-! ### Groups: what was read is what stands there -/

theorem Sequencer.take_eq_some {q : Sequencer} {img rest : Image} (h : Sequencer.take img = some (q, rest)) :
    img = q.fields ++ rest := by
  simp only [Sequencer.take, Option.bind_eq_bind, Option.bind_eq_some_iff, Prod.exists, Option.pure_def,
    Option.some.injEq, Prod.mk.injEq] at h
  obtain ⟨_, _, h1, _, _, h2, _, _, h3, _, _, h4, _, _, h5, rfl, rfl⟩ := h
  rw [takeBits_eq_some h1, takeBits_eq_some h2, takeBool_eq_some h3, takeBits_eq_some h4, takeBits_eq_some h5]
  rfl

theorem EnvGen.take_eq_some {e : EnvGen} {img rest : Image} (h : EnvGen.take img = some (e, rest)) :
    img = e.fields ++ rest := by
  simp only [EnvGen.take, Option.bind_eq_bind, Option.bind_eq_some_iff, Prod.exists, Option.pure_def,
    Option.some.injEq, Prod.mk.injEq] at h
  obtain ⟨_, _, h1, _, _, h2, _, _, h3, _, _, h4, _, _, h5, _, _, h6, _, _, h7, _, _, h8, _, _, h9, _, _, h10,
    rfl, rfl⟩ := h
  rw [takeBits_eq_some h1, takeDir_eq_some h2, takeDir_eq_some h3, takeBits_eq_some h4, takeBool_eq_some h5,
    takeBool_eq_some h6, takeBits_eq_some h7, takeBool_eq_some h8, takeBool_eq_some h9, takeBool_eq_some h10]
  rfl

theorem Latches.take_eq_some {l : Latches} {img rest : Image} (h : Latches.take img = some (l, rest)) :
    img = l.fields ++ rest := by
  simp only [Latches.take, Option.bind_eq_bind, Option.bind_eq_some_iff, Prod.exists, Option.pure_def,
    Option.some.injEq, Prod.mk.injEq] at h
  obtain ⟨_, _, h1, _, _, h2, rfl, rfl⟩ := h
  rw [takeBits_eq_some h1, takeBits_eq_some h2]
  rfl

theorem Lines.take_eq_some {l : Lines} {img rest : Image} (h : Lines.take img = some (l, rest)) :
    img = l.fields ++ rest := by
  unfold Lines.take at h
  obtain ⟨⟨_, _⟩, h1, h⟩ := Option.bind_eq_some_iff.1 h
  obtain ⟨⟨_, _⟩, h2, h⟩ := Option.bind_eq_some_iff.1 h
  obtain ⟨⟨_, _⟩, h3, h⟩ := Option.bind_eq_some_iff.1 h
  obtain ⟨⟨_, _⟩, h4, h⟩ := Option.bind_eq_some_iff.1 h
  obtain ⟨⟨_, _⟩, h5, h⟩ := Option.bind_eq_some_iff.1 h
  obtain ⟨⟨_, _⟩, h6, h⟩ := Option.bind_eq_some_iff.1 h
  obtain ⟨⟨_, _⟩, h7, h⟩ := Option.bind_eq_some_iff.1 h
  obtain ⟨⟨_, _⟩, h8, h⟩ := Option.bind_eq_some_iff.1 h
  obtain ⟨⟨_, _⟩, h9, h⟩ := Option.bind_eq_some_iff.1 h
  obtain ⟨⟨_, _⟩, h10, h⟩ := Option.bind_eq_some_iff.1 h
  obtain ⟨⟨_, _⟩, h11, h⟩ := Option.bind_eq_some_iff.1 h
  obtain ⟨⟨_, _⟩, h12, h⟩ := Option.bind_eq_some_iff.1 h
  obtain ⟨⟨_, _⟩, h13, h⟩ := Option.bind_eq_some_iff.1 h
  obtain ⟨⟨_, _⟩, h14, h⟩ := Option.bind_eq_some_iff.1 h
  obtain ⟨rfl, rfl⟩ := Prod.mk.inj (Option.some.inj h)
  rw [takeBool_eq_some h1, takeBool_eq_some h2, takeBool_eq_some h3, takeBool_eq_some h4, takeBool_eq_some h5,
    takeBool_eq_some h6, takeBool_eq_some h7, takeBool_eq_some h8, takeBool_eq_some h9, takeBool_eq_some h10,
    takeBool_eq_some h11, takeBool_eq_some h12, takeBool_eq_some h13, takeBool_eq_some h14]
  rfl

theorem PinRegs.take_eq_some {p : PinRegs} {img rest : Image} (h : PinRegs.take img = some (p, rest)) :
    img = p.fields ++ rest ∧ fitsWidth p.pitch Config.pitchBits.val = true
      ∧ fitsWidth p.octave Config.octaveBits.val = true := by
  simp only [PinRegs.take, Option.bind_eq_bind, Option.bind_eq_some_iff, Prod.exists, Option.pure_def,
    Option.some.injEq, Prod.mk.injEq] at h
  obtain ⟨_, _, h1, _, _, h2, _, _, h3, rfl, rfl⟩ := h
  obtain ⟨h2, hp⟩ := takeNum_eq_some h2
  obtain ⟨h3, ho⟩ := takeNum_eq_some h3
  exact ⟨by rw [takeBits_eq_some h1, h2, h3]; rfl, (fitsWidth_iff ..).2 hp, (fitsWidth_iff ..).2 ho⟩

theorem PtmLines.take_eq_some {p : PtmLines} {img rest : Image} (h : PtmLines.take img = some (p, rest)) :
    img = p.fields ++ rest := by
  simp only [PtmLines.take, Option.bind_eq_bind, Option.bind_eq_some_iff, Prod.exists, Option.pure_def,
    Option.some.injEq, Prod.mk.injEq] at h
  obtain ⟨_, _, h1, _, _, h2, _, _, h3, _, _, h4, _, _, h5, _, _, h6, _, _, h7, rfl, rfl⟩ := h
  rw [takeBool_eq_some h1, takeBool_eq_some h2, takeBool_eq_some h3, takeBool_eq_some h4, takeBool_eq_some h5,
    takeBool_eq_some h6, takeBool_eq_some h7]
  rfl

theorem IrqLines.take_eq_some {q : IrqLines} {img rest : Image} (h : IrqLines.take img = some (q, rest)) :
    img = q.fields ++ rest := by
  simp only [IrqLines.take, Option.bind_eq_bind, Option.bind_eq_some_iff, Prod.exists, Option.pure_def,
    Option.some.injEq, Prod.mk.injEq] at h
  obtain ⟨_, _, h1, _, _, h2, _, _, h3, _, _, h4, _, _, h5, _, _, h6, rfl, rfl⟩ := h
  rw [takeBool_eq_some h1, takeBool_eq_some h2, takeBool_eq_some h3, takeBool_eq_some h4, takeBool_eq_some h5,
    takeBool_eq_some h6]
  rfl

/-- An image that reads as a block is that block's image, the block is well typed, and its wave RAM is the image's
(R184). -/
theorem Block.ofImage?_eq_some {b : Block} {img : Image} (h : Block.ofImage? img = some b) :
    img = b.image ∧ b.WellTyped ∧ Memory.ofBytes b.ram.bytes = b.ram := by
  simp only [Block.ofImage?, Option.bind_eq_bind, Option.bind_eq_some_iff, Prod.exists] at h
  obtain ⟨_, _, h1, _, _, h2, _, _, h3, _, _, h4, _, _, h5, _, _, h6, _, _, h7, _, _, h8, h9⟩ := h
  split at h9
  · rename_i he
    simp only [Option.some.injEq] at h9
    subst he h9
    obtain ⟨h1, hw, hr⟩ := takeRam_eq_some h1
    obtain ⟨h6, hp, ho⟩ := PinRegs.take_eq_some h6
    refine ⟨?_, ⟨hw, hp, ho⟩, hr⟩
    rw [h1, Sequencer.take_eq_some h2, EnvGen.take_eq_some h3, Latches.take_eq_some h4, Lines.take_eq_some h5, h6,
      PtmLines.take_eq_some h7, IrqLines.take_eq_some h8]
    simp [Block.image]
  · simp at h9

/-- The image of every well-typed quiescent block can be restored (R184). -/
theorem restorable_image {b : Block} (hw : b.WellTyped) (hq : b.Quiescent) :
    restorable (some b.image) = some { b with ram := Memory.ofBytes b.ram.bytes } := by
  have hq' : Block.Quiescent { b with ram := Memory.ofBytes b.ram.bytes } := hq
  simp only [restorable, Block.ofImage?_image hw, if_pos hq']

/-- What is restored is a well-typed quiescent block whose image was carried (R184). -/
theorem restorable_eq_some {img : Option Image} {b : Block} (h : restorable img = some b) :
    img = some b.image ∧ b.WellTyped ∧ b.Quiescent ∧ Memory.ofBytes b.ram.bytes = b.ram := by
  unfold restorable at h
  split at h
  · simp at h
  · split at h
    · simp at h
    · rename_i c hc
      split at h
      · rename_i hq
        simp only [Option.some.injEq] at h
        subst h
        obtain ⟨h1, h2, h3⟩ := Block.ofImage?_eq_some hc
        exact ⟨by rw [h1], h2, hq, h3⟩
      · simp at h

end Sys2Proof.Machine
end

