-- ==== Sys2Proof/Laws/Step.lean ====
section
/-! SUPPORT. What a step does with the next delivered word, and the whole effect of the interrupt merge, of a restore
and of the divider tick. -/

namespace Sys2Proof.Machine

/-- With no word delivered there is no step. -/
theorem step_nil {s : State} (h : s.inputs = []) : step s = .refused .inputEnded := by
  simp [step, State.takeInput_nil s h]

/-- The next delivered word is decoded and performed (R7, R85). -/
theorem step_cons {s : State} {inp : Input} {rest : List Input} (h : s.inputs = inp :: rest) :
    step s = match decode inp.word with
      | .error why => .refused (.malformed why)
      | .ok i => exec i (s.beginStep inp rest) := by
  cases hd : decode inp.word <;> simp [step, State.takeInput_cons s h, hd]

/-- A step that answers a next state performed an instruction in the state the step began in. -/
theorem step_next {s t : State} (h : step s = .next t) :
    ∃ inp rest i, s.inputs = inp :: rest ∧ decode inp.word = .ok i ∧ exec i (s.beginStep inp rest) = .next t := by
  cases hs : s.inputs with
  | nil => rw [step_nil hs] at h; simp at h
  | cons inp rest =>
    rw [step_cons hs] at h
    split at h
    · simp at h
    · rename_i i hd
      exact ⟨inp, rest, i, rfl, hd, h⟩

/-- The interrupt merge, whole (R181). -/
theorem mergeIrq_eq (s : State) :
    mergeIrq s = { s with
      irq := { s.irq with out := irqOf s.irq }
      outputs := s.outputs ++ (if irqOf s.irq = s.irq.out then [] else [.irq (irqOf s.irq)]) } := by
  unfold mergeIrq
  dsimp only
  split
  · rename_i h
    rw [h]
    simp
  · rfl

/-- A restore that has a next state loads a well-typed quiescent block whose image was carried (R184). -/
theorem execRestore_next {u t : State} (h : execRestore u = .next t) :
    ∃ b : Block, u.carried = some b.image ∧ b.WellTyped ∧ b.Quiescent ∧ t = { u with toBlock := b } := by
  unfold execRestore at h
  split at h
  · simp at h
  · rename_i b hb
    obtain ⟨h1, h2, h3, -⟩ := restorable_eq_some hb
    simp only [Host.Outcome.next.injEq] at h
    exact ⟨b, h1, h2, h3, h.symm⟩

/-- A restore of the image of a well-typed quiescent block loads that block, every wave RAM byte a written one
(R184). -/
theorem execRestore_image {u : State} {b : Block} (h : u.carried = some b.image) (hw : b.WellTyped)
    (hq : b.Quiescent) :
    execRestore u = .next { u with toBlock := { b with ram := Memory.ofBytes b.ram.bytes } } := by
  simp only [execRestore, h, restorable_image hw hq]

/-- The image of a state that meets the invariant is accepted (R184). -/
theorem execRestore_accepts {u s : State} (h : u.carried = some s.toBlock.image) (hi : s.Inv) :
    ∃ t, exec .restore u = .next t :=
  ⟨_, execRestore_image h hi.wellTyped hi.quiescent⟩

/-- A restore with no image of a well-typed quiescent block beside it has no step (R184). -/
theorem execRestore_refused {u : State}
    (h : ∀ b : Block, b.WellTyped → b.Quiescent → u.carried ≠ some b.image) :
    execRestore u = .refused .badImage := by
  unfold execRestore
  split
  · rfl
  · rename_i b hb
    obtain ⟨h1, h2, h3, -⟩ := restorable_eq_some hb
    exact absurd h1 (h b h2 h3)

/-- The envelope clock input, whole (R117). -/
theorem setEclk_eq {s : State} (v : Bool) (h : s.eg.envClk = envClkOf s.lines.notLoad s.eg.eclk s.eg.edivOut) :
    setEclk v s = { s with
      eg := { s.eg with eclk := v }.afterEnvClk (envClkOf s.lines.notLoad v s.eg.edivOut)
      outputs := s.outputs
        ++ { s.eg with eclk := v }.clockEvents (envClkOf s.lines.notLoad v s.eg.edivOut) } := by
  have hs : (s.onEg fun e => { e with eclk := s.eg.eclk }) = s := rfl
  unfold setEclk
  split
  · rename_i hv
    subst hv
    have := updateEnvClk_of_current h
    rw [updateEnvClk_eq] at this
    exact this.symm
  · rw [updateEnvClk_eq]
    rfl

/-- The divider's fire output, whole (R103). -/
theorem setEdivOut_eq {s : State} (v : Bool) (h : s.eg.envClk = envClkOf s.lines.notLoad s.eg.eclk s.eg.edivOut) :
    setEdivOut v s = { s with
      eg := { s.eg with edivOut := v }.afterEnvClk (envClkOf s.lines.notLoad s.eg.eclk v)
      outputs := s.outputs
        ++ { s.eg with edivOut := v }.clockEvents (envClkOf s.lines.notLoad s.eg.eclk v) } := by
  unfold setEdivOut
  split
  · rename_i hv
    subst hv
    have := updateEnvClk_of_current h
    rw [updateEnvClk_eq] at this
    exact this.symm
  · rw [updateEnvClk_eq]
    rfl

end Sys2Proof.Machine
end

