-- ==== Sys2Proof/Laws/Quiescent.lean ====
section
/-! SUPPORT. Which operations keep the quiescent relations of R51: one lemma per shared operation. -/

namespace Sys2Proof.Machine

/-- R51 in the parts the chains keep. -/
theorem quiescent_iff {s : State} :
    s.toBlock.Quiescent ↔ s.toBlock.ZeroCrossingSettled ∧ s.toBlock.GatesSettled ∧ PermissionSettled s
      ∧ s.eg.envClk = envClkOf s.lines.notLoad s.eg.eclk s.eg.edivOut ∧ s.toBlock.RunSettled := by
  constructor
  · intro h
    exact ⟨h.1, h.2.1, .of_quiescent h, h.2.2.1.2.2.1, h.2.2.2⟩
  · rintro ⟨h1, h2, h3, h4, h5⟩
    exact ⟨h1, h2, ⟨h3.derived.1, h3.derived.2, h4, h3.applied⟩, h5⟩

/-- The relations read the sequencer, the envelope, the lines, the timer's enable and the interrupt lines only. -/
theorem Block.Quiescent.congr {a b : Block} (h : a.Quiescent) (h1 : b.seq = a.seq) (h2 : b.eg = a.eg)
    (h3 : b.lines = a.lines) (h4 : b.ptm.sampleTimerEnabled = a.ptm.sampleTimerEnabled)
    (h5 : b.irq = a.irq) : b.Quiescent := by
  simp only [Block.Quiescent, Block.ZeroCrossingSettled, Block.GatesSettled, Block.EnvelopeSettled,
    Block.RunSettled, h1, h2, h3, h4, h5] at h ⊢
  exact h

/-- Setting lsb settles everything a zero crossing reaches. -/
theorem setLsb_settles {v : BitVec 7} {s : State} (hz : s.toBlock.ZeroCrossingSettled)
    (hg : s.toBlock.GatesSettled) (hp : PermissionSettled s) :
    (setLsb v s).toBlock.ZeroCrossingSettled ∧ (setLsb v s).toBlock.GatesSettled
      ∧ PermissionSettled (setLsb v s) := by
  refine ⟨?_, ?_, setLsb_keeps_permission hp⟩
  · rw [setLsb_eq hz hg hp]
    exact ⟨rfl, rfl, rfl, rfl⟩
  · rw [setLsb_eq hz hg hp]
    exact ⟨hg.1, rfl, rfl, rfl⟩

/-- An advance keeps the relations, whatever the sample path holds (R120). -/
theorem advance_quiescent {s : State} (hz : s.toBlock.ZeroCrossingSettled) (hg : s.toBlock.GatesSettled)
    (hp : PermissionSettled s) (hc : s.eg.envClk = envClkOf s.lines.notLoad s.eg.eclk s.eg.edivOut)
    (hr : s.toBlock.RunSettled) : (advance s).toBlock.Quiescent := by
  obtain ⟨h1, h2, h3⟩ := setLsb_settles (v := s.seq.lsb + 1) hz hg hp
  exact quiescent_iff.2 ⟨h1, h2, h3, by simpa using hc,
    ⟨by simpa using hr.1, by simpa using hr.2.1, by simpa using hr.2.2.1, by simpa using hr.2.2.2⟩⟩

/-- What a strobe leaves is settled (R134). -/
theorem afterStrobe_quiescent {s t : State} (hp : PermissionSettled s)
    (hr : s.lines.notRstb = true) (h1 : t.seq.lsb = 0#7) (h2 : t.eg = s.eg.afterStrobe s.lines.notEload)
    (h3 : t.lines.zx = false ∧ t.lines.zxFfClk = false ∧ t.lines.msbClk = false ∧ t.lines.ptmC1 = false)
    (h4 : t.lines.notRstb = s.lines.notRstb ∧ t.lines.gzx = t.lines.zxFf ∧ t.lines.upperLoad = t.lines.zxFf
      ∧ t.lines.permitEload = (t.lines.zxFf && !s.lines.notEload) ∧ t.lines.notEload = s.lines.notEload) :
    t.toBlock.ZeroCrossingSettled ∧ t.toBlock.GatesSettled ∧ PermissionSettled t := by
  obtain ⟨z1, z2, z3, z4⟩ := h3
  obtain ⟨g1, g2, g3, g4, g5⟩ := h4
  have z0 : zxOf 0#7 = false := by decide
  refine ⟨⟨by rw [h1, z1, z0], by rw [z1, z2]; rfl, by rw [z3, z1, msbClkOf, Bool.and_false],
      by rw [z4, z2, ptmC1Of, Bool.and_false]⟩,
    ⟨by rw [g1, hr], g2, by rw [g3, g2], by rw [g4, g2, g5]; rfl⟩, by rw [g4, g2, g5]; rfl, ?_, ?_⟩
  · intro hpt
    rw [g4] at hpt
    cases hn : s.lines.notEload with
    | true => rw [hn] at hpt; simp at hpt
    | false => rw [h2, hn]; rfl
  · rw [h2]
    unfold EnvGen.afterStrobe
    split
    · exact hp.derived
    · exact EnvGen.withDir_derived ..

/-- The composite clock's new level keeps the derived values current. -/
theorem EnvGen.afterEnvClk_derived {e : EnvGen} (h : e.Derived) (clk : Bool) : (e.afterEnvClk clk).Derived := by
  unfold EnvGen.afterEnvClk
  split
  · rw [EnvGen.afterClock_eq]
    exact EnvGen.withEnv_derived ..
  · exact h

@[simp] theorem EnvGen.afterEnvClk_frame (e : EnvGen) (clk : Bool) :
    (e.afterEnvClk clk).envDir = e.envDir ∧ (e.afterEnvClk clk).envDirCtrl = e.envDirCtrl
      ∧ (e.afterEnvClk clk).edivCount = e.edivCount ∧ (e.afterEnvClk clk).edivOut = e.edivOut
      ∧ (e.afterEnvClk clk).eclk = e.eclk ∧ (e.afterEnvClk clk).envClk = clk := by
  unfold EnvGen.afterEnvClk
  split <;> simp [EnvGen.afterClock]

@[simp] theorem EnvGen.afterStrobe_frame (e : EnvGen) (b : Bool) : DirectionFrame e (e.afterStrobe b) := by
  cases b <;> simp [EnvGen.afterStrobe]

end Sys2Proof.Machine
end

