-- ==== Sys2Proof/Laws/Writers.lean ====
section
/-! SUPPORT. What can move the direction, the selector and tri, and the flip-flop, in any state: the lemmas behind the
spec's "written only by" (R19, R21, R22, R37). -/

namespace Sys2Proof.Machine

/-! ### The direction, the selector and tri -/

/-- From `a` to `b` the direction has stayed, with the selector and tri, or has moved to the control latch's. -/
def DirectionMove (a b : EnvGen) : Prop :=
  b.env = a.env ∧ b.envDirCtrl = a.envDirCtrl
    ∧ (b.envDir = a.envDir ∧ b.edivRate = a.edivRate ∧ b.tri = a.tri
      ∨ b.envDir = a.envDirCtrl ∧ a.envDir ≠ a.envDirCtrl)

theorem DirectionMove.of_eq {a b : EnvGen} (h : b = a) : DirectionMove a b := by simp [DirectionMove, h]

theorem DirectionMove.trans {a b c : EnvGen} (h : DirectionMove a b) (h' : DirectionMove b c) : DirectionMove a c := by
  obtain ⟨h1, h2, h3⟩ := h
  obtain ⟨g1, g2, g3⟩ := h'
  refine ⟨g1.trans h1, g2.trans h2, ?_⟩
  rcases h3 with ⟨a1, a2, a3⟩ | ⟨a1, a2⟩ <;> rcases g3 with ⟨b1, b2, b3⟩ | ⟨b1, b2⟩ <;> simp_all

/-- A move changes the selector and tri only with the direction. -/
theorem DirectionMove.derived {a b : EnvGen} (h : DirectionMove a b) :
    b.edivRate = a.edivRate ∧ b.tri = a.tri ∨ b.env ≠ a.env ∨ b.envDir ≠ a.envDir := by
  obtain ⟨-, -, ⟨-, h1, h2⟩ | ⟨h1, h2⟩⟩ := h
  · exact .inl ⟨h1, h2⟩
  · exact .inr (.inr fun he => h2 (by rw [← h1, he]))

theorem applyEnvDirIfPermitted_move (s : State) : DirectionMove s.eg (applyEnvDirIfPermitted s).eg := by
  unfold applyEnvDirIfPermitted
  split
  · rw [applyEnvDir_eq]
    split
    · exact .of_eq rfl
    · rename_i h
      exact ⟨rfl, rfl, .inr ⟨rfl, fun e => h e.symm⟩⟩
  · exact .of_eq rfl

theorem setGzx_move (v : Bool) (s : State) : DirectionMove s.eg (setGzx v s).eg := by
  unfold setGzx
  split
  · exact .of_eq rfl
  · exact (DirectionMove.of_eq (by simp)).trans (applyEnvDirIfPermitted_move _)

theorem setNotRstb_move (v : Bool) (s : State) : DirectionMove s.eg (setNotRstb v s).eg := by
  unfold setNotRstb
  split
  · exact .of_eq rfl
  · rw [(updateUpperLoad_frame _).2.1]
    exact setGzx_move _ _

theorem setZxFfClk_move (v : Bool) (s : State) : DirectionMove s.eg (setZxFfClk v s).eg := by
  unfold setZxFfClk
  split
  · exact .of_eq rfl
  · dsimp only
    split
    · exact (DirectionMove.of_eq (by simp [setZxFf_eq])).trans (setGzx_move _ _)
    · exact .of_eq rfl

theorem setZx_move (v : Bool) (s : State) : DirectionMove s.eg (setZx v s).eg := by
  unfold setZx
  split
  · exact .of_eq rfl
  · rw [(updatePtmC1_frame _).2.2.1]
    exact (DirectionMove.of_eq (by simp)).trans (setZxFfClk_move _ _)

/-- A new lsb moves the direction at most to the control latch's (R121). -/
theorem setLsb_move (v : BitVec 7) (s : State) : DirectionMove s.eg (setLsb v s).eg := by
  unfold setLsb
  split
  · exact .of_eq rfl
  · exact setZx_move _ _

theorem strobe_move (s : State) : DirectionMove s.eg (strobe s).eg :=
  (((setNotRstb_move false (s.onSeq fun q => { q with newAddr := true })).trans (setNotRstb_move true _)).trans
    (setLsb_move 0#7 _)).trans (.of_eq rfl)

theorem checkRstb_move (s : State) : DirectionMove s.eg (checkRstb s).eg := by
  unfold checkRstb
  dsimp only
  split
  · exact .of_eq rfl
  · exact strobe_move _

theorem setRun_move (v : Bool) (s : State) : DirectionMove s.eg (setRun v s).eg := by
  unfold setRun
  split
  · exact .of_eq rfl
  · exact (DirectionMove.of_eq (by cases v <;> simp [startRun_eq, stopRun_eq])).trans (checkRstb_move _)

theorem setNotEload_move (v : Bool) (s : State) : DirectionMove s.eg (setNotEload v s).eg := by
  unfold setNotEload
  split
  · exact .of_eq rfl
  · exact (DirectionMove.of_eq (by simp)).trans (applyEnvDirIfPermitted_move _)

/-- A direction select moves the direction at most to the one selected (R163, R164). -/
theorem selectDirection_move (d : EnvDir) (s : State) :
    DirectionMove { s.eg with envDirCtrl := d } (selectDirection d s).eg :=
  applyEnvDirIfPermitted_move _

/-- The composite clock changes the selector and tri only with the value (R113, R116). -/
theorem EnvGen.afterEnvClk_move (e : EnvGen) (clk : Bool) :
    (e.afterEnvClk clk).envDir = e.envDir
      ∧ ((e.afterEnvClk clk).env ≠ e.env
        ∨ (e.afterEnvClk clk).env = e.env ∧ (e.afterEnvClk clk).edivRate = e.edivRate
          ∧ (e.afterEnvClk clk).tri = e.tri) := by
  unfold EnvGen.afterEnvClk
  split
  · rw [EnvGen.afterClock_eq]
    exact ⟨rfl, .inl (envStep_ne _ _)⟩
  · exact ⟨rfl, .inr ⟨rfl, rfl, rfl⟩⟩

theorem updateEnvClk_derives (s : State) :
    (updateEnvClk s).eg.edivRate = s.eg.edivRate ∧ (updateEnvClk s).eg.tri = s.eg.tri
      ∨ (updateEnvClk s).eg.env ≠ s.eg.env := by
  rw [updateEnvClk_eq]
  rcases (s.eg.afterEnvClk_move (envClkOf s.lines.notLoad s.eg.eclk s.eg.edivOut)).2 with h | ⟨-, h⟩
  · exact .inr h
  · exact .inl h

theorem setEclk_derives (v : Bool) (s : State) :
    (setEclk v s).eg.edivRate = s.eg.edivRate ∧ (setEclk v s).eg.tri = s.eg.tri
      ∨ (setEclk v s).eg.env ≠ s.eg.env := by
  unfold setEclk
  split
  · exact .inl ⟨rfl, rfl⟩
  · exact updateEnvClk_derives _

theorem tickDivider_derives (s : State) :
    (tickDivider s).eg.edivRate = s.eg.edivRate ∧ (tickDivider s).eg.tri = s.eg.tri
      ∨ (tickDivider s).eg.env ≠ s.eg.env := by
  unfold tickDivider setEdivOut
  dsimp only
  split
  · exact .inl ⟨rfl, rfl⟩
  · exact updateEnvClk_derives _

/-! ### The flip-flop -/

/-- A strobe never latches (R125, R134): it lets zx fall, and the flip-flop latches on a rise. -/
@[simp] theorem strobe_zxFf (s : State) : (strobe s).lines.zxFf = s.lines.zxFf := by
  have hz : zxOf 0#7 = false := by decide
  simp only [strobe, setMsb_frame, setLsb, hz, setZx]
  split
  · simp
  · split
    · simp
    · simp [updateZxFfClk, zxFfClkOf]

@[simp] theorem checkRstb_zxFf (s : State) : (checkRstb s).lines.zxFf = s.lines.zxFf := by
  unfold checkRstb
  dsimp only
  split <;> simp

@[simp] theorem setNotLoad_zxFf (v : Bool) (s : State) : (setNotLoad v s).lines.zxFf = s.lines.zxFf := by
  unfold setNotLoad
  split <;> simp

/-! ### Lines -/

/-- The envelope-load pin writes its own level and the permission (R148). -/
theorem setNotEload_lines (v : Bool) (s : State) : ∃ p,
    (setNotEload v s).lines = { s.lines with notEload := v, permitEload := p } := by
  unfold setNotEload
  split
  · rename_i h
    exact ⟨s.lines.permitEload, by rw [h]⟩
  · exact ⟨permitEloadOf s.lines.gzx v, by simp [updatePermitEload_eq]⟩

/-- A load pin change moves the direction at most to the control latch's, and the selector and tri only with the
direction or the value (R142). -/
theorem setNotLoad_derived (v : Bool) (s : State) :
    (setNotLoad v s).eg.edivRate = s.eg.edivRate ∧ (setNotLoad v s).eg.tri = s.eg.tri
      ∨ (setNotLoad v s).eg.env ≠ s.eg.env ∨ (setNotLoad v s).eg.envDir ≠ s.eg.envDir := by
  unfold setNotLoad
  split
  · exact .inl ⟨rfl, rfl⟩
  · rw [updateEnvClk_eq]
    have hm := checkRstb_move (s.onLines fun l => { l with notLoad := v })
    generalize hu : updatePtmC1 (checkRstb (s.onLines fun l => { l with notLoad := v })) = u
    have he : u.eg = (checkRstb (s.onLines fun l => { l with notLoad := v })).eg := by rw [← hu]; simp
    rw [← he] at hm
    obtain ⟨h1, h2⟩ := u.eg.afterEnvClk_move (envClkOf u.lines.notLoad u.eg.eclk u.eg.edivOut)
    have he1 : u.eg.env = s.eg.env := hm.1
    rcases h2 with h2 | ⟨h2, h3, h4⟩
    · exact .inr (.inl (by rw [← he1]; exact h2))
    · rcases hm.derived with ⟨h5, h6⟩ | h5 | h5
      · exact .inl ⟨h3.trans h5, h4.trans h6⟩
      · exact absurd he1 h5
      · exact .inr (.inr (by rw [h1]; exact h5))

end Sys2Proof.Machine
end

