-- ==== Sys2Proof/Tests/Slice0.lean ====
section
/-! SUPPORT. The model's own tests: ill-formed terms refused, words written out from the spec decoded, one step per
test with the values of 95_test_vectors.md, and for every statement with hypotheses a state that meets them. -/

namespace Sys2Proof.Tests

open Sys2Proof.Machine

/-! ### Small states -/

/-- The next state of an outcome, if it is one. -/
def nextOf : Host.Outcome State Fault Refusal → Option State
  | .next t => some t
  | .fault _ => none
  | .refused _ => none

/-- The state after one instruction. -/
def after (i : Instr) (s : State) : Option State := nextOf (exec i s)

/-- The refusal of one instruction. -/
def refusalOf (i : Instr) (s : State) : Option Refusal :=
  match exec i s with
  | .next _ => none
  | .fault _ => none
  | .refused r => some r

/-- A running block: run 1, not_load 1, at a wave address, with a flip-flop and a not_eload level. -/
def playing (msb : BitVec 8) (lsb : BitVec 7) (zxFf notEload : Bool) : State :=
  { State.reset with
    seq := { lsb := lsb, msb := msb, newAddr := false, waveByte := 0x80#8, currentSample := 0#16 }
    lines := { State.reset.lines with
      run := true, rstbX := true, notEload := notEload, zx := lsb.getLsbD 6, zxFfClk := lsb.getLsbD 6, zxFf := zxFf,
      gzx := zxFf, upperLoad := zxFf, permitEload := zxFf && !notEload }
    ptm := { State.reset.ptm with sampleTimerEnabled := true, gate1 := false, gate2 := false, gate3 := false } }

/-- A stopped block under load (not_load 0), at a wave address. -/
def loading (msb : BitVec 8) (lsb : BitVec 7) : State :=
  { State.reset with
    seq := { lsb := lsb, msb := msb, newAddr := false, waveByte := 0x80#8, currentSample := 0#16 }
    lines := { State.reset.lines with
      notLoad := false, rstbX := true, zx := lsb.getLsbD 6, zxFfClk := lsb.getLsbD 6, msbClk := lsb.getLsbD 6,
      ptmC1 := lsb.getLsbD 6 } }

/-- A state with an envelope value and direction, its derived values current and the latch output at `triOut`. -/
def withEnvelope (env : Byte) (dir : EnvDir) (triOut : Bool) (s : State) : State :=
  { s with eg := { s.eg with env := env, envDir := dir, envDirCtrl := dir, edivRate := edivRateOf dir env,
                             tri := triOf dir env, triOut := triOut } }

/-- A state with one wave RAM byte written. -/
def withByte (a : Nat) (v : Byte) (s : State) : State := { s with ram := [(a, v)] }

/-- A state with words delivered. -/
def delivered (ws : List Word) (s : State) : State := s.deliver ws

/-- The invariant of a state whose pitch and octave are 0, from its decidable parts. -/
theorem inv_of {s : State} (h1 : s.ram.wf) (h2 : s.pins.pitch = 0) (h3 : s.pins.octave = 0)
    (h4 : s.toBlock.Quiescent) : s.Inv :=
  ⟨⟨h1, by rw [h2]; rfl, by rw [h3]; rfl⟩, h4⟩

/-! ### Ill-formed terms are refused (WellFormed.lean) -/

/-- A pitch above every admissible PITCH_BITS (at most 16, R82). -/
theorem test_wellFormed_refuses_wide_pitch : (Instr.pinPitch 65536).wellFormed = false := by
  have h : 2 ^ Config.pitchBits.val ≤ 2 ^ 16 := Nat.pow_le_pow_right (by decide) (by omega)
  have h' : ¬65536 < 2 ^ Config.pitchBits.val := by omega
  simp [Instr.wellFormed, fitsWidth, h']

/-- An octave above every admissible OCTAVE_BITS (at most 16, R82). -/
theorem test_wellFormed_refuses_wide_octave : (Instr.pinOctave 65536).wellFormed = false := by
  have h : 2 ^ Config.octaveBits.val ≤ 2 ^ 16 := Nat.pow_le_pow_right (by decide) (by omega)
  have h' : ¬65536 < 2 ^ Config.octaveBits.val := by omega
  simp [Instr.wellFormed, fitsWidth, h']

/-! ### Decoding: words written out from the spec's encodings (F1, R81 to R86) -/

theorem test_decode_wave_wr : decode 0x00000011#32 = .ok (.waveWr 0x11#8) := by decide
theorem test_decode_wave_rd : decode 0x40000000#32 = .ok .waveRd := by decide
theorem test_decode_envdn_wr : decode 0x03000000#32 = .ok (.envdnWr 0#8) := by decide
theorem test_decode_envdn_rd : decode 0x43000000#32 = .ok .envdnRd := by decide
theorem test_decode_envup_wr : decode 0x040000FF#32 = .ok (.envupWr 0xFF#8) := by decide
theorem test_decode_envup_rd : decode 0x44000000#32 = .ok .envupRd := by decide
theorem test_decode_vol_wr : decode 0x05000080#32 = .ok (.volWr 0x80#8) := by decide
theorem test_decode_vol_rd : decode 0x45000000#32 = .ok .volRd := by decide
theorem test_decode_flt_wr : decode 0x0600003C#32 = .ok (.fltWr 0x3C#8) := by decide
theorem test_decode_flt_rd : decode 0x46000000#32 = .ok .fltRd := by decide
theorem test_decode_pia0_wr : decode 0x09000004#32 = .ok (.pia0Wr 1#2 0x04#8) := by decide
theorem test_decode_pia0_rd : decode 0x4A000000#32 = .ok (.pia0Rd 2#2) := by decide
theorem test_decode_pia1_wr : decode 0x0F0000FF#32 = .ok (.pia1Wr 3#2 0xFF#8) := by decide
theorem test_decode_pia1_rd : decode 0x4C000000#32 = .ok (.pia1Rd 0#2) := by decide
theorem test_decode_ptm_wr : decode 0x12000001#32 = .ok (.ptmWr 2#3 0x01#8) := by decide
theorem test_decode_ptm_rd : decode 0x54000000#32 = .ok (.ptmRd 4#3) := by decide
theorem test_decode_unk_wr1 : decode 0x01000000#32 = .ok (.unkWr1 0#8) := by decide
theorem test_decode_unk_wr2 : decode 0x02000001#32 = .ok (.unkWr2 1#8) := by decide
theorem test_decode_unk_wr7 : decode 0x07000055#32 = .ok (.unkWr7 0x55#8) := by decide
theorem test_decode_unk_rd1 : decode 0x41000000#32 = .ok .unkRd1 := by decide
theorem test_decode_unk_rd2 : decode 0x42000000#32 = .ok .unkRd2 := by decide
theorem test_decode_unk_rd7 : decode 0x47000000#32 = .ok .unkRd7 := by decide
theorem test_decode_run : decode 0x80000001#32 = .ok (.pinRun true) := by decide
theorem test_decode_not_load : decode 0x81000000#32 = .ok (.pinNotLoad false) := by decide
theorem test_decode_not_wpe : decode 0x82000001#32 = .ok (.pinNotWpe true) := by decide
theorem test_decode_not_eload : decode 0x83000000#32 = .ok (.pinNotEload false) := by decide
theorem test_decode_ws : decode 0x8400007F#32 = .ok (.pinWs 0x7F#7) := by decide
theorem test_decode_eclk : decode 0x87000001#32 = .ok (.eclk true) := by decide
theorem test_decode_div_tick : decode 0x88000000#32 = .ok .divTick := by decide
theorem test_decode_ptm_o1 : decode 0x89000001#32 = .ok (.ptmO1 true) := by decide
theorem test_decode_ptm_o2 : decode 0x8A000001#32 = .ok (.ptmO2 true) := by decide
theorem test_decode_ptm_o3 : decode 0x8B000000#32 = .ok (.ptmO3 false) := by decide
theorem test_decode_irq_in0 : decode 0x90000001#32 = .ok (.irqIn0 true) := by decide
theorem test_decode_irq_in1 : decode 0x91000000#32 = .ok (.irqIn1 false) := by decide
theorem test_decode_irq_in2 : decode 0x92000001#32 = .ok (.irqIn2 true) := by decide
theorem test_decode_irq_in3 : decode 0x93000001#32 = .ok (.irqIn3 true) := by decide
theorem test_decode_irq_in4 : decode 0x94000001#32 = .ok (.irqIn4 true) := by decide
theorem test_decode_reset : decode 0xC0000000#32 = .ok .reset := by decide
theorem test_decode_sample_tick : decode 0xC1000000#32 = .ok .sampleTick := by decide
theorem test_decode_pull_sample : decode 0xC2000000#32 = .ok .pullSample := by decide
theorem test_decode_save : decode 0xC3000000#32 = .ok .save := by decide
theorem test_decode_restore : decode 0xC4000000#32 = .ok .restore := by decide

/-- `PITCH 0x155` decodes where PITCH_BITS is at least 9 (F1), and is refused where it is less (R85). -/
theorem test_decode_pitch :
    decode 0x85000155#32
      = if 9 ≤ Config.pitchBits.val then .ok (.pinPitch 0x155) else .error .payloadTooWide := by
  have hd : decode 0x85000155#32 = widePayload 0x155 Config.pitchBits.val .pinPitch := rfl
  rw [hd, widePayload]
  generalize Config.pitchBits = n
  revert n
  decide

/-- `OCTAVE 3` decodes where OCTAVE_BITS is at least 2, and is refused where it is less (R85). -/
theorem test_decode_octave :
    decode 0x86000003#32
      = if 2 ≤ Config.octaveBits.val then .ok (.pinOctave 3) else .error .payloadTooWide := by
  have hd : decode 0x86000003#32 = widePayload 3 Config.octaveBits.val .pinOctave := rfl
  rw [hd, widePayload]
  generalize Config.octaveBits = n
  revert n
  decide

/-- The refused words of F1, each under the name of its case of R85. -/
theorem test_decode_refused :
    decode 0x18000000#32 = .error .offsetOutOfRange ∧ decode 0x5F000000#32 = .error .offsetOutOfRange
      ∧ decode 0x20000000#32 = .error .reservedBit29 ∧ decode 0x00000100#32 = .error .reservedBits
      ∧ decode 0x40000001#32 = .error .readDataNotZero ∧ decode 0x8C000000#32 = .error .unknownInputEvent
      ∧ decode 0x80000002#32 = .error .payloadTooWide ∧ decode 0x84000080#32 = .error .payloadTooWide
      ∧ decode 0x88000001#32 = .error .payloadTooWide ∧ decode 0x80010000#32 = .error .eventReservedBits
      ∧ decode 0xC5000000#32 = .error .unknownHostEvent ∧ decode 0xC1000001#32 = .error .payloadTooWide := by
  decide

/-- The pseudo-instructions of R90: `ECLKPULSE`, `REPEAT 2 { DIVTICK }`, `WRSEQ 0x00, 0x11, 0x22`. -/
theorem test_pseudo_instructions :
    eclkPulse = [0x87000001#32, 0x87000000#32] ∧ repeatWords 2 [encode .divTick] = [0x88000000#32, 0x88000000#32]
      ∧ wrSeq 0x00 [0x11#8, 0x22#8] = [0x00000011#32, 0x00000022#32] := by decide

/-! ### The bus interface (F5, F7) -/

/-- F7: msb 0x85, lsb 0: the byte lands at 0x280 and lsb is 1. -/
theorem test_wave_wr : (after (.waveWr 0x11#8) (loading 0x85#8 0#7)).map (fun t => (t.ram, t.seq.lsb))
    = some ([(0x280, 0x11#8)], 1#7) := by decide

/-- F5: run 0, not_load 0, msb 0x85, lsb 127: the wrap counts the MSB and lowers the timer line. -/
theorem test_wave_wr_wraps : (after (.waveWr 0x77#8) (loading 0x85#8 127#7)).map
      (fun t => (t.ram, t.seq.lsb, t.seq.msb, t.outputs))
    = some ([(0x2FF, 0x77#8)], 0#7, 0x86#8, [.zxOut false, .ptmC1 false]) := by decide

/-- F7: new_addr 1: the byte is returned, new_addr clears, lsb stays. -/
theorem test_wave_rd_new_addr :
    (after .waveRd ((withByte 0x280 0x11#8 (loading 0x85#8 0#7)).onSeq fun q => { q with newAddr := true })).map
      (fun t => (t.result, t.seq.newAddr, t.seq.lsb)) = some (some (.data 0x11#8), false, 0#7) := by decide

/-- F7: new_addr 0: the byte is returned and lsb advances. -/
theorem test_wave_rd : (after .waveRd (withByte 0x280 0x11#8 (loading 0x85#8 0#7))).map
      (fun t => (t.result, t.seq.lsb)) = some (some (.data 0x11#8), 1#7) := by decide

/-- F7: permit_eload 0, env_dir UP: only the control latch moves. -/
theorem test_envdn_wr : (after (.envdnWr 0#8) (withEnvelope 1#8 .up false State.reset)).map
      (fun t => (t.eg.envDirCtrl, t.eg.envDir)) = some (.down, .up) := by decide

/-- F7: permit_eload 0: a read selects as a write does and returns 0. -/
theorem test_envdn_rd : (after .envdnRd (withEnvelope 1#8 .up false State.reset)).map
      (fun t => (t.eg.envDirCtrl, t.result)) = some (.down, some (.data 0#8)) := by decide

/-- F7: permit_eload 1, env 0x00, env_dir DOWN: the direction, the selector and tri move at once. -/
theorem test_envup_wr : (after (.envupWr 0#8) (playing 0x80#8 0#7 true false)).map
      (fun t => (t.eg.envDir, t.eg.edivRate, t.eg.tri, t.eg.triOut)) = some (.up, 0x3F#6, false, true) := by decide

/-- F7: permit_eload 0: only the control latch moves; the read returns 0. -/
theorem test_envup_rd : (after .envupRd State.reset).map (fun t => (t.eg.envDirCtrl, t.eg.envDir, t.result))
    = some (.up, .down, some (.data 0#8)) := by decide

/-- W6: `WR 0x05, 0x12`. -/
theorem test_vol_wr : (after (.volWr 0x12#8) State.reset).map (·.latches.volLatch) = some 0x12#8 := by decide

/-- W6: `RD 0x05` returns 0xFF after any write. -/
theorem test_vol_rd : (after .volRd (State.reset.onLatches fun l => { l with volLatch := 0x12#8 })).map
      (fun t => (t.result, t.latches.volLatch)) = some (some (.data 0xFF#8), 0x12#8) := by decide

/-- F7: `WR 0x06, 0x3C`. -/
theorem test_flt_wr : (after (.fltWr 0x3C#8) State.reset).map (·.latches.fltLatch) = some 0x3C#8 := by decide

/-- F7: `RD 0x06` returns 0 and is logged. -/
theorem test_flt_rd : (after .fltRd State.reset).map (fun t => (t.result, t.outputs))
    = some (some (.data 0#8), [.diagUnknown .read 0x06]) := by decide

/-- F7: `WR 0x09, 0x04` gives PIA_WR(0, PIA_RS(1), 0x04). -/
theorem test_pia0_wr : (after (.pia0Wr 1#2 0x04#8) State.reset).map (·.outputs)
    = some [.piaWr .pia0 (Config.piaRs 1#2) 0x04#8] := rfl

/-- F7: `RD 0x0A` gives PIA_RD(0, PIA_RS(2)) and the environment's value. -/
theorem test_pia0_rd : (after (.pia0Rd 2#2) State.reset).map (fun t => (t.outputs, t.result))
    = some ([.piaRd .pia0 (Config.piaRs 2#2)], some (.data (Config.readDraw .pia0Read 0))) := rfl

/-- F7: `WR 0x0F, 0xFF` gives PIA_WR(1, PIA_RS(3), 0xFF). -/
theorem test_pia1_wr : (after (.pia1Wr 3#2 0xFF#8) State.reset).map (·.outputs)
    = some [.piaWr .pia1 (Config.piaRs 3#2) 0xFF#8] := rfl

/-- F7: `RD 0x0C` gives PIA_RD(1, PIA_RS(0)) and the environment's value. -/
theorem test_pia1_rd : (after (.pia1Rd 0#2) State.reset).map (fun t => (t.outputs, t.result))
    = some ([.piaRd .pia1 (Config.piaRs 0#2)], some (.data (Config.readDraw .pia1Read 0))) := rfl

/-- F7: `WR 0x12, 0x01` gives PTM_WR(4, 0x01). -/
theorem test_ptm_wr : (after (.ptmWr 2#3 0x01#8) State.reset).map (·.outputs) = some [.ptmWr 4#3 0x01#8] := by decide

/-- F7: `WR 0x17, 0x00` gives PTM_WR(7, 0x00). -/
theorem test_ptm_wr_top : (after (.ptmWr 7#3 0#8) State.reset).map (·.outputs) = some [.ptmWr 7#3 0#8] := by decide

/-- F7: `RD 0x14` gives PTM_RD(2). -/
theorem test_ptm_rd : (after (.ptmRd 4#3) State.reset).map (·.outputs) = some [.ptmRd 2#3] := by decide

/-- F7: `RD 0x10` with ptm_o[1] 1 gives PTM_RD(0): o1 does not change the select. -/
theorem test_ptm_rd_o1 : (after (.ptmRd 0#3) (State.reset.onPtm fun p => { p with o1 := true })).map (·.outputs)
    = some [.ptmRd 0#3] := by decide

/-- F7: the undecoded writes change nothing and are logged. -/
theorem test_unk_wr : (after (.unkWr1 0#8) State.reset).map (fun t => (t.toBlock, t.outputs))
      = some (Block.reset, [.diagUnknown .write 0x01])
    ∧ (after (.unkWr2 1#8) State.reset).map (fun t => (t.toBlock, t.outputs))
      = some (Block.reset, [.diagUnknown .write 0x02])
    ∧ (after (.unkWr7 0x55#8) State.reset).map (fun t => (t.toBlock, t.outputs))
      = some (Block.reset, [.diagUnknown .write 0x07]) := by decide

/-- F7: the undecoded reads return 0 and are logged. -/
theorem test_unk_rd : (after .unkRd1 State.reset).map (fun t => (t.toBlock, t.result, t.outputs))
      = some (Block.reset, some (.data 0#8), [.diagUnknown .read 0x01])
    ∧ (after .unkRd2 State.reset).map (fun t => (t.toBlock, t.result, t.outputs))
      = some (Block.reset, some (.data 0#8), [.diagUnknown .read 0x02])
    ∧ (after .unkRd7 State.reset).map (fun t => (t.toBlock, t.result, t.outputs))
      = some (Block.reset, some (.data 0#8), [.diagUnknown .read 0x07]) := by decide

/-! ### Pins (W4, F6) -/

/-- F6: `RUN 1` from reset. -/
theorem test_run_rises : (after (.pinRun true) State.reset).map
      (fun t => ((t.lines.run, t.ptm.sampleTimerEnabled, t.ptm.gate1), t.lines.rstbX, t.seq.newAddr, t.seq.msb,
        t.outputs))
    = some ((true, true, false), true, true, 0x80#8,
        [.timerStart 0 0, .ptmGate .gate1 false, .ptmGate .gate2 false, .ptmGate .gate3 false]) := by decide

/-- F6, W4: `RUN 0` at lsb 70: the gates and the timer, then the strobe's zero crossing. -/
theorem test_run_falls : (after (.pinRun false) (playing 0xFF#8 70#7 true true)).map
      (fun t => ((t.seq.lsb, t.seq.msb, t.seq.waveByte), t.lines.zxFf, t.lines.gzx, t.lines.rstbX, t.outputs))
    = some ((0#7, 0x80#8, 0x80#8), false, false, false,
        [.timerStop, .ptmGate .gate1 true, .ptmGate .gate2 true, .ptmGate .gate3 true, .zxOut false]) := by decide

/-- F6: `NLOAD 0` from reset with ws 5. -/
theorem test_not_load : (after (.pinNotLoad false) (State.reset.onPins fun p => { p with ws := 5#7 })).map
      (fun t => ((t.lines.notLoad, t.lines.rstbX, t.seq.newAddr), t.seq.lsb, t.seq.msb, t.lines.ptmC1, t.outputs))
    = some ((false, true, true), 0#7, 0x85#8, false, []) := by decide

/-- F4: the pin change clocks the envelope once (R115): not_load 1, eclk 0, ediv_out 1, UP, env 1. -/
theorem test_not_load_clocks :
    (after (.pinNotLoad false)
      ((withEnvelope 1#8 .up false State.reset).onEg fun e => { e with edivOut := true })).map
      (fun t => (t.eg.envClk, t.eg.env)) = some (true, 2#8) := by decide

/-- F6: `NWPE 0` is stored. -/
theorem test_not_wpe : (after (.pinNotWpe false) State.reset).map (·.lines.notWpe) = some false := by decide

/-- F6: gzx 1, env_dir_ctrl UP, env_dir DOWN, not_eload 1: `NELOAD 0` applies the direction. -/
theorem test_not_eload :
    (after (.pinNotEload false)
      ((playing 0x80#8 0#7 true true).onEg fun e => { e with envDirCtrl := .up })).map
      (fun t => (t.lines.permitEload, t.eg.envDir, t.outputs)) = some (true, .up, []) := by decide

/-- F6: gzx 0: `NELOAD 0` only arms the next strobe. -/
theorem test_not_eload_no_gzx :
    (after (.pinNotEload false) (State.reset.onEg fun e => { e with envDirCtrl := .up })).map
      (fun t => (t.lines.notEload, t.lines.permitEload, t.eg.envDir)) = some (false, false, .down) := by decide

/-- F6: `WS 7`: the MSB does not move. -/
theorem test_ws : (after (.pinWs 7#7) (loading 0x82#8 0#7)).map (fun t => (t.pins.ws, t.seq.msb))
    = some (7#7, 0x82#8) := by decide

/-- F6: run 1, pitch 0: `PITCH 0x155` reprograms the timer. -/
theorem test_pitch : (after (.pinPitch 0x155) (playing 0x80#8 0#7 false true)).map (fun t => (t.pins.pitch, t.outputs))
    = some (0x155, [.timerReprogram 0x155 0]) := by decide

/-- F6: run 0, octave 0: `OCTAVE 3` is silent. -/
theorem test_octave : (after (.pinOctave 3) State.reset).map (fun t => (t.pins.octave, t.outputs)) = some (3, []) := by
  decide

/-! ### The envelope (F2 to F4) -/

/-- F2: the selector and tri. -/
theorem test_selector_and_tri :
    edivRateOf .down 0x5A#8 = 0x17#6 ∧ edivRateOf .up 0x5A#8 = 0x2B#6 ∧ edivRateOf .down 0xF3#8 = 0x3F#6
      ∧ edivRateOf .up 0x80#8 = 0x1F#6 ∧ triOf .down 0x00#8 = true ∧ triOf .down 0xFF#8 = false
      ∧ triOf .up 0xFF#8 = true ∧ triOf .up 0x00#8 = false := by decide

/-- F4: env 0xFE, UP, tri_out 0: one rise reaches 0xFF, sets tri and announces it. -/
theorem test_eclk_terminal : (after (.eclk true) (withEnvelope 0xFE#8 .up false State.reset)).map
      (fun t => (t.eg.env, t.eg.tri, t.eg.triOut, t.eg.edivRate, t.outputs))
    = some (0xFF#8, true, true, 0x03#6, [.triOut true]) := by decide

/-- F4, C2: env 0xFF, UP, tri 1: a rise changes nothing. -/
theorem test_eclk_halted : (after (.eclk true) (withEnvelope 0xFF#8 .up true State.reset)).map
      (fun t => (t.eg.env, t.eg.envClk, t.outputs)) = some (0xFF#8, true, []) := by decide

/-- F3: ediv_count 63 wraps to 0 and the fire output is the table's bit there, for every table. -/
theorem test_div_tick : (after .divTick
      ((withEnvelope 0#8 .up true State.reset).onEg fun e => { e with edivCount := 63#6 })).map
      (fun t => (t.eg.edivCount, t.eg.edivOut)) = some (0#6, Config.rateTable 0x3F#6 0#6) := by
  show Option.map _ (some (setEdivOut (Config.rateTable 0x3F#6 0#6) _)) = _
  generalize Config.rateTable 0x3F#6 0#6 = fire
  revert fire
  decide

/-! ### The sample path (F5) -/

/-- F5: the sample formula, with the rows that tell a floor from a rounding toward zero. -/
theorem test_sample_formula :
    sampleOf 0x00#8 0xFF#8 0xFF#8 = 0x80FF#16 ∧ sampleOf 0xFF#8 0xFF#8 0xFF#8 = 0x7E02#16
      ∧ sampleOf 0x7F#8 0x01#8 0x01#8 = 0xFFFF#16 ∧ sampleOf 0xC0#8 0x80#8 0x80#8 = 0x1000#16
      ∧ sampleOf 0x40#8 0x80#8 0x80#8 = 0xF000#16 ∧ sampleOf 0xFE#8 0x10#8 0x10#8 = 0x007E#16 := by decide

/-- F5: ptm_o[1] 1, zx_ff 0, ws 2, msb 0x82, lsb 63, wave_ram[0x13F] 0xC0, env 1, vol 0xFF: the latch and the load. -/
theorem test_sample_tick_latch :
    (after .sampleTick
      ((((withByte 0x13F 0xC0#8 (withEnvelope 1#8 .up false (playing 0x82#8 63#7 false true))).onPtm
        fun p => { p with o1 := true }).onPins fun p => { p with ws := 2#7 }).onLatches
        fun l => { l with volLatch := 0xFF#8 })).map
      (fun t => ((t.seq.waveByte, t.seq.lsb, t.lines.zxFf), t.lines.upperLoad, t.seq.msb, t.seq.currentSample,
        t.outputs))
    = some ((0xC0#8, 64#7, true), true, 0x82#8, 63#16, [.zxOut true, .zcint true, .zcint false]) := by decide

/-- F5: sample_timer_enabled 0: no step. -/
theorem test_sample_tick_disabled : refusalOf .sampleTick State.reset = some .timerDisabled := by decide

/-- F5: run 1, current_sample -64: `PULL` returns it. -/
theorem test_pull_running :
    (after .pullSample ((playing 0x80#8 0#7 false true).onSeq fun q => { q with currentSample := 0xFFC0#16 })).map
      (·.result) = some (some (.sample 0xFFC0#16)) := by decide

/-- F5: run 0: `PULL` returns 0. -/
theorem test_pull_stopped :
    (after .pullSample (State.reset.onSeq fun q => { q with currentSample := 0xFFC0#16 })).map (·.result)
      = some (some (.sample 0#16)) := by decide

/-! ### The external interface (F8) -/

/-- F8: `O1 1`, `O2 1`, `O3 1` are stored. -/
theorem test_ptm_outputs : (after (.ptmO1 true) State.reset).map (fun t => (t.ptm.o1, t.ptm.o2)) = some (true, false)
    ∧ (after (.ptmO2 true) State.reset).map (fun t => (t.ptm.o2, t.ptm.o3)) = some (true, false)
    ∧ (after (.ptmO3 true) State.reset).map (fun t => (t.ptm.o3, t.ptm.o1)) = some (true, false) := by decide

/-- F8: `IRQIN 0, 1` raises the merged line and announces it. -/
theorem test_irq_rises : (after (.irqIn0 true) State.reset).map (fun t => (t.irq.in0, t.irq.out, t.outputs))
    = some (true, true, [.irq true]) := by decide

/-- F8: `IRQIN 4, 0` with source 0 still high: the merged line stays and nothing is announced. -/
theorem test_irq_held :
    (after (.irqIn4 false) (State.reset.onIrq fun q => { q with in0 := true, in4 := true, out := true })).map
      (fun t => (t.irq.in4, t.irq.out, t.outputs)) = some (false, true, []) := by decide

/-- F8: `IRQIN 1, 0`, the last source: the merged line falls. -/
theorem test_irq_falls :
    (after (.irqIn1 false) (State.reset.onIrq fun q => { q with in1 := true, out := true })).map
      (fun t => (t.irq.out, t.outputs)) = some (false, [.irq false]) := by decide

/-- R181: sources 2 and 3 are inputs of the merge too. -/
theorem test_irq_middle : (after (.irqIn2 true) State.reset).map (fun t => (t.irq.in2, t.irq.out)) = some (true, true)
    ∧ (after (.irqIn3 true) State.reset).map (fun t => (t.irq.in3, t.irq.out)) = some (true, true) := by decide

/-- F8: `SAVE` returns the image: lsb is its second value, msb its third, irq_out its last (R183: rule order). -/
theorem test_save : (after .save (loading 0x85#8 5#7)).map
      (fun t => match t.result with
        | some (.image img) => (img.length, img[1]?, img[2]?, img.getLast?)
        | _ => (0, none, none, none))
    = some (48, some (.num 5), some (.num 0x85), some (.num 0)) := by decide

/-- F8, R184: a `RESTORE` has no step without an image, with a wave RAM of one byte, or with a field in its place. -/
theorem test_restore_refused : refusalOf .restore State.reset = some .badImage
    ∧ refusalOf .restore { State.reset with carried := some (.ram [0#8] :: State.reset.image.drop 1) }
      = some .badImage
    ∧ refusalOf .restore { State.reset with carried := some (State.reset.image.drop 1) } = some .badImage := by
  decide

/-- R184: a `RESTORE` has no step with an incomplete image, and with one whose current_sample is not 0 while run is 0.
(Checking all 16384 bytes of an image is work for the kernel alone.) -/
theorem test_restore_inconsistent :
    refusalOf .restore { State.reset with carried := some (State.reset.image.take 47) } = some .badImage
      ∧ refusalOf .restore { State.reset with
          carried := some (State.reset.onSeq fun q => { q with currentSample := 1#16 }).image } = some .badImage := by
  decide +kernel

/-- F8: `RESET` from a playing state: the listed values; the wave RAM stays. -/
theorem test_reset : (after .reset (withByte 0x13F 0xC0#8 (playing 0xFF#8 70#7 true true))).map
      (fun t => (t.ram, t.seq.lsb, t.seq.msb, t.outputs)) = some ([(0x13F, 0xC0#8)], 0#7, 0x80#8, [])
    ∧ (after .reset (withByte 0x13F 0xC0#8 (playing 0xFF#8 70#7 true true))).map
      (fun t => (t.lines.run, t.ptm.gate1, t.eg.edivRate, t.eg.tri)) = some (false, true, 0x03#6, true) := by decide

/-! ### The step -/

/-- One delivered word is one step; the queue moves on. -/
theorem test_step : (nextOf (step (delivered [0x84000005#32, 0x81000000#32] State.reset))).map
      (fun t => (t.pins.ws, t.inputs.length)) = some (5#7, 1) := by decide

/-- The word put in front is the one the next step performs. -/
theorem test_withFetchWord :
    (nextOf (step ((delivered [0x81000000#32] State.reset).withFetchWord 32 0x84000005))).map
      (fun t => (t.pins.ws, t.lines.notLoad)) = some (5#7, true) := by decide

/-! ### Witnesses: concrete states and operands that meet the hypotheses of the statements, clause by clause -/

theorem witness_DecodeOfEncode : (Instr.pinWs 0x7F#7).wellFormed = true ∧ (Instr.ptmWr 7#3 0xFF#8).wellFormed = true
    ∧ (Instr.pinPitch 0).wellFormed = true ∧ (Instr.pinOctave 0).wellFormed = true := by decide

theorem witness_EncodeOfDecode : decode 0x57000000#32 = .ok (.ptmRd 7#3) := by decide

theorem witness_BusWordsAcceptedExactly :
    (bits 0x170000FF#32 31 31 = 0 ∧ bits 0x170000FF#32 28 24 = 0x17)
      ∧ (bits 0x58000000#32 31 31 = 0 ∧ bits 0x58000000#32 28 24 = 0x18) := by decide

theorem witness_StepPerformsTheDecodedWord :
    (delivered [0xC1000000#32] (playing 0x80#8 0#7 false true)).inputs = { word := 0xC1000000#32, image := none } :: []
      ∧ decode 0xC1000000#32 = .ok .sampleTick := by decide

/-- Both clauses: an empty queue, and a word that matches no row (offset 0x18). -/
theorem witness_NoStepWithoutAWellFormedWord :
    State.reset.inputs = []
      ∧ (delivered [0x18000000#32] State.reset).inputs = { word := 0x18000000#32, image := none } :: []
      ∧ (opcodeTable.all fun r => !r.admits 0x18000000#32) = true := by decide

theorem witness_EveryWordIsAcceptedInEveryState :
    (delivered [0x00000011#32] State.reset).inputs = { word := 0x00000011#32, image := none } :: []
      ∧ decode 0x00000011#32 = .ok (.waveWr 0x11#8) := by decide

theorem witness_timer_enabled : (playing 0x80#8 0#7 false true).ptm.sampleTimerEnabled = true
    ∧ State.reset.ptm.sampleTimerEnabled = false := by decide

theorem witness_WaveReadReturnsTheByteAndAdvances :
    ((loading 0x85#8 0#7).onSeq fun q => { q with newAddr := true }).seq.newAddr = true
      ∧ (loading 0x85#8 0#7).seq.newAddr = false := by decide

/-- A playing block at lsb 63 meets the invariant, and all three advancing instructions advance it. -/
theorem witness_RisingZeroCrossing :
    (playing 0x82#8 63#7 false true).Inv ∧ advances (.waveWr 0x12#8) (playing 0x82#8 63#7 false true)
      ∧ advances .waveRd (playing 0x82#8 63#7 false true) ∧ advances .sampleTick (playing 0x82#8 63#7 false true)
      ∧ (playing 0x82#8 63#7 false true).seq.lsb = 63#7 :=
  ⟨inv_of (by decide) rfl rfl (by decide), .inl ⟨_, rfl⟩, .inr (.inl ⟨rfl, rfl⟩), .inr (.inr ⟨rfl, rfl⟩), rfl⟩

theorem witness_FallingZeroCrossing :
    (loading 0x85#8 127#7).Inv ∧ advances (.waveWr 0x77#8) (loading 0x85#8 127#7)
      ∧ (loading 0x85#8 127#7).seq.lsb = 127#7 :=
  ⟨inv_of (by decide) rfl rfl (by decide), .inl ⟨_, rfl⟩, rfl⟩

/-- The values beside the crossings: 62, 64, 126 and 0. -/
theorem witness_AdvanceWithoutCrossing :
    (∀ l ∈ [62#7, 64#7, 126#7, 0#7], l ≠ 63#7 ∧ l ≠ 127#7) ∧ (loading 0x85#8 62#7).Inv ∧ (loading 0x85#8 64#7).Inv
      ∧ (loading 0x85#8 126#7).Inv ∧ (playing 0x85#8 0#7 true false).Inv
      ∧ advances (.waveWr 0#8) (loading 0x85#8 62#7) ∧ advances .sampleTick (playing 0x85#8 0#7 true false) :=
  ⟨by decide, inv_of (by decide) rfl rfl (by decide), inv_of (by decide) rfl rfl (by decide),
    inv_of (by decide) rfl rfl (by decide), inv_of (by decide) rfl rfl (by decide), .inl ⟨_, rfl⟩, .inr (.inr ⟨rfl, rfl⟩)⟩

theorem witness_DataPortUnderLoadIsOneCounter :
    (loading 0xFF#8 127#7).Inv ∧ (loading 0xFF#8 127#7).lines.notLoad = false
      ∧ (loading 0xFF#8 127#7).lines.run = false :=
  ⟨inv_of (by decide) rfl rfl (by decide), rfl, rfl⟩

/-- With and without the permission. -/
theorem witness_DirectionSelect :
    State.reset.Inv ∧ State.reset.lines.permitEload = false
      ∧ (playing 0x80#8 0#7 true false).Inv ∧ (playing 0x80#8 0#7 true false).lines.permitEload = true :=
  ⟨inv_of (by decide) rfl rfl (by decide), rfl, inv_of (by decide) rfl rfl (by decide), rfl⟩

theorem witness_UndecodedAccessesChangeNothing : ((Instr.unkWr7 0x55#8) = .unkWr1 0x55#8
      ∨ (Instr.unkWr7 0x55#8) = .unkWr2 0x55#8 ∨ (Instr.unkWr7 0x55#8) = .unkWr7 0x55#8)
    ∧ (Instr.fltRd = .unkRd1 ∨ Instr.fltRd = .unkRd2 ∨ Instr.fltRd = .unkRd7 ∨ Instr.fltRd = .fltRd) := by decide

/-- Stopped at lsb 0 and at lsb 70 under load: with and without a zero crossing in the strobe. -/
theorem witness_RunRises : State.reset.Inv ∧ State.reset.lines.run = false
    ∧ (loading 0x80#8 70#7).Inv ∧ (loading 0x80#8 70#7).lines.run = false :=
  ⟨inv_of (by decide) rfl rfl (by decide), rfl, inv_of (by decide) rfl rfl (by decide), rfl⟩

/-- Playing with and without the flip-flop and the permission. -/
theorem witness_RunFalls : (playing 0x80#8 70#7 true false).Inv ∧ (playing 0x80#8 70#7 true false).lines.run = true
    ∧ (playing 0x80#8 0#7 false true).Inv ∧ (playing 0x80#8 0#7 false true).lines.run = true :=
  ⟨inv_of (by decide) rfl rfl (by decide), rfl, inv_of (by decide) rfl rfl (by decide), rfl⟩

/-- Both directions of the load pin, the second at lsb 70 with the timer line high. -/
theorem witness_LoadPinChangeStrobes : State.reset.Inv ∧ false ≠ State.reset.lines.notLoad
    ∧ (loading 0x80#8 70#7).Inv ∧ true ≠ (loading 0x80#8 70#7).lines.notLoad :=
  ⟨inv_of (by decide) rfl rfl (by decide), by decide, inv_of (by decide) rfl rfl (by decide), by decide⟩

/-- With and without gzx. -/
theorem witness_EnvelopeLoadPin : (playing 0x80#8 0#7 true true).Inv ∧ (playing 0x80#8 0#7 true true).lines.gzx = true
    ∧ State.reset.Inv ∧ State.reset.lines.gzx = false :=
  ⟨inv_of (by decide) rfl rfl (by decide), rfl, inv_of (by decide) rfl rfl (by decide), rfl⟩

/-- An envelope that a clock moves, and one that tri halts, both in states that meet the invariant. -/
theorem witness_EnvelopeClockInput : (withEnvelope 0xFE#8 .up false State.reset).Inv
    ∧ (withEnvelope 0xFE#8 .up false State.reset).eg.tri = false
    ∧ (withEnvelope 0xFF#8 .up true State.reset).Inv ∧ (withEnvelope 0xFF#8 .up true State.reset).eg.tri = true :=
  ⟨inv_of (by decide) rfl rfl (by decide), by decide, inv_of (by decide) rfl rfl (by decide), by decide⟩

theorem witness_DividerTick : (withEnvelope 0x10#8 .up false (loading 0x80#8 0#7)).Inv
    ∧ (withEnvelope 0x10#8 .up false (loading 0x80#8 0#7)).eg.tri = false :=
  ⟨inv_of (by decide) rfl rfl (by decide), by decide⟩

/-- One step up, one step down, and none. -/
theorem witness_EnvelopeNeverWraps :
    (withEnvelope 0xFE#8 .up false State.reset).Inv ∧ (withEnvelope 0x01#8 .down false State.reset).Inv
      ∧ (after (.eclk true) (withEnvelope 0xFE#8 .up false State.reset)).map (·.eg.env) = some 0xFF#8
      ∧ (after (.eclk true) (withEnvelope 0x01#8 .down false State.reset)).map (·.eg.env) = some 0x00#8
      ∧ (after (.eclk false) (withEnvelope 0x01#8 .down false State.reset)).map (·.eg.env) = some 0x01#8 :=
  ⟨inv_of (by decide) rfl rfl (by decide), inv_of (by decide) rfl rfl (by decide), by decide, by decide, by decide⟩

/-- A step that emits the pulse. -/
theorem witness_ZeroCrossingInterruptIsAPulse :
    (after (.waveWr 0x12#8) (playing 0x84#8 63#7 false true)).map (·.outputs)
      = some [.zxOut true, .zcint true, .zcint false] := by decide

theorem witness_RestoreOfSaveIsIdentity :
    (playing 0x80#8 70#7 true false).Inv
      ∧ { State.reset with carried := some (playing 0x80#8 70#7 true false).image }.carried
        = some (playing 0x80#8 70#7 true false).toBlock.image :=
  ⟨inv_of (by decide) rfl rfl (by decide), rfl⟩

/-- Each clause: the reset state and its image, a restore of it that has a next state, and a word with no image beside
it, which is no state's image. -/
theorem witness_RestoreLoadsOnlyConsistentImages :
    State.reset.Inv ∧ (∃ u : State, u.carried = some State.reset.toBlock.image ∧ ∃ t, exec .restore u = .next t)
      ∧ ∀ s : State, s.Inv → (none : Option Image) ≠ some s.toBlock.image :=
  have h : State.reset.Inv := inv_of (by decide) rfl rfl (by decide)
  ⟨h, ⟨{ State.reset with carried := some State.reset.toBlock.image }, rfl, execRestore_accepts rfl h⟩,
    fun _ _ he => by simp at he⟩

theorem witness_IncompleteWaveRamIsRefused :
    { State.reset with carried := some [.ram [0#8]] }.carried = some (.ram [0#8] :: []) ∧ [0#8].length ≠ 16384 :=
  ⟨rfl, by decide⟩

theorem witness_StepKeepsTheInvariant : (delivered [0x83000000#32] State.reset).Inv
    ∧ (nextOf (step (delivered [0x83000000#32] State.reset))).map (·.lines.notEload) = some false :=
  ⟨inv_of (by decide) rfl rfl (by decide), by decide⟩

/-- Two inputs delivered to the reset state, one performed. -/
theorem witness_ReachableStatesMeetTheInvariant :
    ∃ t, Reaches State.reset t ∧ t.pins.ws = 5#7 ∧ t.inputs.length = 1 := by
  refine ⟨_, .step (.deliver [{ word := 0x84000005#32, image := none }, { word := 0x81000000#32, image := none }]
    (.refl State.reset)) rfl, rfl, rfl⟩

theorem witness_EachFieldHasItsWriters : (after (.pinRun true) State.reset).isSome = true
    ∧ Instr.pinRun true ≠ .reset ∧ Instr.pinRun true ≠ .restore := by decide

/-- A data port write that emits a level change, and is neither RESET nor RESTORE. -/
theorem witness_EventsAnnounceEveryOutputLevel :
    (after (.waveWr 0x77#8) (loading 0x85#8 127#7)).map (·.outputs) = some [.zxOut false, .ptmC1 false]
      ∧ Instr.waveWr 0x77#8 ≠ .reset ∧ Instr.waveWr 0x77#8 ≠ .restore := by decide

/-- An address beside the one written: the wave address of reset is 0. -/
theorem witness_WaveWriteStoresOneByteAndAdvances : (1#14 : BitVec 14) ≠ State.reset.addr := by decide

theorem witness_UnreadFieldsReachNothing : (after (.fltWr 1#8) State.reset).isSome = true
    ∧ Instr.fltWr 1#8 ≠ .save := by decide

/-- A run change and a load pin change that have a next state. -/
theorem witness_ReadAfterStrobeDuplicates : State.reset.Inv ∧ true ≠ State.reset.lines.run
    ∧ false ≠ State.reset.lines.notLoad ∧ (after (.pinRun true) State.reset).isSome = true
    ∧ (after (.pinNotLoad false) State.reset).isSome = true :=
  ⟨inv_of (by decide) rfl rfl (by decide), by decide, by decide, by decide, by decide⟩

theorem witness_StoppedBlockIsSilentAndWakes : (loading 0x80#8 70#7).Inv ∧ (loading 0x80#8 70#7).lines.run = false
    ∧ Instr.waveRd ≠ .sampleTick ∧ Instr.waveRd ≠ .restore :=
  ⟨inv_of (by decide) rfl rfl (by decide), by decide, by decide, by decide⟩

end Sys2Proof.Tests
end

section
/-! What a step does on a delivered word that decodes (R7, R80). -/

namespace Sys2Proof.Machine

/-- The decoded instruction is performed in the state the step begins in (R7, R85). -/
theorem step_of_decode {s : State} {inp : Input} {rest : List Input} {i : Instr}
    (hin : s.inputs = inp :: rest) (hdec : decode inp.word = .ok i) :
    step s = exec i (s.beginStep inp rest) := by
  rw [step_cons hin, hdec]

/-- Settles O7: the word at the head of the queue is performed by `step_of_decode`, and the state the step begins in
is by definition the one the statement writes out. -/
theorem stepPerformsTheDecodedWord : Obligations.StepPerformsTheDecodedWord := by
  intro s inp rest i hin hdec
  exact step_of_decode hin hdec

end Sys2Proof.Machine
end

section
/-! What an instruction can do, said once: every next state of `exec` falls under one of the cases of `Effect`. -/

namespace Sys2Proof.Machine

/-- The event announces an access to an outside agent, or is the diagnostic one (R169 to R176): no output level of the
block. -/
def OutEvent.isAccess : OutEvent → Bool
  | .piaWr .. | .piaRd .. | .ptmWr .. | .ptmRd .. | .diagUnknown .. => true
  | _ => false

/-- What an instruction other than RESET and RESTORE has done when it leads from `s` to `t`: the instructions with the
same meaning stand in one case, and the result value is left open. -/
inductive Effect (s : State) : Instr → State → Prop where
  /-- The block is unchanged and nothing is emitted (R132, R166, R183). -/
  | quiet {i : Instr} {t : State} (hb : t.toBlock = s.toBlock) (ho : t.outputs = s.outputs) : Effect s i t
  /-- The block is unchanged and an access is announced (R168 to R176). -/
  | access {i : Instr} {t : State} (e : OutEvent) (he : e.isAccess = true) (hb : t.toBlock = s.toBlock)
      (ho : t.outputs = s.outputs ++ [e]) : Effect s i t
  /-- WAVE_WR (R161). -/
  | waveWrite (d : Byte) : Effect s (.waveWr d) (advance (s.waveWrite d))
  /-- WAVE_RD (R162). -/
  | waveRead (r : Result) : Effect s .waveRd ((afterWaveRead s).withResult r)
  /-- Offsets 3 and 4 (R163, R164). -/
  | select {i : Instr} {t : State} (d : EnvDir)
      (hi : i = .envdnRd ∨ i = .envupRd ∨ ∃ b, i = .envdnWr b ∨ i = .envupWr b)
      (hb : t.toBlock = (selectDirection d s).toBlock) (ho : t.outputs = s.outputs) : Effect s i t
  /-- VOL_WR (R165). -/
  | volume (d : Byte) : Effect s (.volWr d) (s.onLatches fun l => { l with volLatch := d })
  /-- FLT_WR (R167). -/
  | filter (d : Byte) : Effect s (.fltWr d) (s.onLatches fun l => { l with fltLatch := d })
  /-- PIN_RUN (R143). -/
  | run (v : Bool) : Effect s (.pinRun v) (setRun v s)
  /-- PIN_NOT_LOAD (R142). -/
  | notLoad (v : Bool) : Effect s (.pinNotLoad v) (setNotLoad v s)
  /-- PIN_NOT_WPE (R149). -/
  | notWpe (v : Bool) : Effect s (.pinNotWpe v) (setNotWpe v s)
  /-- PIN_NOT_ELOAD (R148). -/
  | notEload (v : Bool) : Effect s (.pinNotEload v) (setNotEload v s)
  /-- PIN_WS (R150). -/
  | ws (v : BitVec 7) : Effect s (.pinWs v) (s.onPins fun p => { p with ws := v })
  /-- PIN_PITCH (R151). -/
  | pitch (v : Nat) : Effect s (.pinPitch v) (setPitch v s)
  /-- PIN_OCTAVE (R151). -/
  | octave (v : Nat) : Effect s (.pinOctave v) (setOctave v s)
  /-- ECLK (R117). -/
  | eclk (v : Bool) : Effect s (.eclk v) (setEclk v s)
  /-- DIV_TICK (R102). -/
  | divTick : Effect s .divTick (tickDivider s)
  /-- PTM_O1 (R180). -/
  | ptmO1 (v : Bool) : Effect s (.ptmO1 v) (s.onPtm fun p => { p with o1 := v })
  /-- PTM_O2 (R180). -/
  | ptmO2 (v : Bool) : Effect s (.ptmO2 v) (s.onPtm fun p => { p with o2 := v })
  /-- PTM_O3 (R180). -/
  | ptmO3 (v : Bool) : Effect s (.ptmO3 v) (s.onPtm fun p => { p with o3 := v })
  /-- IRQ_IN0 to IRQ_IN4 (R181): a source takes its level, then the merge. -/
  | interrupt {i : Instr} (f : IrqLines → IrqLines)
      (hi : ∃ v, i = .irqIn0 v ∨ i = .irqIn1 v ∨ i = .irqIn2 v ∨ i = .irqIn3 v ∨ i = .irqIn4 v)
      (hf : (f s.irq).out = s.irq.out) : Effect s i (mergeIrq (s.onIrq f))
  /-- SAMPLE_TICK (R130): there is a step only while the timer is enabled. -/
  | sampleTick (hen : s.ptm.sampleTimerEnabled = true) : Effect s .sampleTick (sampleTick s)

/-- A sample tick has a next state exactly while the timer is enabled (R130). -/
theorem execSampleTick_eq_next {s t : State} :
    execSampleTick s = .next t ↔ s.ptm.sampleTimerEnabled = true ∧ t = sampleTick s := by
  unfold execSampleTick
  split
  · rename_i hen
    simp [hen, eq_comm (a := t)]
  · rename_i hen
    simp [hen]

/-- A restore has a next state exactly when the carried image can be restored, and loads its block (R184). -/
theorem execRestore_eq_next {s t : State} :
    execRestore s = .next t ↔ ∃ b, restorable s.carried = some b ∧ t = { s with toBlock := b } := by
  unfold execRestore
  split
  · rename_i hr
    simp [hr]
  · rename_i b hr
    simp [hr, eq_comm (a := t)]

/-- Every next state of an instruction other than RESET and RESTORE is one of the effects (R7). -/
theorem exec_effect {i : Instr} {s t : State} (h : exec i s = .next t) (hreset : i ≠ .reset)
    (hrestore : i ≠ .restore) : Effect s i t := by
  cases i with
  | reset => exact absurd rfl hreset
  | restore => exact absurd rfl hrestore
  | sampleTick =>
    obtain ⟨hen, rfl⟩ := execSampleTick_eq_next.1 h
    exact .sampleTick hen
  | waveWr d => cases h; exact .waveWrite d
  | waveRd => cases h; exact .waveRead _
  | envdnWr d => cases h; exact .select .down (.inr (.inr ⟨d, .inl rfl⟩)) rfl (by simp)
  | envdnRd => cases h; exact .select .down (.inl rfl) rfl (by simp)
  | envupWr d => cases h; exact .select .up (.inr (.inr ⟨d, .inr rfl⟩)) rfl (by simp)
  | envupRd => cases h; exact .select .up (.inr (.inl rfl)) rfl (by simp)
  | volWr d => cases h; exact .volume d
  | fltWr d => cases h; exact .filter d
  | volRd | pullSample | save => cases h; exact .quiet rfl rfl
  | fltRd | unkRd1 | unkRd2 | unkRd7 | unkWr1 | unkWr2 | unkWr7 | pia0Wr | pia1Wr | ptmWr | pia0Rd | pia1Rd
  | ptmRd => cases h; exact .access _ rfl rfl rfl
  | pinRun v => cases h; exact .run v
  | pinNotLoad v => cases h; exact .notLoad v
  | pinNotWpe v => cases h; exact .notWpe v
  | pinNotEload v => cases h; exact .notEload v
  | pinWs v => cases h; exact .ws v
  | pinPitch v => cases h; exact .pitch v
  | pinOctave v => cases h; exact .octave v
  | eclk v => cases h; exact .eclk v
  | divTick => cases h; exact .divTick
  | ptmO1 v => cases h; exact .ptmO1 v
  | ptmO2 v => cases h; exact .ptmO2 v
  | ptmO3 v => cases h; exact .ptmO3 v
  | irqIn0 v | irqIn1 v | irqIn2 v | irqIn3 v | irqIn4 v =>
    cases h
    exact .interrupt _ ⟨v, by simp⟩ rfl

end Sys2Proof.Machine
end

section
/-! "Written only by" (R11 to R13, R15 to R49): which instructions can change each field. -/

namespace Sys2Proof.Machine

/-- A direction move changes the selector and tri only with the direction. -/
theorem DirectionMove.selector {a b : EnvGen} (h : DirectionMove a b) :
    b.edivRate = a.edivRate ∧ b.tri = a.tri ∨ ¬b.envDir = a.envDir := by
  rcases h.derived with hsame | henv | hdir
  · exact .inl hsame
  · exact absurd h.1 henv
  · exact .inr hdir

/-- A read that finds new_addr pending clears it and does not advance (R162). -/
theorem afterWaveRead_of_pending {s : State} (h : s.seq.newAddr = true) :
    afterWaveRead s = s.onSeq fun q => { q with newAddr := false } := by
  simp [afterWaveRead, h]

/-- A read with no new_addr pending advances (R162). -/
theorem afterWaveRead_of_clear {s : State} (h : s.seq.newAddr = false) : afterWaveRead s = advance s := by
  simp [afterWaveRead, h]

theorem advance_move (s : State) : DirectionMove s.eg (advance s).eg := setLsb_move ..

theorem sampleTick_move (s : State) : DirectionMove s.eg (sampleTick s).eg := setLsb_move ..

/-- A run rise leaves the sample path alone (R143). -/
theorem setRun_true_sample (s : State) :
    (setRun true s).seq.waveByte = s.seq.waveByte ∧ (setRun true s).seq.currentSample = s.seq.currentSample := by
  unfold setRun
  split <;> simp [startRun_eq]

/-- The envelope clock input reaches the envelope's value and clock, and no other input of it (R117). -/
@[simp] theorem setEclk_egFrame (v : Bool) (s : State) :
    (setEclk v s).eg.envDir = s.eg.envDir ∧ (setEclk v s).eg.envDirCtrl = s.eg.envDirCtrl
      ∧ (setEclk v s).eg.edivCount = s.eg.edivCount ∧ (setEclk v s).eg.edivOut = s.eg.edivOut := by
  unfold setEclk
  split <;> simp

/-- The divider tick leaves the direction, its control latch and the clock input alone (R102). -/
@[simp] theorem tickDivider_egFrame (s : State) :
    (tickDivider s).eg.envDir = s.eg.envDir ∧ (tickDivider s).eg.envDirCtrl = s.eg.envDirCtrl
      ∧ (tickDivider s).eg.eclk = s.eg.eclk := by
  simp only [tickDivider, setEdivOut]
  split <;> simp

/-- Settles O48: each effect leaves alone every field it is not named beside. -/
theorem eachFieldHasItsWriters : Obligations.EachFieldHasItsWriters := by
  intro s t i h hreset hrestore
  cases exec_effect h hreset hrestore with
  | quiet hb ho => simp [hb]
  | access e he hb ho => simp [hb]
  | waveWrite d =>
    have hd : DirectionMove s.eg (advance (s.waveWrite d)).eg := setLsb_move ..
    simp [advances, hd.selector]
  | waveRead r =>
    cases hn : s.seq.newAddr with
    | true => simp [afterWaveRead_of_pending hn]
    | false => simp [afterWaveRead_of_clear hn, advances, hn, (advance_move s).selector]
  | select d hi hb ho =>
    have hd : DirectionMove { s.eg with envDirCtrl := d } (selectDirection d s).eg := selectDirection_move d s
    simp [hb, hi, hd.selector]
  | volume d => simp
  | filter d => simp
  | run v =>
    have hd := (setRun_move v s).selector
    cases v with
    | true => simp [hd, setRun_true_sample]
    | false => simp [hd]
  | notLoad v => simp [setNotLoad_derived v s]
  | notWpe v => simp [setNotWpe_eq]
  | notEload v =>
    obtain ⟨p, hl⟩ := setNotEload_lines v s
    simp [hl, (setNotEload_move v s).selector]
  | ws v => simp
  | pitch v => simp
  | octave v => simp
  | eclk v =>
    rcases setEclk_derives v s with hd | hd <;> simp [hd]
  | divTick =>
    rcases tickDivider_derives s with hd | hd <;> simp [hd]
  | ptmO1 v => simp
  | ptmO2 v => simp
  | ptmO3 v => simp
  | interrupt f hi hf => simp [mergeIrq_eq, hi]
  | sampleTick hen => simp [advances, hen, (sampleTick_move s).selector]

end Sys2Proof.Machine
end

section
/-! The invariant of R51: it holds at reset, and every step keeps it. -/

namespace Sys2Proof.Machine

/-! ### What is well typed -/

/-- Well-typedness reads the wave RAM, the pitch and the octave only. -/
theorem Block.WellTyped.congr {a b : Block} (h : a.WellTyped) (hram : b.ram = a.ram)
    (hpitch : b.pins.pitch = a.pins.pitch) (hoctave : b.pins.octave = a.pins.octave) : b.WellTyped :=
  ⟨hram ▸ h.ram, hpitch ▸ h.pitch, hoctave ▸ h.octave⟩

/-- An accepted word's instruction carries a payload that fits its width (R85). -/
theorem decode_wellFormed {w : Word} {i : Instr} (h : decode w = .ok i) : i.wellFormed = true := by
  simp only [decode, decodeBus, decodeEvent, Bool.false_eq_true, if_false, if_true] at h
  split_ifs at h
  · exact (decodeBusWrite_ok h).2.1
  · exact (decodeBusRead_ok h).2.1
  · exact (decodeInputEvent_ok h).1
  · exact (decodeHostEvent_ok h).2.1

/-! ### Three ways the relations are settled again -/

/-- A permitted direction has been applied to an envelope generator whose derived values are current (R118). -/
theorem permitted_quiescent {t : State} {e : EnvGen} {d : EnvDir} (hz : t.toBlock.ZeroCrossingSettled)
    (hg : t.toBlock.GatesSettled) (hr : t.toBlock.RunSettled) (he : e.Derived) (hd : d = e.envDirCtrl)
    (hc : e.envClk = envClkOf t.lines.notLoad e.eclk e.edivOut)
    (heg : t.eg = if t.lines.permitEload then e.withDir d else e) : t.toBlock.Quiescent := by
  have ⟨_, _, _, hpermit⟩ := hg
  have hframe : DirectionFrame e t.eg := by
    rw [heg]
    split <;> simp
  obtain ⟨-, hctrl, -, -, hdiv, heclk, hclk⟩ := hframe
  refine quiescent_iff.2 ⟨hz, hg, ⟨hpermit, fun hpe => ?_, ?_⟩, by rw [hclk, heclk, hdiv, hc], hr⟩
  · rw [hctrl, ← hd, heg, if_pos hpe]
    rfl
  · rw [heg]
    split
    · exact EnvGen.withDir_derived ..
    · exact he

/-- The composite clock has taken its formula's level (R115, R116). -/
theorem clocked_quiescent {t : State} {e : EnvGen} {clk : Bool} (hz : t.toBlock.ZeroCrossingSettled)
    (hg : t.toBlock.GatesSettled) (hr : t.toBlock.RunSettled) (he : e.Derived)
    (happlied : t.lines.permitEload = true → e.envDir = e.envDirCtrl)
    (hc : clk = envClkOf t.lines.notLoad e.eclk e.edivOut) (heg : t.eg = e.afterEnvClk clk) :
    t.toBlock.Quiescent := by
  have ⟨_, _, _, hpermit⟩ := hg
  refine quiescent_iff.2 ⟨hz, hg, ⟨hpermit, ?_, ?_⟩, ?_, hr⟩
  · simpa [heg] using happlied
  · rw [heg]
    exact EnvGen.afterEnvClk_derived he clk
  · simpa [heg] using hc

/-- A strobe has run (R134), and the composite clock and the run lines are current. -/
theorem strobed_quiescent {s t : State} (hp : PermissionSettled s) (hr : s.lines.notRstb = true)
    (hlsb : t.seq.lsb = 0#7) (heg : t.eg = s.eg.afterStrobe s.lines.notEload)
    (hlow : t.lines.zx = false ∧ t.lines.zxFfClk = false ∧ t.lines.msbClk = false ∧ t.lines.ptmC1 = false)
    (hgates : t.lines.notRstb = s.lines.notRstb ∧ t.lines.gzx = t.lines.zxFf ∧ t.lines.upperLoad = t.lines.zxFf
      ∧ t.lines.permitEload = (t.lines.zxFf && !s.lines.notEload) ∧ t.lines.notEload = s.lines.notEload)
    (hc : t.eg.envClk = envClkOf t.lines.notLoad t.eg.eclk t.eg.edivOut) (hrun : t.toBlock.RunSettled) :
    t.toBlock.Quiescent := by
  obtain ⟨hz, hg, hp'⟩ := afterStrobe_quiescent hp hr hlsb heg hlow hgates
  exact quiescent_iff.2 ⟨hz, hg, hp', hc, hrun⟩

/-! ### Operations that keep the relations -/

section Quiescent
variable {s : State} (h : s.toBlock.Quiescent)
include h

theorem waveWrite_quiescent (v : Byte) : (advance (s.waveWrite v)).toBlock.Quiescent := by
  obtain ⟨hz, hg, hp, hc, hr⟩ := quiescent_iff.1 h
  exact advance_quiescent hz hg ⟨hp.permit, hp.applied, hp.derived⟩ hc hr

theorem afterWaveRead_quiescent : (afterWaveRead s).toBlock.Quiescent := by
  obtain ⟨hz, hg, hp, hc, hr⟩ := quiescent_iff.1 h
  cases hn : s.seq.newAddr with
  | true => rw [afterWaveRead_of_pending hn]; exact h
  | false => rw [afterWaveRead_of_clear hn]; exact advance_quiescent hz hg hp hc hr

/-- While the timer is enabled run is high, so the sample path is free (R130, R51). -/
theorem sampleTick_quiescent (hen : s.ptm.sampleTimerEnabled = true) : (sampleTick s).toBlock.Quiescent := by
  obtain ⟨hz, hg, hp, hc, hx, ht, -, hq⟩ := quiescent_iff.1 h
  have hrun : s.lines.run = true := ht ▸ hen
  have hadv := advance_quiescent (s := s.onSeq fun q => { q with waveByte := s.waveRead }) hz hg
    ⟨hp.permit, hp.applied, hp.derived⟩ hc ⟨hx, ht, by simp [hrun], hq⟩
  obtain ⟨hz, hg, hp, hc, hx, ht, -, hq⟩ := quiescent_iff.1 hadv
  exact quiescent_iff.2 ⟨hz, hg, ⟨hp.permit, hp.applied, hp.derived⟩, hc, hx, ht, by simp [hrun], hq⟩

theorem selectDirection_quiescent (d : EnvDir) : (selectDirection d s).toBlock.Quiescent := by
  obtain ⟨hz, hg, hp, hc, hr⟩ := quiescent_iff.1 h
  rw [selectDirection, permitted_select_eq d hp.derived]
  exact permitted_quiescent (e := { s.eg with envDirCtrl := d }) hz hg hr hp.derived rfl hc rfl

theorem setNotEload_quiescent (v : Bool) : (setNotEload v s).toBlock.Quiescent := by
  obtain ⟨hz, ⟨hstrobe, hgzx, hupper, -⟩, hp, hc, hr⟩ := quiescent_iff.1 h
  rw [setNotEload_eq v h]
  exact permitted_quiescent hz ⟨hstrobe, hgzx, hupper, rfl⟩ hr hp.derived rfl hc rfl

theorem setEclk_quiescent (v : Bool) : (setEclk v s).toBlock.Quiescent := by
  obtain ⟨hz, hg, hp, hc, hr⟩ := quiescent_iff.1 h
  rw [setEclk_eq v hc]
  exact clocked_quiescent (e := { s.eg with eclk := v }) hz hg hr hp.derived hp.applied rfl rfl

theorem setEdivOut_quiescent (v : Bool) : (setEdivOut v s).toBlock.Quiescent := by
  obtain ⟨hz, hg, hp, hc, hr⟩ := quiescent_iff.1 h
  rw [setEdivOut_eq v hc]
  exact clocked_quiescent (e := { s.eg with edivOut := v }) hz hg hr hp.derived hp.applied rfl rfl

theorem tickDivider_quiescent : (tickDivider s).toBlock.Quiescent :=
  setEdivOut_quiescent (s := s.onEg fun e => { e with edivCount := e.edivCount + 1 }) h _

theorem setRun_quiescent (v : Bool) : (setRun v s).toBlock.Quiescent := by
  by_cases hv : v = s.lines.run
  · rw [setRun, if_pos hv]; exact h
  obtain ⟨-, ⟨hstrobe, -⟩, hp, hc, hx, -, -, hq⟩ := quiescent_iff.1 h
  cases v with
  | true =>
    have hr : s.lines.run = false := by simpa using Ne.symm hv
    rw [setRun_rise h hr]
    refine strobed_quiescent hp hstrobe rfl rfl ⟨rfl, rfl, rfl, rfl⟩ ⟨rfl, rfl, rfl, rfl, rfl⟩ ?_ ⟨?_, rfl, ?_, hq⟩
    · simpa [Lines.afterStrobe] using hc
    · simp [Lines.afterStrobe, hx, rstbXOf, hr]
    · simp
  | false =>
    have hr : s.lines.run = true := by simpa using Ne.symm hv
    rw [setRun_fall h hr]
    refine strobed_quiescent hp hstrobe rfl rfl ⟨rfl, rfl, rfl, rfl⟩ ⟨rfl, rfl, rfl, rfl, rfl⟩ ?_ ⟨?_, rfl, ?_, hq⟩
    · simpa [Lines.afterStrobe] using hc
    · simp [Lines.afterStrobe, hx, rstbXOf, hr]
    · simp

theorem setNotLoad_quiescent (v : Bool) : (setNotLoad v s).toBlock.Quiescent := by
  by_cases hv : v = s.lines.notLoad
  · rw [setNotLoad, if_pos hv]; exact h
  obtain ⟨-, ⟨hstrobe, -⟩, hp, -, hx, ht, hn, hq⟩ := quiescent_iff.1 h
  have hx' : (!s.lines.rstbX) = rstbXOf s.lines.run v := by
    rw [hx]
    cases v <;> simp_all [rstbXOf]
  obtain ⟨hz', hg', hp'⟩ := afterStrobe_quiescent (t := { s with
      seq := s.seq.afterStrobe s.pins.ws
      eg := s.eg.afterStrobe s.lines.notEload
      lines := { s.lines.afterStrobe with notLoad := v, rstbX := !s.lines.rstbX } })
    hp hstrobe rfl rfl ⟨rfl, rfl, rfl, rfl⟩ ⟨rfl, rfl, rfl, rfl, rfl⟩
  rw [setNotLoad_change h hv]
  exact clocked_quiescent hz' hg' ⟨hx', ht, hn, hq⟩ hp'.derived hp'.applied (by simp) rfl

theorem mergeIrq_quiescent (f : IrqLines → IrqLines) : (mergeIrq (s.onIrq f)).toBlock.Quiescent := by
  obtain ⟨hz, hg, hp, hc, hx, ht, hn, -⟩ := quiescent_iff.1 h
  rw [mergeIrq_eq]
  exact quiescent_iff.2 ⟨hz, hg, ⟨hp.permit, hp.applied, hp.derived⟩, hc, hx, ht, hn, rfl⟩

end Quiescent

/-! ### The invariant -/

/-- An unchanged block meets the invariant as before. -/
theorem State.Inv.of_block_eq {s t : State} (h : s.Inv) (hb : t.toBlock = s.toBlock) : t.Inv :=
  ⟨hb ▸ h.wellTyped, hb ▸ h.quiescent⟩

/-- Every effect of a well-formed instruction keeps the invariant. -/
theorem Effect.inv {i : Instr} {s t : State} (he : Effect s i t) (hw : i.wellFormed = true) (h : s.Inv) : t.Inv := by
  obtain ⟨hwt, hq⟩ := h
  cases he with
  | quiet hb ho => exact .of_block_eq ⟨hwt, hq⟩ hb
  | access e he hb ho => exact .of_block_eq ⟨hwt, hq⟩ hb
  | waveWrite d =>
    exact ⟨⟨by simpa using Memory.write_wf s.addr d hwt.ram, by simpa using hwt.pitch, by simpa using hwt.octave⟩,
      waveWrite_quiescent hq d⟩
  | waveRead r => exact ⟨hwt.congr (by simp) (by simp) (by simp), afterWaveRead_quiescent hq⟩
  | select d hi hb ho =>
    exact ⟨hwt.congr (by simp [hb]) (by simp [hb]) (by simp [hb]), by rw [hb]; exact selectDirection_quiescent hq d⟩
  | volume d => exact ⟨hwt.congr rfl rfl rfl, hq⟩
  | filter d => exact ⟨hwt.congr rfl rfl rfl, hq⟩
  | run v => exact ⟨hwt.congr (by simp) (by simp) (by simp), setRun_quiescent hq v⟩
  | notLoad v => exact ⟨hwt.congr (by simp) (by simp) (by simp), setNotLoad_quiescent hq v⟩
  | notWpe v =>
    rw [setNotWpe_eq]
    exact ⟨hwt.congr rfl rfl rfl, hq⟩
  | notEload v => exact ⟨hwt.congr (by simp) (by simp) (by simp), setNotEload_quiescent hq v⟩
  | ws v => exact ⟨hwt.congr rfl rfl rfl, hq⟩
  | pitch v =>
    exact ⟨⟨by simpa using hwt.ram, by simpa [Instr.wellFormed] using hw, by simpa using hwt.octave⟩, by simpa using hq⟩
  | octave v =>
    exact ⟨⟨by simpa using hwt.ram, by simpa using hwt.pitch, by simpa [Instr.wellFormed] using hw⟩, by simpa using hq⟩
  | eclk v => exact ⟨hwt.congr (by simp) (by simp) (by simp), setEclk_quiescent hq v⟩
  | divTick => exact ⟨hwt.congr (by simp) (by simp) (by simp), tickDivider_quiescent hq⟩
  | ptmO1 v => exact ⟨hwt.congr rfl rfl rfl, hq⟩
  | ptmO2 v => exact ⟨hwt.congr rfl rfl rfl, hq⟩
  | ptmO3 v => exact ⟨hwt.congr rfl rfl rfl, hq⟩
  | interrupt f hi hf =>
    exact ⟨hwt.congr (by simp [mergeIrq_eq]) (by simp [mergeIrq_eq]) (by simp [mergeIrq_eq]), mergeIrq_quiescent hq f⟩
  | sampleTick hen => exact ⟨hwt.congr (by simp) (by simp) (by simp), sampleTick_quiescent hq hen⟩

/-- The reset values meet the relations of R51, with any wave RAM (R220). -/
theorem Block.reset_quiescent (m : Memory) : Block.Quiescent { Block.reset with ram := m } := by
  have h : Block.reset.Quiescent := by decide
  exact h.congr rfl rfl rfl rfl rfl

/-- The reset values are well typed with any wave RAM in its canonical form (R220, R221). -/
theorem Block.reset_wellTyped {m : Memory} (hm : m.wf) : Block.WellTyped { Block.reset with ram := m } :=
  ⟨hm, rfl, rfl⟩

/-- Settles O45: the reset values by evaluation, and no wave RAM byte is written yet. -/
theorem resetStateMeetsTheInvariant : Obligations.ResetStateMeetsTheInvariant :=
  ⟨Block.reset_wellTyped State.reset_ram_wf, Block.reset_quiescent []⟩

/-- Every well-formed instruction keeps the invariant. -/
theorem exec_inv {i : Instr} {s t : State} (hw : i.wellFormed = true) (h : s.Inv) (he : exec i s = .next t) :
    t.Inv := by
  by_cases hreset : i = .reset
  · subst hreset
    cases he
    exact ⟨Block.reset_wellTyped h.wellTyped.ram, Block.reset_quiescent s.ram⟩
  by_cases hrestore : i = .restore
  · subst hrestore
    obtain ⟨b, -, hwt, hq, rfl⟩ := execRestore_next he
    exact ⟨hwt, hq⟩
  exact (exec_effect he hreset hrestore).inv hw h

/-- Settles O46: a step performs a decoded, hence well-formed, instruction, and `Effect.inv` says that each of its
effects keeps the invariant; RESET and RESTORE load a block that meets it. -/
theorem stepKeepsTheInvariant : Obligations.StepKeepsTheInvariant := by
  intro s t h hstep
  obtain ⟨inp, rest, i, -, hdec, he⟩ := step_next hstep
  have hbegin : (s.beginStep inp rest).Inv := h.of_block_eq rfl
  exact exec_inv (decode_wellFormed hdec) hbegin he

/-- Settles O47, by induction on the run: a delivery leaves the block alone, and a step keeps the invariant. -/
theorem reachableStatesMeetTheInvariant : Obligations.ReachableStatesMeetTheInvariant := by
  intro s h
  induction h with
  | refl => exact resetStateMeetsTheInvariant
  | deliver inputs _ ih => exact ih.of_block_eq rfl
  | step _ hstep ih => exact stepKeepsTheInvariant _ _ ih hstep

end Sys2Proof.Machine
end

section
/-! The fields no rule reads (R29, R32, R46): every procedure of the model commutes with replacing the filter latch,
not_wpe, ptm_o[2] and ptm_o[3]. Each proof follows its definition call by call; `fun _ _ => rfl` says of one update,
or of one value read, that the four fields do not enter it. -/

namespace Sys2Proof.Machine

/-- Values for the fields no rule reads. -/
structure UnreadFields where
  flt : Byte
  notWpe : Bool
  o2 : Bool
  o3 : Bool

/-- `State.withUnread` with its four values in one. -/
def State.setUnread (s : State) (u : UnreadFields) : State := s.withUnread u.flt u.notWpe u.o2 u.o3

/-- What is computed from a state does not depend on the unread fields. -/
def Unseen {α : Sort*} (x : State → α) : Prop := ∀ (s : State) (u : UnreadFields), x (s.setUnread u) = x s

/-- A procedure neither reads nor writes the unread fields. -/
def Blind (f : State → State) : Prop := ∀ (s : State) (u : UnreadFields), f (s.setUnread u) = (f s).setUnread u

namespace Blind

/-- A procedure called after another. -/
theorem comp {f g : State → State} (hf : Blind f) (hg : Blind g) : Blind fun s => f (g s) :=
  fun s u => (congrArg f (hg s u)).trans (hf (g s) u)

/-- A procedure called with an argument computed from the state. -/
theorem arg {α : Type} {f : α → State → State} {x : State → α} (hf : ∀ v, Blind (f v)) (hx : Unseen x) :
    Blind fun s => f (x s) s :=
  fun s u => (congrArg (f · _) (hx s u)).trans (hf (x s) s u)

/-- A choice between two procedures. -/
theorem ite {c : State → Prop} [∀ s, Decidable (c s)] {f g : State → State} (hc : Unseen c) (hf : Blind f)
    (hg : Blind g) : Blind fun s => if c s then f s else g s := by
  intro s u
  simp only [hc s u]
  split
  · exact hf s u
  · exact hg s u

/-- A setter that does nothing when it is called with the current value (R140). -/
theorem setter {c : State → Prop} [∀ s, Decidable (c s)] {f : State → State} (hc : Unseen c) (hf : Blind f) :
    Blind fun s => if c s then s else f s :=
  ite hc (fun _ _ => rfl) hf

end Blind

/-! ### The envelope -/

theorem updateDivider_blind : Blind updateDivider := fun _ _ => rfl

theorem updateTri_blind : Blind updateTri := fun _ _ => rfl

theorem setEnvelopeDirection_blind (d : EnvDir) : Blind (setEnvelopeDirection d) :=
  .setter (fun _ _ => rfl) (updateTri_blind.comp (updateDivider_blind.comp fun _ _ => rfl))

theorem applyEnvDirIfPermitted_blind : Blind applyEnvDirIfPermitted :=
  .ite (fun _ _ => rfl) (.arg setEnvelopeDirection_blind fun _ _ => rfl) fun _ _ => rfl

theorem propagateTri_blind : Blind propagateTri := .setter (fun _ _ => rfl) fun _ _ => rfl

theorem setEnvelope_blind (v : Byte) : Blind (setEnvelope v) :=
  .setter (fun _ _ => rfl)
    (propagateTri_blind.comp (updateTri_blind.comp (updateDivider_blind.comp fun _ _ => rfl)))

theorem clockEnvelope_blind : Blind clockEnvelope :=
  .setter (fun _ _ => rfl) (.arg setEnvelope_blind fun _ _ => rfl)

theorem setEnvClk_blind (v : Bool) : Blind (setEnvClk v) :=
  .setter (fun _ _ => rfl) (.ite (fun _ _ => rfl) (clockEnvelope_blind.comp fun _ _ => rfl) fun _ _ => rfl)

theorem updateEnvClk_blind : Blind updateEnvClk := .arg setEnvClk_blind fun _ _ => rfl

theorem setEclk_blind (v : Bool) : Blind (setEclk v) :=
  .setter (fun _ _ => rfl) (updateEnvClk_blind.comp fun _ _ => rfl)

theorem setEdivOut_blind (v : Bool) : Blind (setEdivOut v) :=
  .setter (fun _ _ => rfl) (updateEnvClk_blind.comp fun _ _ => rfl)

theorem divTickOutput_blind : Blind fun s => setEdivOut (Config.rateTable s.eg.edivRate s.eg.edivCount) s :=
  .arg setEdivOut_blind fun _ _ => rfl

theorem tickDivider_blind : Blind tickDivider := divTickOutput_blind.comp fun _ _ => rfl

/-! ### The control network -/

theorem setUpperLoad_blind (v : Bool) : Blind (setUpperLoad v) :=
  .setter (fun _ _ => rfl) (.ite (fun _ _ => rfl) (fun _ _ => rfl) fun _ _ => rfl)

theorem updateUpperLoad_blind : Blind updateUpperLoad := .arg setUpperLoad_blind fun _ _ => rfl

theorem updatePermitEload_blind : Blind updatePermitEload := .setter (fun _ _ => rfl) fun _ _ => rfl

theorem setGzx_blind (v : Bool) : Blind (setGzx v) :=
  .setter (fun _ _ => rfl)
    (applyEnvDirIfPermitted_blind.comp
      (updatePermitEload_blind.comp (updateUpperLoad_blind.comp fun _ _ => rfl)))

theorem updateGzx_blind : Blind updateGzx := .arg setGzx_blind fun _ _ => rfl

theorem setNotRstb_blind (v : Bool) : Blind (setNotRstb v) :=
  .setter (fun _ _ => rfl) (updateUpperLoad_blind.comp (updateGzx_blind.comp fun _ _ => rfl))

theorem setMsbClk_blind (v : Bool) : Blind (setMsbClk v) :=
  .setter (fun _ _ => rfl) (.ite (fun _ _ => rfl) (fun _ _ => rfl) fun _ _ => rfl)

theorem updateMsbClk_blind : Blind updateMsbClk := .arg setMsbClk_blind fun _ _ => rfl

theorem zxOut_blind : Blind zxOut := fun _ _ => rfl

theorem pulseZcint_blind : Blind pulseZcint := fun _ _ => rfl

theorem setZxFf_blind (v : Bool) : Blind (setZxFf v) := .setter (fun _ _ => rfl) fun _ _ => rfl

theorem latchO1_blind : Blind fun s => setZxFf s.ptm.o1 s := .arg setZxFf_blind fun _ _ => rfl

theorem setZxFfClk_blind (v : Bool) : Blind (setZxFfClk v) :=
  .setter (fun _ _ => rfl)
    (.ite (fun _ _ => rfl) (updateGzx_blind.comp (pulseZcint_blind.comp (latchO1_blind.comp fun _ _ => rfl)))
      fun _ _ => rfl)

theorem updateZxFfClk_blind : Blind updateZxFfClk := .arg setZxFfClk_blind fun _ _ => rfl

theorem updatePtmC1_blind : Blind updatePtmC1 := .setter (fun _ _ => rfl) fun _ _ => rfl

theorem setZx_blind (v : Bool) : Blind (setZx v) :=
  .setter (fun _ _ => rfl)
    (updatePtmC1_blind.comp (updateZxFfClk_blind.comp (zxOut_blind.comp (updateMsbClk_blind.comp fun _ _ => rfl))))

theorem setLsb_blind (v : BitVec 7) : Blind (setLsb v) :=
  .setter (fun _ _ => rfl) ((setZx_blind _).comp fun _ _ => rfl)

theorem advance_blind : Blind advance := .arg setLsb_blind fun _ _ => rfl

theorem loadMsb_blind : Blind fun s => setMsb (msbLoadValue s.pins.ws) s := fun _ _ => rfl

theorem strobe_blind : Blind strobe :=
  loadMsb_blind.comp
    ((setLsb_blind _).comp ((setNotRstb_blind _).comp ((setNotRstb_blind _).comp fun _ _ => rfl)))

theorem checkRstb_blind : Blind checkRstb := .setter (fun _ _ => rfl) (strobe_blind.comp fun _ _ => rfl)

/-! ### The sample path, the bus and the pins -/

theorem updateSample_blind : Blind updateSample := fun _ _ => rfl

theorem sampleTick_blind : Blind sampleTick := updateSample_blind.comp (advance_blind.comp fun _ _ => rfl)

theorem withResult_blind (r : Result) : Blind (State.withResult · r) := fun _ _ => rfl

theorem waveWrite_blind (d : Byte) : Blind (State.waveWrite · d) := fun _ _ => rfl

theorem afterWaveRead_blind : Blind afterWaveRead := .ite (fun _ _ => rfl) (fun _ _ => rfl) advance_blind

/-- WAVE_RD as one procedure (R162). -/
theorem waveRead_blind : Blind fun s => (afterWaveRead s).withResult (.data s.waveRead) :=
  .arg (f := fun d s => (afterWaveRead s).withResult (.data d))
    (fun d => (withResult_blind (.data d)).comp afterWaveRead_blind) fun _ _ => rfl

theorem selectDirection_blind (d : EnvDir) : Blind (selectDirection d) :=
  applyEnvDirIfPermitted_blind.comp fun _ _ => rfl

theorem setNotLoad_blind (v : Bool) : Blind (setNotLoad v) :=
  .setter (fun _ _ => rfl)
    (updateEnvClk_blind.comp (updatePtmC1_blind.comp (checkRstb_blind.comp fun _ _ => rfl)))

theorem startRun_blind : Blind startRun := fun _ _ => rfl

theorem stopRun_blind : Blind stopRun := (setZxFf_blind _).comp fun _ _ => rfl

theorem setRun_blind (v : Bool) : Blind (setRun v) :=
  .setter (fun _ _ => rfl)
    (checkRstb_blind.comp
      (.ite (fun _ _ => rfl) (startRun_blind.comp fun _ _ => rfl) (stopRun_blind.comp fun _ _ => rfl)))

theorem setNotEload_blind (v : Bool) : Blind (setNotEload v) :=
  .setter (fun _ _ => rfl) (applyEnvDirIfPermitted_blind.comp (updatePermitEload_blind.comp fun _ _ => rfl))

theorem reprogramIfRunning_blind : Blind reprogramIfRunning :=
  .ite (fun _ _ => rfl) (fun _ _ => rfl) fun _ _ => rfl

theorem setPitch_blind (v : Nat) : Blind (setPitch v) :=
  .setter (fun _ _ => rfl) (reprogramIfRunning_blind.comp fun _ _ => rfl)

theorem setOctave_blind (v : Nat) : Blind (setOctave v) :=
  .setter (fun _ _ => rfl) (reprogramIfRunning_blind.comp fun _ _ => rfl)

theorem mergeIrq_blind : Blind mergeIrq := .setter (fun _ _ => rfl) fun _ _ => rfl

/-! ### Instructions -/

/-- From the state with the unread fields replaced, the instruction has the same next state up to those fields. -/
def SameUpToUnread (i : Instr) (s t : State) (u : UnreadFields) : Prop :=
  ∃ u' : UnreadFields, exec i (s.setUnread u) = .next (t.setUnread u')

/-- An instruction that performs a blind procedure keeps the unread fields as they stand. -/
theorem Blind.sameUpToUnread {i : Instr} {f : State → State} {s t : State} {u : UnreadFields} (hf : Blind f)
    (hi : ∀ s, exec i s = .next (f s)) (h : exec i s = .next t) : SameUpToUnread i s t u := by
  have ht : f s = t := Host.Outcome.next.inj ((hi s).symm.trans h)
  exact ⟨u, by rw [hi, hf, ht]⟩

/-- An instruction that writes the unread fields itself ends in the same state. -/
theorem SameUpToUnread.of_exec_eq {i : Instr} {s t : State} {u : UnreadFields}
    (h : exec i (s.setUnread u) = .next t) : SameUpToUnread i s t u :=
  ⟨⟨t.latches.fltLatch, t.lines.notWpe, t.ptm.o2, t.ptm.o3⟩, h⟩

/-- The unread fields reach nothing but a save: by the instruction. Each performs a blind procedure, but for the four
that write one of the unread fields, and RESET and RESTORE, which write every field. -/
theorem exec_sameUpToUnread {i : Instr} {s t : State} (u : UnreadFields) (h : exec i s = .next t)
    (hsave : i ≠ .save) : SameUpToUnread i s t u := by
  cases i with
  | save => exact absurd rfl hsave
  | reset => exact .of_exec_eq h
  | restore =>
    obtain ⟨b, hb, rfl⟩ := execRestore_eq_next.1 h
    exact .of_exec_eq (execRestore_eq_next.2 ⟨b, hb, rfl⟩)
  | sampleTick =>
    obtain ⟨hen, rfl⟩ := execSampleTick_eq_next.1 h
    exact ⟨u, execSampleTick_eq_next.2 ⟨hen, (sampleTick_blind s u).symm⟩⟩
  | fltWr d => cases h; exact ⟨{ u with flt := d }, rfl⟩
  | pinNotWpe v =>
    rw [exec, execPinNotWpe, setNotWpe_eq] at h
    cases h
    exact ⟨{ u with notWpe := v }, by rw [exec, execPinNotWpe, setNotWpe_eq]; rfl⟩
  | ptmO2 v => cases h; exact ⟨{ u with o2 := v }, rfl⟩
  | ptmO3 v => cases h; exact ⟨{ u with o3 := v }, rfl⟩
  | volWr | volRd | fltRd | pia0Wr | pia0Rd | pia1Wr | pia1Rd | ptmWr | ptmRd | unkWr1 | unkWr2 | unkWr7 | unkRd1
  | unkRd2 | unkRd7 | pinWs | ptmO1 | pullSample => cases h; exact ⟨u, rfl⟩
  | waveWr d => exact (advance_blind.comp (waveWrite_blind d)).sameUpToUnread (fun _ => rfl) h
  | waveRd => exact waveRead_blind.sameUpToUnread (fun _ => rfl) h
  | envdnWr d => exact (selectDirection_blind .down).sameUpToUnread (fun _ => rfl) h
  | envupWr d => exact (selectDirection_blind .up).sameUpToUnread (fun _ => rfl) h
  | envdnRd => exact ((withResult_blind _).comp (selectDirection_blind .down)).sameUpToUnread (fun _ => rfl) h
  | envupRd => exact ((withResult_blind _).comp (selectDirection_blind .up)).sameUpToUnread (fun _ => rfl) h
  | pinRun v => exact (setRun_blind v).sameUpToUnread (fun _ => rfl) h
  | pinNotLoad v => exact (setNotLoad_blind v).sameUpToUnread (fun _ => rfl) h
  | pinNotEload v => exact (setNotEload_blind v).sameUpToUnread (fun _ => rfl) h
  | pinPitch v => exact (setPitch_blind v).sameUpToUnread (fun _ => rfl) h
  | pinOctave v => exact (setOctave_blind v).sameUpToUnread (fun _ => rfl) h
  | eclk v => exact (setEclk_blind v).sameUpToUnread (fun _ => rfl) h
  | divTick => exact tickDivider_blind.sameUpToUnread (fun _ => rfl) h
  | irqIn0 | irqIn1 | irqIn2 | irqIn3 | irqIn4 =>
    exact (mergeIrq_blind.comp (g := (State.onIrq · _)) fun _ _ => rfl).sameUpToUnread (fun _ => rfl) h

/-- Settles O50: `exec_sameUpToUnread`, with the four values apart. -/
theorem unreadFieldsReachNothing : Obligations.UnreadFieldsReachNothing := by
  intro s t i flt w a b h hsave
  obtain ⟨u, hu⟩ := exec_sameUpToUnread ⟨flt, w, a, b⟩ h hsave
  exact ⟨u.flt, u.notWpe, u.o2, u.o3, hu⟩

end Sys2Proof.Machine
end

section
/-! The wave address and the wave RAM accesses (R14, R130, R161, R162). -/

namespace Sys2Proof.Machine

/-- The wave address as a number: the shift is a product, the OR a sum of disjoint bits, the width the mask (R14). -/
theorem waveAddr_toNat (msb : BitVec 8) (lsb : BitVec 7) :
    (waveAddr msb lsb).toNat = (msb.toNat * 2 ^ 7 + lsb.toNat) % 2 ^ 14 := by
  have hl := lsb.isLt
  have hm := msb.isLt
  have hshift : msb.toNat <<< 7 % 2 ^ 14 = (msb.toNat % 2 ^ 7) <<< 7 := by
    simp only [Nat.shiftLeft_eq]
    omega
  simp only [waveAddr, BitVec.toNat_or, BitVec.toNat_shiftLeft, BitVec.toNat_setWidth]
  rw [Nat.mod_eq_of_lt (by omega : msb.toNat < 2 ^ 14), Nat.mod_eq_of_lt (by omega : lsb.toNat < 2 ^ 14), hshift,
    ← Nat.shiftLeft_add_eq_or_of_lt hl, Nat.shiftLeft_eq]
  omega

/-- Settles O10: the address by `waveAddr_toNat`; each access takes `s.addr` before its advance, and an advance
reaches neither the RAM nor the wave byte. -/
theorem waveAccessesUseTheWaveAddress : Obligations.WaveAccessesUseTheWaveAddress := by
  intro s
  refine ⟨waveAddr_toNat .., fun d => ⟨_, rfl, ?_⟩, ⟨_, rfl, rfl⟩, fun hen => ⟨sampleTick s, ?_, ?_⟩⟩
  · simp
  · exact execSampleTick_eq_next.2 ⟨hen, rfl⟩
  · simp [sampleTick, updateSample, State.waveRead]

end Sys2Proof.Machine
end

section
/-! Save and restore (R52, R183, R184). -/

namespace Sys2Proof.Machine

/-- DOWN is 0 and UP is 1 (R19). -/
theorem EnvDir.toNat_eq (d : EnvDir) : d.toNat = if d = .up then 1 else 0 := by cases d <;> rfl

/-- Settles O40: the bytes are those the RAM reads as, and the other 47 values stand in the image as written. -/
theorem saveReturnsTheImage : Obligations.SaveReturnsTheImage := by
  intro s
  refine ⟨s.ram.bytes, Memory.length_bytes _, Memory.getElem?_bytes _, ?_⟩
  rw [← EnvDir.toNat_eq, ← EnvDir.toNat_eq]
  rfl

/-- Settles O41: a state that meets the invariant has a restorable image, and the bytes loaded from it read as the
RAM they were taken from. -/
theorem restoreOfSaveIsIdentity : Obligations.RestoreOfSaveIsIdentity := by
  intro s u h hcarried
  exact ⟨_, execRestore_image hcarried h.wellTyped h.quiescent, Memory.read_ofBytes_bytes s.ram, rfl⟩

/-- Settles O53: every block's image holds 16384 wave RAM bytes, so an image that does not is no block's. -/
theorem incompleteWaveRamIsRefused : Obligations.IncompleteWaveRamIsRefused := by
  intro u bytes rest hcarried hlen
  refine execRestore_refused fun b _ _ himage => hlen ?_
  have hbytes : bytes = b.ram.bytes := by
    rw [hcarried, Block.image] at himage
    simp only [Option.some.injEq, List.cons.injEq, FieldValue.ram.injEq] at himage
    exact himage.1
  rw [hbytes]
  exact Memory.length_bytes _

end Sys2Proof.Machine
end

section
/-! Output events carry every change of an output level (R50, R185, R186, R223), in any state. -/

namespace Sys2Proof.Machine

/-- From `s` to `t` events have been emitted from which a receiver that knew the levels of `s` knows those of `t`. -/
def Announces (s t : State) : Prop :=
  ∃ es, t.outputs = s.outputs ++ es ∧ es.foldl OutputLevels.hear s.outputLevels = t.outputLevels

namespace Announces

theorem trans {s t u : State} (h : Announces s t) (h' : Announces t u) : Announces s u := by
  obtain ⟨es, ho, hl⟩ := h
  obtain ⟨es', ho', hl'⟩ := h'
  exact ⟨es ++ es', by rw [ho', ho, List.append_assoc], by rw [List.foldl_append, hl, hl']⟩

/-- Nothing is emitted and no level changes. -/
theorem of_silent {s t : State} (ho : t.outputs = s.outputs) (hl : t.outputLevels = s.outputLevels) :
    Announces s t :=
  ⟨[], by simp [ho], hl.symm⟩

/-- An update that emits nothing and changes no level, before an operation that announces what it changes. -/
theorem after_silent {s t u : State} (h : Announces t u) (ho : t.outputs = s.outputs)
    (hl : t.outputLevels = s.outputLevels) : Announces s u :=
  (of_silent ho hl).trans h

theorem refl (s : State) : Announces s s := of_silent rfl rfl

/-- What gzx reaches is silent. -/
theorem of_gateFrame {s t : State} (h : GateFrame s t) : Announces s t :=
  of_silent (by simp [h]) (by simp [Block.outputLevels, h])

end Announces

/-- An access to an outside agent tells nothing of the block's levels. -/
theorem OutputLevels.hear_of_isAccess {e : OutEvent} (h : e.isAccess = true) (l : OutputLevels) : l.hear e = l := by
  cases e with
  | piaWr | piaRd | ptmWr | ptmRd | diagUnknown => rfl
  | zxOut | zcint | triOut | ptmC1 | ptmGate | timerStart | timerStop | timerReprogram | irq => cases h

/-! ### The zero-crossing chain and the strobe -/

theorem setZxFfClk_announces (v : Bool) (s : State) : Announces s (setZxFfClk v s) := by
  refine ⟨_, (setZxFfClk_latch v s).2, ?_⟩
  split <;> simp [OutputLevels.hear, Block.outputLevels]

theorem updatePtmC1_announces (s : State) : Announces s (updatePtmC1 s) := by
  refine ⟨_, updatePtmC1_outputs s, ?_⟩
  split
  · rename_i h
    simp [Block.outputLevels, h]
  · simp [OutputLevels.hear, Block.outputLevels]

/-- zx is stored before it is announced, with the MSB clock between (R122). -/
theorem zxOut_announces (v : Bool) (s : State) :
    Announces s (zxOut (updateMsbClk (s.onLines fun l => { l with zx := v }))) :=
  ⟨[.zxOut v], by simp, by simp [OutputLevels.hear, Block.outputLevels]⟩

theorem setZx_announces (v : Bool) (s : State) : Announces s (setZx v s) := by
  unfold setZx
  split
  · exact .refl s
  · exact (zxOut_announces v s).trans ((setZxFfClk_announces ..).trans (updatePtmC1_announces _))

theorem setLsb_announces (v : BitVec 7) (s : State) : Announces s (setLsb v s) := by
  unfold setLsb
  split
  · exact .refl s
  · exact (setZx_announces ..).after_silent rfl rfl

theorem advance_announces (s : State) : Announces s (advance s) := setLsb_announces ..

theorem updateSample_announces (s : State) : Announces s (updateSample s) := .of_silent rfl rfl

theorem withResult_announces (s : State) (r : Result) : Announces s (s.withResult r) := .of_silent rfl rfl

theorem setNotRstb_announces (v : Bool) (s : State) : Announces s (setNotRstb v s) :=
  .of_gateFrame (setNotRstb_frame v s).1

theorem strobe_announces (s : State) : Announces s (strobe s) := by
  have hflag : Announces s (s.onSeq fun q => { q with newAddr := true }) := .of_silent rfl rfl
  have hlsb := ((hflag.trans (setNotRstb_announces false _)).trans (setNotRstb_announces true _)).trans
    (setLsb_announces 0#7 _)
  exact hlsb.trans (.of_gateFrame (setMsb_frame _ _).1)

theorem checkRstb_announces (s : State) : Announces s (checkRstb s) := by
  unfold checkRstb
  dsimp only
  split
  · exact .refl s
  · exact (strobe_announces _).after_silent rfl rfl

/-! ### The envelope clock -/

/-- A receiver that knew the tri latch output knows it after the composite clock's new level (R113, R116). -/
theorem EnvGen.hear_clockEvents (e : EnvGen) (clk : Bool) {l : OutputLevels} (h : l.triOut = e.triOut) :
    (e.clockEvents clk).foldl OutputLevels.hear l = { l with triOut := (e.afterEnvClk clk).triOut } := by
  unfold EnvGen.clockEvents EnvGen.afterEnvClk
  cases hclocks : clk && !e.envClk && !e.tri with
  | false => simp [← h]
  | true =>
    by_cases htri : e.afterClock.tri = e.triOut
    · have hkept : ({ e with envClk := clk } : EnvGen).afterClock.triOut = l.triOut := htri.trans h.symm
      simp [htri, hkept]
    · simp [htri, OutputLevels.hear]
      rfl

theorem setEnvClk_announces (v : Bool) (s : State) : Announces s (setEnvClk v s) := by
  rw [setEnvClk_eq]
  exact ⟨_, rfl, s.eg.hear_clockEvents v rfl⟩

theorem setEclk_announces (v : Bool) (s : State) : Announces s (setEclk v s) := by
  unfold setEclk
  split
  · exact .refl s
  · exact (setEnvClk_announces ..).after_silent rfl rfl

theorem tickDivider_announces (s : State) : Announces s (tickDivider s) := by
  simp only [tickDivider, setEdivOut]
  split
  · exact .of_silent rfl rfl
  · exact (setEnvClk_announces ..).after_silent rfl rfl

/-! ### The pins and the interrupt merge -/

theorem startRun_announces (s : State) : Announces s (startRun s) := by
  rw [startRun_eq]
  exact ⟨_, rfl, rfl⟩

theorem stopRun_announces (s : State) : Announces s (stopRun s) := by
  rw [stopRun_eq]
  exact ⟨_, rfl, rfl⟩

theorem setRun_announces (v : Bool) (s : State) : Announces s (setRun v s) := by
  unfold setRun
  split
  · exact .refl s
  · have hrun : Announces s (s.onLines fun l => { l with run := v }) := .of_silent rfl rfl
    cases v with
    | true => exact (hrun.trans (startRun_announces _)).trans (checkRstb_announces _)
    | false => exact (hrun.trans (stopRun_announces _)).trans (checkRstb_announces _)

theorem setNotLoad_announces (v : Bool) (s : State) : Announces s (setNotLoad v s) := by
  unfold setNotLoad
  split
  · exact .refl s
  · have hload : Announces s (s.onLines fun l => { l with notLoad := v }) := .of_silent rfl rfl
    exact ((hload.trans (checkRstb_announces _)).trans (updatePtmC1_announces _)).trans (setEnvClk_announces ..)

theorem reprogramIfRunning_announces (s : State) : Announces s (reprogramIfRunning s) := by
  unfold reprogramIfRunning
  split
  · exact ⟨_, rfl, rfl⟩
  · exact .refl s

theorem setPitch_announces (v : Nat) (s : State) : Announces s (setPitch v s) := by
  unfold setPitch
  split
  · exact .refl s
  · exact (reprogramIfRunning_announces _).after_silent rfl rfl

theorem setOctave_announces (v : Nat) (s : State) : Announces s (setOctave v s) := by
  unfold setOctave
  split
  · exact .refl s
  · exact (reprogramIfRunning_announces _).after_silent rfl rfl

theorem mergeIrq_announces (s : State) : Announces s (mergeIrq s) := by
  rw [mergeIrq_eq]
  refine ⟨_, rfl, ?_⟩
  split
  · rename_i h
    simp [Block.outputLevels, h]
  · simp [OutputLevels.hear, Block.outputLevels]

/-- Every effect announces the levels it changes. -/
theorem Effect.announces {i : Instr} {s t : State} (he : Effect s i t) : Announces s t := by
  cases he with
  | quiet hb ho => exact .of_silent ho (by rw [hb])
  | access e he hb ho => exact ⟨[e], ho, by simp [OutputLevels.hear_of_isAccess he, hb]⟩
  | waveWrite d => exact (advance_announces _).after_silent rfl rfl
  | waveRead r =>
    cases hn : s.seq.newAddr with
    | true => rw [afterWaveRead_of_pending hn]; exact .of_silent rfl rfl
    | false => rw [afterWaveRead_of_clear hn]; exact (advance_announces s).trans (withResult_announces _ r)
  | select d hi hb ho => exact .of_silent ho (by simp [hb, Block.outputLevels])
  | volume d => exact .of_silent rfl rfl
  | filter d => exact .of_silent rfl rfl
  | run v => exact setRun_announces v s
  | notLoad v => exact setNotLoad_announces v s
  | notWpe v => rw [setNotWpe_eq]; exact .of_silent rfl rfl
  | notEload v =>
    obtain ⟨p, hl⟩ := setNotEload_lines v s
    exact .of_silent (by simp) (by simp [Block.outputLevels, hl])
  | ws v => exact .of_silent rfl rfl
  | pitch v => exact setPitch_announces v s
  | octave v => exact setOctave_announces v s
  | eclk v => exact setEclk_announces v s
  | divTick => exact tickDivider_announces s
  | ptmO1 v => exact .of_silent rfl rfl
  | ptmO2 v => exact .of_silent rfl rfl
  | ptmO3 v => exact .of_silent rfl rfl
  | interrupt f hi hf =>
    have hsource : Announces s (s.onIrq f) := .of_silent rfl (by simp [Block.outputLevels, hf])
    exact hsource.trans (mergeIrq_announces _)
  | sampleTick hen =>
    have hbyte : Announces s (s.onSeq fun q => { q with waveByte := s.waveRead }) := .of_silent rfl rfl
    exact (hbyte.trans (advance_announces _)).trans (updateSample_announces _)

/-- Settles O49: every effect announces what it changes. -/
theorem eventsAnnounceEveryOutputLevel : Obligations.EventsAnnounceEveryOutputLevel :=
  fun _ _ _ h hreset hrestore => (exec_effect h hreset hrestore).announces

end Sys2Proof.Machine
end

section
/-! The decoder against the encoder and the opcode table (R80 to R86). -/

namespace Sys2Proof

/-! ### Decoding by class -/

/-- The class `00` is a bus write's, `01` a bus read's (R80). -/
theorem decode_of_bus {w : Word} {isRead : Bool} (hclass : bits w 31 30 = isRead.toNat) :
    decode w = decodeBus w isRead := by
  cases isRead <;> simp_all [decode]

/-- The class `10` is an input event's, `11` a host event's (R80). -/
theorem decode_of_event {w : Word} {isHost : Bool} (hclass : bits w 31 30 = 2 + isHost.toNat) :
    decode w = decodeEvent w isHost := by
  cases isHost <;> simp_all [decode]

/-- Every word is of a bus class or of an event class (R80). -/
theorem exists_class (w : Word) : ∃ b : Bool, bits w 31 30 = b.toNat ∨ bits w 31 30 = 2 + b.toNat := by
  have hlt : bits w 31 30 < 4 := Nat.mod_lt _ (by decide)
  interval_cases bits w 31 30 <;> decide

/-- When a bus write decodes, and to what (R81, R85). -/
theorem decodeBus_write_eq_ok {w : Word} {i : Instr} :
    decodeBus w false = .ok i ↔ bits w 29 29 = 0 ∧ bits w 23 8 = 0
      ∧ decodeBusWrite (bits w 28 24) (BitVec.ofNat 8 (bits w 7 0)) = .ok i := by
  unfold decodeBus
  split_ifs <;> simp_all

/-- When a bus read decodes, and to what (R81, R85). -/
theorem decodeBus_read_eq_ok {w : Word} {i : Instr} :
    decodeBus w true = .ok i ↔ bits w 29 29 = 0 ∧ bits w 23 8 = 0 ∧ bits w 7 0 = 0
      ∧ decodeBusRead (bits w 28 24) = .ok i := by
  unfold decodeBus
  split_ifs <;> simp_all

/-- When an input event decodes, and to what (R82, R83, R85). -/
theorem decodeEvent_input_eq_ok {w : Word} {i : Instr} :
    decodeEvent w false = .ok i ↔ bits w 23 16 = 0 ∧ decodeInputEvent (bits w 29 24) (bits w 15 0) = .ok i := by
  unfold decodeEvent
  split_ifs <;> simp_all

/-- When a host event decodes, and to what (R82, R84, R85). -/
theorem decodeEvent_host_eq_ok {w : Word} {i : Instr} :
    decodeEvent w true = .ok i ↔ bits w 23 16 = 0 ∧ decodeHostEvent (bits w 29 24) (bits w 15 0) = .ok i := by
  unfold decodeEvent
  split_ifs <;> simp_all

/-! ### An accepted word is its instruction's word -/

/-- A word with the zero fields of a bus write is the write word of its offset and data (R81). -/
theorem busWriteWord_of_fields {w : Word} (hclass : bits w 31 30 = 0) (h29 : bits w 29 29 = 0)
    (h23 : bits w 23 8 = 0) : busWriteWord (bits w 28 24) (BitVec.ofNat 8 (bits w 7 0)) = w := by
  have hw := word_eq_of_bus_fields w
  have hoff : bits w 28 24 < 32 := Nat.mod_lt _ (by decide)
  have hdata : bits w 7 0 < 2 ^ 8 := Nat.mod_lt _ (by decide)
  apply BitVec.eq_of_toNat_eq
  rw [busWriteWord_toNat hoff, BitVec.toNat_ofNat, Nat.mod_eq_of_lt hdata]
  omega

/-- A word with the zero fields of a bus read is the read word of its offset (R81). -/
theorem busReadWord_of_fields {w : Word} (hclass : bits w 31 30 = 1) (h29 : bits w 29 29 = 0)
    (h23 : bits w 23 8 = 0) (h7 : bits w 7 0 = 0) : busReadWord (bits w 28 24) = w := by
  have hw := word_eq_of_bus_fields w
  have hoff : bits w 28 24 < 32 := Nat.mod_lt _ (by decide)
  apply BitVec.eq_of_toNat_eq
  rw [busReadWord_toNat hoff]
  omega

/-- A word with the zero field of an input event is the word of its code and payload (R82). -/
theorem inputEventWord_of_fields {w : Word} (hclass : bits w 31 30 = 2) (h23 : bits w 23 16 = 0) :
    inputEventWord (bits w 29 24) (bits w 15 0) = w := by
  have hw := word_eq_of_event_fields w
  have hcode : bits w 29 24 < 64 := Nat.mod_lt _ (by decide)
  have hpayload : bits w 15 0 < 2 ^ 16 := Nat.mod_lt _ (by decide)
  apply BitVec.eq_of_toNat_eq
  rw [inputEventWord_toNat hcode hpayload]
  omega

/-- A word with the zero field and the empty payload of a host event is the word of its code (R82, R84). -/
theorem hostEventWord_of_fields {w : Word} (hclass : bits w 31 30 = 3) (h23 : bits w 23 16 = 0)
    (h15 : bits w 15 0 = 0) : hostEventWord (bits w 29 24) = w := by
  have hw := word_eq_of_event_fields w
  have hcode : bits w 29 24 < 64 := Nat.mod_lt _ (by decide)
  apply BitVec.eq_of_toNat_eq
  rw [hostEventWord_toNat hcode]
  omega

/-- Settles O2: in each of the four classes the fields of an accepted word make it the word of its offset or code, and
that is the word of the instruction these decode to. -/
theorem encodeOfDecode : Obligations.EncodeOfDecode := by
  intro w i h
  obtain ⟨b, hbus | hevent⟩ := exists_class w
  · rw [decode_of_bus hbus] at h
    cases b with
    | false =>
      obtain ⟨h29, h23, hdec⟩ := decodeBus_write_eq_ok.1 h
      obtain ⟨-, hwf, henc⟩ := decodeBusWrite_ok hdec
      exact ⟨hwf, henc.trans (busWriteWord_of_fields hbus h29 h23)⟩
    | true =>
      obtain ⟨h29, h23, h7, hdec⟩ := decodeBus_read_eq_ok.1 h
      obtain ⟨-, hwf, henc⟩ := decodeBusRead_ok hdec
      exact ⟨hwf, henc.trans (busReadWord_of_fields hbus h29 h23 h7)⟩
  · rw [decode_of_event hevent] at h
    cases b with
    | false =>
      obtain ⟨h23, hdec⟩ := decodeEvent_input_eq_ok.1 h
      obtain ⟨hwf, henc⟩ := decodeInputEvent_ok hdec
      exact ⟨hwf, henc.trans (inputEventWord_of_fields hevent h23)⟩
    | true =>
      obtain ⟨h23, hdec⟩ := decodeEvent_host_eq_ok.1 h
      obtain ⟨h15, hwf, henc⟩ := decodeHostEvent_ok hdec
      exact ⟨hwf, henc.trans (hostEventWord_of_fields hevent h23 h15)⟩

/-! ### An instruction's word decodes to it -/

/-- The low bits of an offset in an aligned window are the offset in the window (R86). -/
theorem ofNat_window {n base : Nat} {off : BitVec n} (h : base % 2 ^ n = 0) :
    BitVec.ofNat n (base + off.toNat) = off := by
  apply BitVec.eq_of_toNat_eq
  rw [BitVec.toNat_ofNat, Nat.add_mod, h, Nat.zero_add, Nat.mod_mod, Nat.mod_eq_of_lt off.isLt]

/-! The forwarding windows 0x08..0x0B, 0x0C..0x0F and 0x10..0x17 (R86). -/

theorem decodeBusWrite_pia0 (off : BitVec 2) (d : Byte) :
    decodeBusWrite (0x08 + off.toNat) d = .ok (.pia0Wr off d) := by
  have hlt := off.isLt
  unfold decodeBusWrite
  iterate 5 rw [if_neg (by omega)]
  rw [if_pos (by omega), ofNat_window rfl]

theorem decodeBusWrite_pia1 (off : BitVec 2) (d : Byte) :
    decodeBusWrite (0x0C + off.toNat) d = .ok (.pia1Wr off d) := by
  have hlt := off.isLt
  unfold decodeBusWrite
  iterate 6 rw [if_neg (by omega)]
  rw [if_pos (by omega), ofNat_window rfl]

theorem decodeBusWrite_ptm (off : BitVec 3) (d : Byte) :
    decodeBusWrite (0x10 + off.toNat) d = .ok (.ptmWr off d) := by
  have hlt := off.isLt
  unfold decodeBusWrite
  iterate 7 rw [if_neg (by omega)]
  rw [if_pos (by omega), ofNat_window rfl]

theorem decodeBusRead_pia0 : ∀ off : BitVec 2, decodeBusRead (0x08 + off.toNat) = .ok (.pia0Rd off) := by decide

theorem decodeBusRead_pia1 : ∀ off : BitVec 2, decodeBusRead (0x0C + off.toNat) = .ok (.pia1Rd off) := by decide

theorem decodeBusRead_ptm : ∀ off : BitVec 3, decodeBusRead (0x10 + off.toNat) = .ok (.ptmRd off) := by decide

/-- The word of an event with a one-bit payload decodes to the event with that level (R83). -/
theorem decode_levelWord {code : Nat} {make : Bool → Instr} (h : code < 64)
    (hdec : ∀ p, decodeInputEvent code p = levelPayload p make) (v : Bool) :
    decode (inputEventWord code v.toNat) = .ok (make v) := by
  have hv := Bool.toNat_lt v
  rw [decode_inputEventWord h (by omega), hdec, levelPayload_toNat]

/-- The word of an event with a payload of an OPEN width decodes to the event with that payload (R151). -/
theorem decode_wideWord {code : Nat} {width : Fin 17} {make : Nat → Instr} (h : code < 64)
    (hdec : ∀ p, decodeInputEvent code p = widePayload p width.val make) {v : Nat}
    (hv : fitsWidth v width.val = true) : decode (inputEventWord code v) = .ok (make v) := by
  rw [decode_inputEventWord h (lt_of_fitsWidth hv), hdec, widePayload, if_pos hv]

/-- Settles O1: the word of each kind of instruction decodes by its offset or code and its payload. -/
theorem decodeOfEncode : Obligations.DecodeOfEncode := by
  intro i hwf
  cases i with
  | waveWr d | envdnWr d | envupWr d | volWr d | fltWr d | unkWr1 d | unkWr2 d | unkWr7 d =>
    exact decode_busWriteWord (by decide) d
  | waveRd | envdnRd | envupRd | volRd | fltRd | unkRd1 | unkRd2 | unkRd7 =>
    exact decode_busReadWord (by decide)
  | pia0Wr off d => exact (decode_busWriteWord (by omega) d).trans (decodeBusWrite_pia0 off d)
  | pia1Wr off d => exact (decode_busWriteWord (by omega) d).trans (decodeBusWrite_pia1 off d)
  | ptmWr off d => exact (decode_busWriteWord (by omega) d).trans (decodeBusWrite_ptm off d)
  | pia0Rd off => exact (decode_busReadWord (by omega)).trans (decodeBusRead_pia0 off)
  | pia1Rd off => exact (decode_busReadWord (by omega)).trans (decodeBusRead_pia1 off)
  | ptmRd off => exact (decode_busReadWord (by omega)).trans (decodeBusRead_ptm off)
  | pinRun v | pinNotLoad v | pinNotWpe v | pinNotEload v | eclk v | ptmO1 v | ptmO2 v | ptmO3 v | irqIn0 v
  | irqIn1 v | irqIn2 v | irqIn3 v | irqIn4 v => exact decode_levelWord (by decide) (fun _ => rfl) v
  | pinWs v =>
    have hdec : decodeInputEvent 0x04 v.toNat = .ok (.pinWs (BitVec.ofNat 7 v.toNat)) := if_pos v.isLt
    rw [encode, decode_inputEventWord (by decide) (by omega), hdec, BitVec.ofNat_toNat, BitVec.setWidth_eq]
  | pinPitch v | pinOctave v => exact decode_wideWord (by decide) (fun _ => rfl) hwf
  | divTick => exact decode_inputEventWord (by decide) (by decide)
  | reset | sampleTick | pullSample | save | restore => exact decode_hostEventWord (by decide)

/-! ### Which bus words are accepted -/

/-- The offsets 0x00..0x17 are those of a write (R86). -/
theorem decodeBusWrite_accepts_iff {off : Nat} {d : Byte} : (∃ i, decodeBusWrite off d = .ok i) ↔ off ≤ 0x17 :=
  ⟨fun ⟨_, h⟩ => (decodeBusWrite_ok h).1, fun h => decodeBusWrite_accepts h d⟩

/-- The offsets 0x00..0x17 are those of a read (R86). -/
theorem decodeBusRead_accepts_iff {off : Nat} : (∃ i, decodeBusRead off = .ok i) ↔ off ≤ 0x17 :=
  ⟨fun ⟨_, h⟩ => (decodeBusRead_ok h).1, decodeBusRead_accepts⟩

/-- Settles O5: bit 30 says whether the word is a write or a read, and each is accepted by its zero fields and its
offset. -/
theorem busWordsAcceptedExactly : Obligations.BusWordsAcceptedExactly := by
  intro w h31
  have hclass : bits w 31 30 = bits w 30 30 := by
    simp only [bits] at h31 ⊢
    omega
  have hbit : bits w 30 30 = 0 ∨ bits w 30 30 = 1 := Nat.mod_two_eq_zero_or_one _
  rcases hbit with h30 | h30
  · rw [decode_of_bus (isRead := false) (hclass.trans h30)]
    simp only [decodeBus_write_eq_ok, exists_and_left, decodeBusWrite_accepts_iff, h30]
    tauto
  · rw [decode_of_bus (isRead := true) (hclass.trans h30)]
    simp only [decodeBus_read_eq_ok, exists_and_left, decodeBusRead_accepts_iff, h30]
    tauto

/-! ### The rows of the opcode table -/

/-- The word of a well-formed instruction is a word of its row, for every instruction. -/
theorem encodesToRow (i : Instr) : Laws.EncodesToRow.Statement i := by
  open Laws.EncodesToRow in
  cases i
  exacts [waveWr _, waveRd, envdnWr _, envdnRd, envupWr _, envupRd, volWr _, volRd, fltWr _, fltRd, pia0Wr _ _,
    pia0Rd _, pia1Wr _ _, pia1Rd _, ptmWr _ _, ptmRd _, unkWr1 _, unkWr2 _, unkWr7 _, unkRd1, unkRd2, unkRd7,
    pinRun _, pinNotLoad _, pinNotWpe _, pinNotEload _, pinWs _, pinPitch _, pinOctave _, eclk _, divTick, ptmO1 _,
    ptmO2 _, ptmO3 _, irqIn0 _, irqIn1 _, irqIn2 _, irqIn3 _, irqIn4 _, reset, sampleTick, pullSample, save, restore]

/-- A word of a bus row has the zero fields and the offset of a bus word (R81, R85). -/
theorem bus_fields_of_row {r : OpcodeRow} {w : Word} (hr : r ∈ busWriteRows ++ busReadRows)
    (h : r.admits w = true) :
    bits w 31 31 = 0 ∧ bits w 29 29 = 0 ∧ bits w 28 24 ≤ 0x17 ∧ bits w 23 8 = 0
      ∧ (bits w 30 30 = 1 → bits w 7 0 = 0) := by
  simp only [busWriteRows, busReadRows, List.cons_append, List.nil_append, List.mem_cons, List.not_mem_nil,
    or_false] at hr
  rcases hr with rfl | rfl | rfl | rfl | rfl | rfl | rfl | rfl | rfl | rfl | rfl | rfl | rfl | rfl | rfl | rfl | rfl |
    rfl | rfl | rfl | rfl | rfl
  all_goals
    simp only [OpcodeRow.admits, List.all_cons, List.all_nil, bits, Bool.and_true, Bool.and_eq_true,
      beq_iff_eq] at h ⊢
    omega

/-- A row with one fixed field admits the words with that field. -/
theorem admits_single {m : String} {hi lo v : Nat} {w : Word} :
    OpcodeRow.admits ⟨m, [(hi, lo, v)]⟩ w = true ↔ bits w hi lo = v := by
  simp [OpcodeRow.admits]

/-- A word whose bits 31:n are the class and the code of an input event and zeros is the event's word, with a payload
of n bits (R82, R83). -/
theorem inputEventWord_of_head {w : Word} {code n : Nat} (hcode : code < 64) (hn : n ≤ 16)
    (h : bits w 31 n = (2 * 2 ^ 14 + code * 2 ^ 8) * 2 ^ (16 - n)) :
    inputEventWord code (bits w 15 0) = w ∧ bits w 15 0 < 2 ^ n := by
  have hlt := w.isLt
  have hpayload : bits w 15 0 < 2 ^ 16 := Nat.mod_lt _ (by decide)
  have hhead : w.toNat / 2 ^ n = (2 * 2 ^ 14 + code * 2 ^ 8) * 2 ^ (16 - n) := by
    rw [← h, bits, Nat.mod_eq_of_lt]
    rw [Nat.div_lt_iff_lt_mul (Nat.two_pow_pos n), ← Nat.pow_add]
    rwa [show 31 + 1 - n + n = 32 by omega]
  have hsplit : w.toNat = (2 * 2 ^ 14 + code * 2 ^ 8) * 2 ^ 16 + w.toNat % 2 ^ n := by
    have hpow : 2 ^ (16 - n) * 2 ^ n = 2 ^ 16 := by rw [← Nat.pow_add, Nat.sub_add_cancel hn]
    rw [← hpow, ← Nat.mul_assoc, ← hhead, Nat.div_add_mod']
  have hrest : w.toNat % 2 ^ n < 2 ^ n := Nat.mod_lt _ (Nat.two_pow_pos n)
  have hle : 2 ^ n ≤ 2 ^ 16 := Nat.pow_le_pow_right (by decide) hn
  have hbits : bits w 15 0 = w.toNat % 2 ^ n := by
    simp only [bits]
    omega
  refine ⟨BitVec.eq_of_toNat_eq ?_, hbits ▸ hrest⟩
  rw [inputEventWord_toNat hcode hpayload]
  omega

/-- A word of an input event's row is accepted when its payload decodes. -/
theorem accepts_of_head {w : Word} {code n : Nat} (hcode : code < 64) (hn : n ≤ 16)
    (h : bits w 31 n = (2 * 2 ^ 14 + code * 2 ^ 8) * 2 ^ (16 - n))
    (hdec : bits w 15 0 < 2 ^ n → ∃ i, decodeInputEvent code (bits w 15 0) = .ok i) : ∃ i, decode w = .ok i := by
  obtain ⟨hw, hlt⟩ := inputEventWord_of_head hcode hn h
  have hpayload : bits w 15 0 < 2 ^ 16 := Nat.mod_lt _ (by decide)
  rw [← hw, decode_inputEventWord hcode hpayload]
  exact hdec hlt

/-- A word of the row of an event with a one-bit payload is accepted (R83). -/
theorem accepts_level {w : Word} {code : Nat} {make : Bool → Instr} (hcode : code < 64)
    (hdec : ∀ p, decodeInputEvent code p = levelPayload p make)
    (h : bits w 31 1 = (2 * 2 ^ 14 + code * 2 ^ 8) * 2 ^ 15) : ∃ i, decode w = .ok i :=
  accepts_of_head hcode (by decide) h fun hp => ⟨_, (hdec _).trans (if_pos hp)⟩

/-- A word of the row of an event with a payload of an OPEN width is accepted when the payload fits (R151). -/
theorem accepts_wide {w : Word} {code width : Nat} {make : Nat → Instr} (hcode : code < 64)
    (hdec : ∀ p, decodeInputEvent code p = widePayload p width make)
    (h : bits w 31 16 = 2 * 2 ^ 14 + code * 2 ^ 8) (hfits : fitsWidth (bits w 15 0) width = true) :
    ∃ i, decode w = .ok i :=
  accepts_of_head hcode (Nat.le_refl 16) (by simpa using h) fun _ => ⟨_, (hdec _).trans (if_pos hfits)⟩

/-- A row that fixes the whole word admits that word only. -/
theorem eq_of_bits_whole {w : Word} {v : Nat} (h : bits w 31 0 = v) : w = BitVec.ofNat 32 v := by
  have hlt := w.isLt
  apply BitVec.eq_of_toNat_eq
  simp only [bits] at h
  rw [BitVec.toNat_ofNat]
  omega

/-- Every word of an input event's row is accepted when its payload fits the row's OPEN width (R83, R85). -/
theorem accepts_of_inputEventRow {r : OpcodeRow} {w : Word} (hr : r ∈ inputEventRows) (h : r.admits w = true)
    (hopen : r.openWidthOk w = true) : ∃ i, decode w = .ok i := by
  simp only [inputEventRows, List.mem_cons, List.not_mem_nil, or_false] at hr
  rcases hr with rfl | rfl | rfl | rfl | rfl | rfl | rfl | rfl | rfl | rfl | rfl | rfl | rfl | rfl | rfl | rfl | rfl
  all_goals rw [admits_single] at h
  · exact accepts_level (code := 0x00) (by decide) (fun _ => rfl) h
  · exact accepts_level (code := 0x01) (by decide) (fun _ => rfl) h
  · exact accepts_level (code := 0x02) (by decide) (fun _ => rfl) h
  · exact accepts_level (code := 0x03) (by decide) (fun _ => rfl) h
  · exact accepts_of_head (code := 0x04) (n := 7) (by decide) (by decide) h fun hp => ⟨_, if_pos hp⟩
  · exact accepts_wide (code := 0x05) (by decide) (fun _ => rfl) h hopen
  · exact accepts_wide (code := 0x06) (by decide) (fun _ => rfl) h hopen
  · exact accepts_level (code := 0x07) (by decide) (fun _ => rfl) h
  · exact eq_of_bits_whole h ▸ ⟨_, rfl⟩
  · exact accepts_level (code := 0x09) (by decide) (fun _ => rfl) h
  · exact accepts_level (code := 0x0A) (by decide) (fun _ => rfl) h
  · exact accepts_level (code := 0x0B) (by decide) (fun _ => rfl) h
  · exact accepts_level (code := 0x10) (by decide) (fun _ => rfl) h
  · exact accepts_level (code := 0x11) (by decide) (fun _ => rfl) h
  · exact accepts_level (code := 0x12) (by decide) (fun _ => rfl) h
  · exact accepts_level (code := 0x13) (by decide) (fun _ => rfl) h
  · exact accepts_level (code := 0x14) (by decide) (fun _ => rfl) h

/-- Every word of a host event's row is accepted (R84). -/
theorem accepts_of_hostEventRow {r : OpcodeRow} {w : Word} (hr : r ∈ hostEventRows) (h : r.admits w = true) :
    ∃ i, decode w = .ok i := by
  simp only [hostEventRows, List.mem_cons, List.not_mem_nil, or_false] at hr
  rcases hr with rfl | rfl | rfl | rfl | rfl
  all_goals
    rw [eq_of_bits_whole (admits_single.1 h)]
    exact ⟨_, rfl⟩

/-- Settles O3: an accepted word is its instruction's word, which is a word of the instruction's row; and the words of
each part of the table are accepted. -/
theorem decoderAcceptsExactlyTheTable : Obligations.DecoderAcceptsExactlyTheTable := by
  intro w
  constructor
  · rintro ⟨i, h⟩
    obtain ⟨hwf, rfl⟩ := encodeOfDecode w i h
    obtain ⟨r, hr, -, hadmits, hopen⟩ := encodesToRow i hwf
    exact ⟨r, hr, hadmits, hopen⟩
  · rintro ⟨r, hr, hadmits, hopen⟩
    rw [opcodeTable, List.mem_append, List.mem_append] at hr
    rcases hr with (hbus | hinput) | hhost
    · obtain ⟨h31, hfields⟩ := bus_fields_of_row hbus hadmits
      exact (busWordsAcceptedExactly w h31).2 hfields
    · exact accepts_of_inputEventRow hinput hadmits hopen
    · exact accepts_of_hostEventRow hhost hadmits

/-! ### No word of two rows -/

/-- Two fixed fields (hi, lo, value) share bits of the word and give them different values. -/
def fieldsClash (f g : Nat × Nat × Nat) : Bool :=
  let hi := min f.1 g.1
  let lo := max f.2.1 g.2.1
  decide (lo ≤ hi)
    && f.2.2 / 2 ^ (lo - f.2.1) % 2 ^ (hi + 1 - lo) != g.2.2 / 2 ^ (lo - g.2.1) % 2 ^ (hi + 1 - lo)

/-- The bits of a field that lie in a wider field, read from the wider field's value (R9). -/
theorem bits_of_wider {w : Word} {hi lo hi' lo' : Nat} (hlo : lo' ≤ lo) (hhi : hi ≤ hi') (h : lo ≤ hi) :
    bits w hi lo = bits w hi' lo' / 2 ^ (lo - lo') % 2 ^ (hi + 1 - lo) := by
  have hwidth : 2 ^ (hi' + 1 - lo') = 2 ^ (lo - lo') * 2 ^ (hi' + 1 - lo) := by
    rw [← Nat.pow_add]
    congr 1
    omega
  have hdvd : 2 ^ (hi + 1 - lo) ∣ 2 ^ (hi' + 1 - lo) := Nat.pow_dvd_pow 2 (by omega)
  have hshift : w.toNat / 2 ^ lo' / 2 ^ (lo - lo') = w.toNat / 2 ^ lo := by
    rw [Nat.div_div_eq_div_mul, ← Nat.pow_add, Nat.add_sub_cancel' hlo]
  rw [bits, bits, hwidth, Nat.mod_mul_right_div_self, Nat.mod_mod_of_dvd _ hdvd, hshift]

/-- No word has two fields that clash. -/
theorem not_fieldsClash {w : Word} {f g : Nat × Nat × Nat} (hf : bits w f.1 f.2.1 = f.2.2)
    (hg : bits w g.1 g.2.1 = g.2.2) : fieldsClash f g = false := by
  by_cases h : max f.2.1 g.2.1 ≤ min f.1 g.1
  · have hleft := bits_of_wider (w := w) (le_max_left f.2.1 g.2.1) (min_le_left f.1 g.1) h
    have hright := bits_of_wider (w := w) (le_max_right f.2.1 g.2.1) (min_le_right f.1 g.1) h
    rw [hf] at hleft
    rw [hg] at hright
    simp only [fieldsClash, ← hleft, ← hright, bne_self_eq_false, Bool.and_false]
  · simp [fieldsClash, h]

/-- Two rows have fixed fields that clash. -/
def rowsClash (r q : OpcodeRow) : Bool := r.fixed.any fun f => q.fixed.any fun g => fieldsClash f g

/-- No word is admitted by two rows that clash. -/
theorem not_admits_of_rowsClash {r q : OpcodeRow} (h : rowsClash r q = true) (w : Word) :
    ¬(r.admits w = true ∧ q.admits w = true) := by
  rintro ⟨hr, hq⟩
  simp only [rowsClash, List.any_eq_true] at h
  obtain ⟨f, hf, g, hg, hclash⟩ := h
  simp only [OpcodeRow.admits, List.all_eq_true, beq_iff_eq] at hr hq
  rw [not_fieldsClash (hr f hf) (hq g hg)] at hclash
  cases hclash

/-- Each two rows of the table give some bits of the word different values. -/
theorem opcodeTable_rowsClash : opcodeTable.Pairwise fun r q => rowsClash r q = true := by decide

/-- Settles O4: each two rows clash, so no word matches both. -/
theorem opcodeRowsAreDisjoint : Obligations.OpcodeRowsAreDisjoint :=
  opcodeTable_rowsClash.imp not_admits_of_rowsClash

/-- Settles O6: twelve of the words are the words of their instructions, and the two others have an offset and a code
that no row lists. -/
theorem specWordsDecode : Obligations.SpecWordsDecode :=
  ⟨decodeOfEncode (.waveWr 0x11#8) rfl, decodeOfEncode .envdnRd rfl, decodeOfEncode (.volWr 0x80#8) rfl,
    decodeOfEncode (.pia0Wr 1#2 0x04#8) rfl, decodeOfEncode (.pia1Rd 0#2) rfl, decodeOfEncode (.ptmRd 4#3) rfl,
    decodeOfEncode (.unkWr7 0x55#8) rfl, decodeOfEncode (.pinRun true) rfl, decodeOfEncode (.pinWs 0x7F#7) rfl,
    decodeOfEncode .divTick rfl, decodeOfEncode (.irqIn4 true) rfl, decodeOfEncode .sampleTick rfl, rfl, rfl⟩

end Sys2Proof
end

section
/-! When there is no step (R85, R187), and the forwarding windows (R87, R88, R169 to R174). -/

namespace Sys2Proof.Machine

/-- The only refusals of an instruction are those of SAMPLE_TICK and RESTORE (R130, R184). -/
theorem exec_refused {i : Instr} {s : State} {r : Refusal} (h : exec i s = .refused r) :
    i = .sampleTick ∧ r = .timerDisabled ∨ i = .restore ∧ r = .badImage := by
  cases i
  case sampleTick =>
    change execSampleTick s = _ at h
    unfold execSampleTick at h
    split at h <;> cases h
    exact .inl ⟨rfl, rfl⟩
  case restore =>
    change execRestore s = _ at h
    unfold execRestore at h
    split at h <;> cases h
    exact .inr ⟨rfl, rfl⟩
  all_goals cases h

/-- A step finds the next word malformed exactly when the word does not decode (R85). -/
theorem step_malformed_iff {s : State} {inp : Input} {rest : List Input} (hin : s.inputs = inp :: rest) :
    (∃ why, step s = .refused (.malformed why)) ↔ ¬∃ i, decode inp.word = .ok i := by
  cases hdec : decode inp.word with
  | error why => simp [step_cons hin, hdec]
  | ok i =>
    have hexec : ∀ why, step s ≠ .refused (.malformed why) := by
      intro why h
      rw [step_of_decode hin hdec] at h
      obtain ⟨-, hr⟩ | ⟨-, hr⟩ := exec_refused h <;> cases hr
    simp [hexec]

/-- Settles O8: a word is refused as malformed exactly when it does not decode, which the opcode table decides (O3). -/
theorem noStepWithoutAWellFormedWord : Obligations.NoStepWithoutAWellFormedWord := by
  intro s
  refine ⟨step_nil, fun inp rest hin => ?_⟩
  rw [step_malformed_iff hin, decoderAcceptsExactlyTheTable]
  simp only [not_exists, not_and]

/-! ### The forwarding windows -/

/-- In the timer window bit 3 of the offset is 0, so a1 is bit 2 of it, whatever ptm_o[1] is (R88). -/
theorem ptmA1_ptmOffset (o1 : Bool) (offLo : BitVec 3) : ptmA1 o1 (ptmOffset offLo) = offLo.getLsbD 2 := by
  revert o1 offLo
  decide

/-- The register select of the timer window exchanges bits 1 and 2 of the offset (R88). -/
theorem ptmSelect_toNat (o1 : Bool) (offLo : BitVec 3) :
    (ptmSelect o1 (ptmOffset offLo)).toNat
      = offLo.toNat % 2 + 4 * (offLo.toNat / 2 % 2) + 2 * (offLo.toNat / 4) := by
  rw [ptmSelect, ptmA1_ptmOffset]
  revert offLo
  decide

/-- Settles O21: a forwarded write emits its event and nothing else; the timer's select is `ptmSelect_toNat`. -/
theorem forwardedWrites : Obligations.ForwardedWrites :=
  fun s _ o3 _ => ⟨rfl, rfl, _, rfl, ptmSelect_toNat s.ptm.o1 o3⟩

/-- Settles O22: a forwarded read emits its event and takes the next draw; the timer's select is `ptmSelect_toNat`. -/
theorem forwardedReads : Obligations.ForwardedReads :=
  fun s _ o3 => ⟨⟨_, rfl⟩, ⟨_, rfl⟩, _, _, rfl, ptmSelect_toNat s.ptm.o1 o3⟩

/-- Settles O23: the remap is a permutation, and its inverse gives the one offset of a register. -/
theorem piaSelectIsABijection : Obligations.PiaSelectIsABijection :=
  fun rs => ⟨Config.piaRs.symm rs, Config.piaRs.apply_symm_apply rs, fun _ h => Config.piaRs.eq_symm_apply.2 h⟩

end Sys2Proof.Machine
end

section
/-! The divider tick (R102, R103, R113 to R116). -/

namespace Sys2Proof.Machine

/-- The divider tick, whole: the new counter selects the fire output (D23), and the composite clock takes the level its
formula gives with it. -/
theorem tickDivider_eq {s : State} (h : s.eg.envClk = envClkOf s.lines.notLoad s.eg.eclk s.eg.edivOut) :
    let count := s.eg.edivCount + 1
    let fire := Config.rateTable s.eg.edivRate count
    let e : EnvGen := { s.eg with edivCount := count, edivOut := fire }
    let clk := envClkOf s.lines.notLoad s.eg.eclk fire
    tickDivider s = { s with eg := e.afterEnvClk clk, outputs := s.outputs ++ e.clockEvents clk } :=
  setEdivOut_eq (s := s.onEg fun e => { e with edivCount := e.edivCount + 1 }) _ h

/-- Settles O32: the whole effect of the tick, with the composite clock's formula read as a choice. -/
theorem dividerTick : Obligations.DividerTick := by
  intro s hinv
  obtain ⟨-, -, -, hclk, -⟩ := quiescent_iff.1 hinv.quiescent
  change Host.Outcome.next (tickDivider s) = _
  rw [tickDivider_eq hclk, envClkOf_eq]
  rfl

end Sys2Proof.Machine
end

section
/-! The envelope (R110 to R117): its derived values as numbers, one clock as a number, and the clock input. -/

namespace Sys2Proof.Machine

/-! ### The selector and tri as numbers -/

/-- The bits the selector takes from a byte, as a number: the high nibble above two set bits (R110). -/
theorem selectorBits_toNat (v : Byte) :
    ((((v >>> 2) &&& 0x3C#8) ||| 0x03#8).setWidth 6).toNat = 4 * (v.toNat / 16) + 3 := by
  have hbits : (((v >>> 2) &&& 0x3C#8) ||| 0x03#8).setWidth 6 = v.extractLsb' 4 4 ++ 3#2 := by
    refine BitVec.eq_of_getLsbD_eq fun i hi => ?_
    rw [BitVec.getLsbD_append]
    interval_cases i <;> simp
  rw [hbits, BitVec.toNat_append, ← Nat.shiftLeft_add_eq_or_of_lt (by decide)]
  simp only [BitVec.extractLsb'_toNat, BitVec.toNat_ofNat, Nat.shiftLeft_eq, Nat.shiftRight_eq_div_pow]
  omega

/-- The complement the selector takes going UP, as a number (R110). -/
theorem complement_toNat (v : Byte) : (0xFF#8 ^^^ v).toNat = 255 - v.toNat :=
  (congrArg BitVec.toNat (BitVec.not_def (x := v)).symm).trans BitVec.toNat_not

/-- The selector as a number: that of the value, or of its complement going UP (R110). -/
theorem edivRateOf_toNat (d : EnvDir) (v : Byte) :
    (edivRateOf d v).toNat = 4 * ((if d = .up then 255 - v.toNat else v.toNat) / 16) + 3 := by
  cases d with
  | down => exact selectorBits_toNat v
  | up => simp only [edivRateOf, selectorBits_toNat, complement_toNat, if_true]

/-- Tri is asserted at the end of the range the direction runs to (R111). -/
theorem triOf_iff {d : EnvDir} {v : Byte} :
    triOf d v = true ↔ d = .down ∧ v.toNat = 0x00 ∨ d = .up ∧ v.toNat = 0xFF := by
  simp [triOf, ← BitVec.toNat_inj]

/-- Settles O34: each procedure writes the one field, whose value as a number is `edivRateOf_toNat` or `triOf_iff`. -/
theorem selectorAndTerminalFlag : Obligations.SelectorAndTerminalFlag :=
  fun s => ⟨⟨_, rfl, edivRateOf_toNat s.eg.envDir s.eg.env⟩, _, rfl, triOf_iff⟩

/-! ### The clock input -/

/-- Settles O31: the whole effect of the clock input, with the composite clock's formula read as a choice. -/
theorem envelopeClockInput : Obligations.EnvelopeClockInput := by
  intro s v hinv
  obtain ⟨-, -, -, hclk, -⟩ := quiescent_iff.1 hinv.quiescent
  change Host.Outcome.next (setEclk v s) = _
  rw [setEclk_eq v hclk, envClkOf_eq]
  rfl

/-! ### The envelope never wraps -/

/-- The value is `v`, or one on from `v` in the direction in force, as a number. -/
def EnvGen.WithinOneOf (e : EnvGen) (v : Byte) : Prop :=
  e.env = v ∨ (e.envDir = .up ∧ e.env.toNat = v.toNat + 1) ∨ (e.envDir = .down ∧ e.env.toNat + 1 = v.toNat)

/-- Away from the top a step up adds one (R111, R114). -/
theorem envStep_up_toNat {v : Byte} (h : triOf .up v = false) : (envStep .up v).toNat = v.toNat + 1 := by
  have htop : v.toNat ≠ 0xFF := fun hv => by simp [triOf_iff.2 (.inr ⟨rfl, hv⟩)] at h
  simp only [envStep]
  bv_omega

/-- Away from the bottom a step down takes one (R111, R114). -/
theorem envStep_down_toNat {v : Byte} (h : triOf .down v = false) : (envStep .down v).toNat + 1 = v.toNat := by
  have hbottom : v.toNat ≠ 0x00 := fun hv => by simp [triOf_iff.2 (.inl ⟨rfl, hv⟩)] at h
  simp only [envStep]
  bv_omega

/-- A clock away from the end of the range moves the value by one (R111, R114). -/
theorem EnvGen.afterClock_withinOneOf {e : EnvGen} (h : triOf e.envDir e.env = false) :
    e.afterClock.WithinOneOf e.env := by
  rw [EnvGen.afterClock_eq]
  cases hd : e.envDir with
  | up => exact .inr (.inl ⟨hd, envStep_up_toNat (hd ▸ h)⟩)
  | down => exact .inr (.inr ⟨hd, envStep_down_toNat (hd ▸ h)⟩)

/-- With tri current, no level of the composite clock wraps the value: at the end of the range tri halts it (R111,
R114, R116). -/
theorem EnvGen.afterEnvClk_withinOneOf {e : EnvGen} (h : e.Derived) (clk : Bool) :
    (e.afterEnvClk clk).WithinOneOf e.env := by
  unfold EnvGen.afterEnvClk
  split
  · rename_i hclocked
    simp only [Bool.and_eq_true, Bool.not_eq_true'] at hclocked
    obtain ⟨-, htri⟩ := hclocked
    exact EnvGen.afterClock_withinOneOf (e := { e with envClk := clk }) (h.2.symm.trans htri)
  · exact .inl rfl

/-- A strobe keeps the derived values current (R112, R134). -/
theorem EnvGen.afterStrobe_derived {e : EnvGen} (h : e.Derived) (notEload : Bool) : (e.afterStrobe notEload).Derived := by
  cases notEload with
  | true => exact h
  | false => exact EnvGen.withDir_derived ..

/-- A load pin level moves the value by at most one: its strobe only applies the direction, before the clock (R142). -/
theorem setNotLoad_withinOneOf (v : Bool) {s : State} (h : s.toBlock.Quiescent) :
    (setNotLoad v s).eg.WithinOneOf s.eg.env := by
  by_cases hv : v = s.lines.notLoad
  · rw [setNotLoad, if_pos hv]
    exact .inl rfl
  · have henv : (s.eg.afterStrobe s.lines.notEload).env = s.eg.env := by simp
    have hd := EnvGen.afterStrobe_derived (PermissionSettled.of_quiescent h).derived s.lines.notEload
    rw [setNotLoad_change h hv, ← henv]
    exact EnvGen.afterEnvClk_withinOneOf hd _

/-- Settles O33: only the divider tick, the clock input and the load pin can change the value (O48), and each gives the
composite clock one level while tri is current. -/
theorem envelopeNeverWraps : Obligations.EnvelopeNeverWraps := by
  intro s t i hinv hexec hreset hrestore
  obtain ⟨-, -, hperm, hclk, -⟩ := quiescent_iff.1 hinv.quiescent
  have hd : s.eg.Derived := hperm.derived
  obtain ⟨-, -, -, -, hwriters, -⟩ := eachFieldHasItsWriters s t i hexec hreset hrestore
  change t.eg.WithinOneOf s.eg.env
  obtain ⟨hsame, -⟩ | rfl | ⟨v, rfl⟩ | ⟨v, rfl⟩ := hwriters
  · exact .inl hsame
  · cases hexec
    rw [tickDivider_eq hclk]
    refine EnvGen.afterEnvClk_withinOneOf ?_ _
    exact hd
  · cases hexec
    rw [setEclk_eq v hclk]
    refine EnvGen.afterEnvClk_withinOneOf ?_ _
    exact hd
  · cases hexec
    exact setNotLoad_withinOneOf v hinv.quiescent

end Sys2Proof.Machine
end

section
/-! The three instructions that advance the wave address, said once, and what each kind of advance does (R120 to R130,
R145 to R147). -/

namespace Sys2Proof.Machine

/-! ### An advancing instruction -/

/-- `t` holds what one advance from the settled state `s` gives: the wave address, the envelope generator, the control
lines and the output list (R120). What else the advancing instruction writes is left open. -/
structure AdvancedFrom (s t : State) : Prop where
  lsb : t.seq.lsb = s.seq.lsb + 1
  msb : t.seq.msb = if zxOf t.seq.lsb = zxOf s.seq.lsb then s.seq.msb else crossingMsb (zxOf t.seq.lsb) s
  eg : t.eg = if s.nextZxFf t.seq.lsb && !s.lines.notEload then s.eg.withDir s.eg.envDirCtrl else s.eg
  lines : t.lines = s.linesAfterLsb t.seq.lsb
  outputs : t.outputs = s.outputs
    ++ (if zxOf t.seq.lsb = zxOf s.seq.lsb then [] else crossingEvents (zxOf t.seq.lsb) s)

theorem advance_advancedFrom {s : State} (hz : s.toBlock.ZeroCrossingSettled) (hg : s.toBlock.GatesSettled)
    (hp : PermissionSettled s) : AdvancedFrom s (advance s) := by
  rw [advance_eq hz hg hp]
  exact ⟨rfl, rfl, rfl, rfl, rfl⟩

/-- Every advancing instruction has a next state, which holds one advance: the byte a write stores or a tick fetches
before it is not read by the advance (R120, R130, R161, R162; D13). -/
theorem exec_advancedFrom {i : Instr} {s : State} (h : s.toBlock.Quiescent) (ha : advances i s) :
    ∃ t, exec i s = .next t ∧ AdvancedFrom s t := by
  obtain ⟨hz, hg, hp, -⟩ := quiescent_iff.1 h
  obtain ⟨d, rfl⟩ | ⟨rfl, hread⟩ | ⟨rfl, hen⟩ := ha
  · obtain ⟨hlsb, hmsb, heg, hlines, hout⟩ :=
      advance_advancedFrom (s := s.waveWrite d) hz hg ⟨hp.permit, hp.applied, hp.derived⟩
    exact ⟨_, rfl, hlsb, hmsb, heg, hlines, hout⟩
  · obtain ⟨hlsb, hmsb, heg, hlines, hout⟩ := afterWaveRead_of_clear hread ▸ advance_advancedFrom hz hg hp
    exact ⟨_, rfl, hlsb, hmsb, heg, hlines, hout⟩
  · obtain ⟨hlsb, hmsb, heg, hlines, hout⟩ :=
      advance_advancedFrom (s := s.onSeq fun q => { q with waveByte := s.waveRead }) hz hg
        ⟨hp.permit, hp.applied, hp.derived⟩
    exact ⟨_, execSampleTick_eq_next.2 ⟨hen, rfl⟩, hlsb, hmsb, heg, hlines, hout⟩

/-! ### From 63 to 64 -/

theorem zxOf_64 : zxOf 64#7 = true := by decide

/-- The value a rise of upper_load puts into the MSB, as a number: ws below a set bit 7 (R146). -/
theorem msbLoadValue_toNat (ws : BitVec 7) : (msbLoadValue ws).toNat = 0x80 + ws.toNat := by
  have hws := ws.isLt
  rw [msbLoadValue, BitVec.toNat_or, BitVec.toNat_setWidth, Nat.mod_eq_of_lt (by omega)]
  exact (Nat.two_pow_add_eq_or_of_lt hws 1).symm

/-- Settles O13: at 63 the advance raises bit 6, so `AdvancedFrom` gives a whole rising zero crossing. -/
theorem risingZeroCrossing : Obligations.RisingZeroCrossing := by
  intro s i hinv ha h63
  obtain ⟨t, hexec, hadv⟩ := exec_advancedFrom hinv.quiescent ha
  have h64 : t.seq.lsb = 64#7 := by simp [hadv.lsb, h63]
  have hff : s.nextZxFf 64#7 = if s.lines.run then s.ptm.o1 else s.lines.zxFf := by
    simp [State.nextZxFf, h63, zxOf_64, zxOf_63]
  have hlines := hadv.lines
  have heg := hadv.eg
  simp only [State.linesAfterLsb, h64, hff, zxOf_64, Bool.and_true] at hlines
  rw [h64, hff] at heg
  refine ⟨t, hexec, h64, ?_⟩
  rw [hlines]
  refine ⟨rfl, rfl, rfl, rfl, rfl, rfl, rfl, rfl, ?_, ?_, ?_⟩
  · rw [heg]
    exact apply_ite EnvGen.envDir ..
  · rw [hadv.msb, h64, h63, zxOf_64, zxOf_63, ← msbLoadValue_toNat, ← apply_ite BitVec.toNat]
    rfl
  · simp [hadv.outputs, h64, h63, zxOf_64, zxOf_63, crossingEvents]

/-! ### Without a rise of bit 6 -/

theorem zxOf_0 : zxOf 0#7 = false := by decide

/-- Unless bit 6 of lsb rises, nothing is latched (R125). -/
theorem State.nextZxFf_of_no_rise {s : State} {v : BitVec 7} (h : zxOf v = false ∨ zxOf v = zxOf s.seq.lsb) :
    s.nextZxFf v = s.lines.zxFf := by
  rcases h with hlow | hsame
  · simp [State.nextZxFf, hlow]
  · simp [State.nextZxFf, hsame]

/-- An advance that does not raise bit 6 of lsb reaches no gate and no envelope field: only the four zero-crossing
lines follow lsb (R121, R122, R125). -/
theorem AdvancedFrom.of_no_rise {s t : State} (h : AdvancedFrom s t) (hq : s.toBlock.Quiescent)
    (hrise : zxOf t.seq.lsb = false ∨ zxOf t.seq.lsb = zxOf s.seq.lsb) :
    t.eg = s.eg ∧ t.lines = { s.lines with
      zx := zxOf t.seq.lsb, zxFfClk := zxOf t.seq.lsb
      msbClk := !s.lines.notLoad && zxOf t.seq.lsb, ptmC1 := !s.lines.notLoad && zxOf t.seq.lsb } := by
  obtain ⟨-, ⟨-, hgzx, hupper, -⟩, hp, -⟩ := quiescent_iff.1 hq
  have hff := State.nextZxFf_of_no_rise hrise
  have hperm : s.lines.permitEload = (s.lines.zxFf && !s.lines.notEload) := by rw [hp.permit, hgzx, permitEloadOf]
  constructor
  · rw [h.eg, hff, ← hperm]
    split
    · rename_i hpt
      exact EnvGen.withDir_self hp.derived (hp.applied hpt)
    · rfl
  · rw [h.lines]
    apply Lines.eq_of_fields
    simp [State.linesAfterLsb, hff, hgzx, hupper, hperm]

/-- Settles O14: at 127 the advance lowers bit 6, so it reaches no gate, and `AdvancedFrom` gives the falling zero
crossing. -/
theorem fallingZeroCrossing : Obligations.FallingZeroCrossing := by
  intro s i hinv ha h127
  obtain ⟨t, hexec, hadv⟩ := exec_advancedFrom hinv.quiescent ha
  have h0 : t.seq.lsb = 0#7 := by simp [hadv.lsb, h127]
  obtain ⟨heg, hlines⟩ := hadv.of_no_rise hinv.quiescent (.inl (h0 ▸ zxOf_0))
  refine ⟨t, hexec, h0, ?_, heg, ?_, ?_⟩
  · simp [hlines, h0, zxOf_0]
  · simp [hadv.msb, h0, h127, zxOf_0, zxOf_127, crossingMsb]
  · simp [hadv.outputs, h0, h127, zxOf_0, zxOf_127, crossingEvents]

/-- Settles O15: any other advance leaves bit 6 of lsb as it is, and the zero-crossing lines already follow it. -/
theorem advanceWithoutCrossing : Obligations.AdvanceWithoutCrossing := by
  intro s i hinv ha hne63 hne127
  obtain ⟨t, hexec, hadv⟩ := exec_advancedFrom hinv.quiescent ha
  have hsame : zxOf t.seq.lsb = zxOf s.seq.lsb := by rw [hadv.lsb, zxOf_succ, if_neg hne63, if_neg hne127]
  obtain ⟨heg, hlines⟩ := hadv.of_no_rise hinv.quiescent (.inr hsame)
  obtain ⟨hzx, hclk, hmsbClk, hptmC1⟩ := hinv.quiescent.1
  refine ⟨t, hexec, hadv.lsb, ?_, heg, ?_, ?_⟩
  · rw [hlines, hsame]
    apply Lines.eq_of_fields
    simp [hzx, hclk, hmsbClk, hptmC1, zxFfClkOf, msbClkOf, ptmC1Of]
  · rw [hadv.msb, if_pos hsame]
  · rw [hadv.outputs, if_pos hsame, List.append_nil]

end Sys2Proof.Machine
end

section
/-! The sample path (R130 to R132, R202): the sample formula is exact, and the effects of the tick and of the pull. -/

namespace Sys2Proof.Machine

/-! ### The sample formula -/

/-- The range of the product before the shift: a signed byte times two unsigned bytes (R131). -/
theorem sampleProduct_bounds (b env vol : Byte) :
    -8323200 ≤ b.toInt * env.toNat * vol.toNat ∧ b.toInt * env.toNat * vol.toNat ≤ 8258175 := by
  have hlow : -128 ≤ b.toInt := BitVec.le_toInt b
  have hhigh : b.toInt ≤ 127 := by have := BitVec.toInt_lt (x := b); omega
  have hscale : env.toNat * vol.toNat ≤ 255 * 255 := Nat.mul_le_mul (by omega) (by omega)
  rw [mul_assoc, ← Nat.cast_mul]
  generalize env.toNat * vol.toNat = k at hscale
  have hl := mul_le_mul_of_nonneg_right hlow (Int.natCast_nonneg k)
  have hh := mul_le_mul_of_nonneg_right hhigh (Int.natCast_nonneg k)
  omega

/-- The sample is the product divided by 256, rounding toward minus infinity: the quotient fits 16 bits (R131, R202;
D20). -/
theorem sampleOf_toInt (wave env vol : Byte) :
    (sampleOf wave env vol).toInt = ((wave ^^^ 0x80#8).toInt * env.toNat * vol.toNat).fdiv 256 := by
  obtain ⟨hlow, hhigh⟩ := sampleProduct_bounds (wave ^^^ 0x80#8) env vol
  rw [sampleOf, asr, Int.fdiv_eq_ediv_of_nonneg _ (by decide), BitVec.toInt_ofInt]
  exact Int.bmod_eq_of_le (by omega) (by omega)

/-- Settles O36: exact by `sampleOf_toInt`, and the range is the product's divided by 256. -/
theorem sampleNeverTruncates : Obligations.SampleNeverTruncates := by
  intro wave env vol
  obtain ⟨hlow, hhigh⟩ := sampleProduct_bounds (wave ^^^ 0x80#8) env vol
  have hexact := sampleOf_toInt wave env vol
  have hfloor := Int.fdiv_eq_ediv_of_nonneg ((wave ^^^ 0x80#8).toInt * env.toNat * vol.toNat) (b := 256) (by decide)
  exact ⟨hexact, by omega, by omega, sampleOf_neutral env vol⟩

/-! ### The tick and the pull -/

/-- The frame of the chain as an equation: with new_addr, the strobe line and the pulser's memory unchanged, `t` is `s`
with what a zero crossing can reach (R120 to R129). -/
theorem eq_withCrossingOf_of_chainFrame {s t : State} (h : ChainFrame s t) (hnew : t.seq.newAddr = s.seq.newAddr)
    (hstrobe : t.lines.notRstb = s.lines.notRstb) (hx : t.lines.rstbX = s.lines.rstbX) : t = s.withCrossingOf t := by
  obtain ⟨hram, hwave, hsample, hdir, hlatches, hrun, hload, hwpe, heload, hpins, hptm, hirq, hin, hcar, hres,
    hdraws⟩ := h
  refine State.eq_of_fields (Block.eq_of_groups hram ?_ ?_ hlatches ?_ hpins hptm hirq) hin hcar rfl hres hdraws
  · exact Sequencer.eq_of_fields ⟨rfl, rfl, hnew, hwave, hsample⟩
  · obtain ⟨henv, hctrl, htri, hcount, hdiv, heclk, hclk⟩ := hdir
    exact EnvGen.eq_of_fields ⟨henv, rfl, hctrl, rfl, rfl, htri, hcount, hdiv, heclk, hclk⟩
  · exact Lines.eq_of_fields
      ⟨hrun, hload, hwpe, heload, rfl, rfl, rfl, rfl, rfl, hstrobe, rfl, rfl, rfl, hx⟩

/-- A sample tick takes the byte at the wave address before it advances (R130). -/
theorem sampleTick_waveByte (s : State) : (sampleTick s).seq.waveByte = s.ram.read s.addr := by
  simp [sampleTick, updateSample, State.waveRead]

/-- An advance leaves the envelope's value and the volume alone, so the new sample is that of the fetched byte (R130,
R131). -/
theorem sampleTick_currentSample (s : State) :
    (sampleTick s).seq.currentSample = sampleOf (s.ram.read s.addr) s.eg.env s.latches.volLatch := by
  simp [sampleTick, updateSample, State.waveRead]

/-- A sample tick is an advance but for the wave byte and the sample (R130). -/
theorem sampleTick_chainFrame (s : State) :
    ChainFrame (s.onSeq fun q => { q with
      waveByte := (sampleTick s).seq.waveByte, currentSample := (sampleTick s).seq.currentSample }) (sampleTick s) := by
  simp

/-- Settles O35: the byte and the sample are `sampleTick_waveByte` and `sampleTick_currentSample`, the latter a number
by `sampleOf_toInt`; the frame is that of an advance. -/
theorem sampleTickComputesTheSample : Obligations.SampleTickComputesTheSample := by
  intro s
  refine ⟨fun hen => ⟨sampleTick s, ?_, sampleTick_waveByte s, ?_, ?_, ?_⟩, fun hdis => ?_⟩
  · exact execSampleTick_eq_next.2 ⟨hen, rfl⟩
  · simp [sampleTick, updateSample]
  · rw [sampleTick_currentSample, sampleOf_toInt]
  · exact eq_withCrossingOf_of_chainFrame (sampleTick_chainFrame s) (by simp) (by simp) (by simp)
  · simp [exec, execSampleTick, hdis]

/-- Settles O37: the pull's one update is the result, by definition the sample while run is high and 0 otherwise. -/
theorem pullReturnsTheSampleOrSilence : Obligations.PullReturnsTheSampleOrSilence :=
  fun _ => rfl

end Sys2Proof.Machine
end

section
/-! The zero-crossing interrupt (R127, R204), in any state: only a latch of the flip-flop emits the pulse, whole, and no
instruction latches twice. -/

namespace Sys2Proof.Machine

/-- No part of the zero-crossing pulse is among the events. -/
def NoPulse (es : List OutEvent) : Prop := es.filter OutEvent.isZcint = []

/-- The pulse is among the events at most once, its assert and its deassert side by side (R127, R204). -/
def AtMostOnePulse (es : List OutEvent) : Prop :=
  NoPulse es ∨ ∃ pre post, es = pre ++ [.zcint true, .zcint false] ++ post ∧ NoPulse pre ∧ NoPulse post

theorem NoPulse.append {es es' : List OutEvent} (h : NoPulse es) (h' : NoPulse es') : NoPulse (es ++ es') := by
  rw [NoPulse, List.filter_append, h, h', List.append_nil]

/-- From `s` to `t` events have been emitted, and no part of the pulse. -/
def Unpulsed (s t : State) : Prop := ∃ es, t.outputs = s.outputs ++ es ∧ NoPulse es

/-- From `s` to `t` events have been emitted with the pulse among them at most once. -/
def PulsedAtMostOnce (s t : State) : Prop := ∃ es, t.outputs = s.outputs ++ es ∧ AtMostOnePulse es

namespace Unpulsed

theorem of_silent {s t : State} (ho : t.outputs = s.outputs) : Unpulsed s t := ⟨[], by simp [ho], rfl⟩

theorem refl (s : State) : Unpulsed s s := of_silent rfl

theorem trans {s t u : State} (h : Unpulsed s t) (h' : Unpulsed t u) : Unpulsed s u := by
  obtain ⟨es, ho, hes⟩ := h
  obtain ⟨es', ho', hes'⟩ := h'
  exact ⟨es ++ es', by rw [ho', ho, List.append_assoc], hes.append hes'⟩

theorem pulsedAtMostOnce {s t : State} (h : Unpulsed s t) : PulsedAtMostOnce s t := by
  obtain ⟨es, ho, hes⟩ := h
  exact ⟨es, ho, .inl hes⟩

end Unpulsed

namespace PulsedAtMostOnce

/-- Before the pulse may come other events. -/
theorem after {s t u : State} (h : PulsedAtMostOnce t u) (h' : Unpulsed s t) : PulsedAtMostOnce s u := by
  obtain ⟨es, ho, hes⟩ := h
  obtain ⟨es', ho', hes'⟩ := h'
  refine ⟨es' ++ es, by rw [ho, ho', List.append_assoc], ?_⟩
  obtain hes | ⟨pre, post, rfl, hpre, hpost⟩ := hes
  · exact .inl (hes'.append hes)
  · exact .inr ⟨es' ++ pre, post, by simp, hes'.append hpre, hpost⟩

/-- After the pulse may come other events. -/
theorem before {s t u : State} (h : PulsedAtMostOnce s t) (h' : Unpulsed t u) : PulsedAtMostOnce s u := by
  obtain ⟨es, ho, hes⟩ := h
  obtain ⟨es', ho', hes'⟩ := h'
  refine ⟨es ++ es', by rw [ho', ho, List.append_assoc], ?_⟩
  obtain hes | ⟨pre, post, rfl, hpre, hpost⟩ := hes
  · exact .inl (hes.append hes')
  · exact .inr ⟨pre, post ++ es', by simp, hpre, hpost.append hes'⟩

end PulsedAtMostOnce

/-! ### The zero-crossing chain: one latch at most -/

/-- A latch emits the pulse and nothing else; without one nothing is emitted (R125, R127). -/
theorem setZxFfClk_pulsedAtMostOnce (v : Bool) (s : State) : PulsedAtMostOnce s (setZxFfClk v s) := by
  refine ⟨_, (setZxFfClk_latch v s).2, ?_⟩
  split
  · exact .inr ⟨[], [], rfl, rfl, rfl⟩
  · exact .inl rfl

theorem updatePtmC1_unpulsed (s : State) : Unpulsed s (updatePtmC1 s) := by
  refine ⟨_, updatePtmC1_outputs s, ?_⟩
  split <;> rfl

theorem setZx_pulsedAtMostOnce (v : Bool) (s : State) : PulsedAtMostOnce s (setZx v s) := by
  unfold setZx
  split
  · exact (Unpulsed.refl s).pulsedAtMostOnce
  · have hzx : Unpulsed s (zxOut (updateMsbClk (s.onLines fun l => { l with zx := v }))) :=
      ⟨[.zxOut v], by simp, rfl⟩
    exact ((setZxFfClk_pulsedAtMostOnce ..).after hzx).before (updatePtmC1_unpulsed _)

theorem setLsb_pulsedAtMostOnce (v : BitVec 7) (s : State) : PulsedAtMostOnce s (setLsb v s) := by
  unfold setLsb
  split
  · exact (Unpulsed.refl s).pulsedAtMostOnce
  · exact setZx_pulsedAtMostOnce _ (s.onSeq fun q => { q with lsb := v })

theorem advance_pulsedAtMostOnce (s : State) : PulsedAtMostOnce s (advance s) := setLsb_pulsedAtMostOnce ..

/-- A strobe sets lsb once; what gzx reaches on its edges is silent (R134, R144). -/
theorem strobe_pulsedAtMostOnce (s : State) : PulsedAtMostOnce s (strobe s) := by
  have hedges : Unpulsed s (setNotRstb true (setNotRstb false (s.onSeq fun q => { q with newAddr := true }))) :=
    .of_silent (by simp)
  exact ((setLsb_pulsedAtMostOnce 0#7 _).after hedges).before (.of_silent rfl)

theorem checkRstb_pulsedAtMostOnce (s : State) : PulsedAtMostOnce s (checkRstb s) := by
  unfold checkRstb
  dsimp only
  split
  · exact (Unpulsed.refl s).pulsedAtMostOnce
  · exact (strobe_pulsedAtMostOnce _).after (.of_silent rfl)

/-! ### The envelope clock, the pins and the interrupt merge -/

theorem updateEnvClk_unpulsed (s : State) : Unpulsed s (updateEnvClk s) := by
  rw [updateEnvClk_eq]
  refine ⟨_, rfl, ?_⟩
  unfold EnvGen.clockEvents
  split <;> rfl

theorem setEclk_unpulsed (v : Bool) (s : State) : Unpulsed s (setEclk v s) := by
  unfold setEclk
  split
  · exact .refl s
  · exact (Unpulsed.of_silent rfl).trans (updateEnvClk_unpulsed _)

theorem tickDivider_unpulsed (s : State) : Unpulsed s (tickDivider s) := by
  simp only [tickDivider, setEdivOut]
  split
  · exact .of_silent rfl
  · exact (Unpulsed.of_silent rfl).trans (updateEnvClk_unpulsed _)

theorem startRun_unpulsed (s : State) : Unpulsed s (startRun s) := by
  rw [startRun_eq]
  exact ⟨_, rfl, rfl⟩

theorem stopRun_unpulsed (s : State) : Unpulsed s (stopRun s) := by
  rw [stopRun_eq]
  exact ⟨_, rfl, rfl⟩

theorem setRun_pulsedAtMostOnce (v : Bool) (s : State) : PulsedAtMostOnce s (setRun v s) := by
  unfold setRun
  split
  · exact (Unpulsed.refl s).pulsedAtMostOnce
  · have hrun : Unpulsed s (s.onLines fun l => { l with run := v }) := .of_silent rfl
    cases v with
    | true => exact (checkRstb_pulsedAtMostOnce _).after (hrun.trans (startRun_unpulsed _))
    | false => exact (checkRstb_pulsedAtMostOnce _).after (hrun.trans (stopRun_unpulsed _))

theorem setNotLoad_pulsedAtMostOnce (v : Bool) (s : State) : PulsedAtMostOnce s (setNotLoad v s) := by
  unfold setNotLoad
  split
  · exact (Unpulsed.refl s).pulsedAtMostOnce
  · have hload : Unpulsed s (s.onLines fun l => { l with notLoad := v }) := .of_silent rfl
    exact ((checkRstb_pulsedAtMostOnce _).after hload).before
      ((updatePtmC1_unpulsed _).trans (updateEnvClk_unpulsed _))

theorem reprogramIfRunning_unpulsed (s : State) : Unpulsed s (reprogramIfRunning s) := by
  unfold reprogramIfRunning
  split
  · exact ⟨_, rfl, rfl⟩
  · exact .refl s

theorem setPitch_unpulsed (v : Nat) (s : State) : Unpulsed s (setPitch v s) := by
  unfold setPitch
  split
  · exact .refl s
  · exact (Unpulsed.of_silent rfl).trans (reprogramIfRunning_unpulsed _)

theorem setOctave_unpulsed (v : Nat) (s : State) : Unpulsed s (setOctave v s) := by
  unfold setOctave
  split
  · exact .refl s
  · exact (Unpulsed.of_silent rfl).trans (reprogramIfRunning_unpulsed _)

theorem mergeIrq_unpulsed (s : State) : Unpulsed s (mergeIrq s) := by
  rw [mergeIrq_eq]
  refine ⟨_, rfl, ?_⟩
  split <;> rfl

/-- An access to an outside agent is no part of the pulse. -/
theorem noPulse_of_isAccess {e : OutEvent} (h : e.isAccess = true) : NoPulse [e] := by
  cases e with
  | piaWr | piaRd | ptmWr | ptmRd | diagUnknown => rfl
  | zxOut | zcint | triOut | ptmC1 | ptmGate | timerStart | timerStop | timerReprogram | irq => cases h

/-! ### Instructions -/

/-- Every effect emits the pulse at most once: an advance and a strobe can, the others cannot. -/
theorem Effect.pulsedAtMostOnce {i : Instr} {s t : State} (he : Effect s i t) : PulsedAtMostOnce s t := by
  cases he with
  | waveWrite d => exact (advance_pulsedAtMostOnce _).after (.of_silent rfl)
  | waveRead r =>
    cases hn : s.seq.newAddr with
    | true =>
      rw [afterWaveRead_of_pending hn]
      exact (Unpulsed.of_silent rfl).pulsedAtMostOnce
    | false =>
      rw [afterWaveRead_of_clear hn]
      exact (advance_pulsedAtMostOnce s).before (.of_silent rfl)
  | sampleTick hen =>
    have hbyte : Unpulsed s (s.onSeq fun q => { q with waveByte := s.waveRead }) := .of_silent rfl
    exact ((advance_pulsedAtMostOnce _).after hbyte).before (.of_silent rfl)
  | run v => exact setRun_pulsedAtMostOnce v s
  | notLoad v => exact setNotLoad_pulsedAtMostOnce v s
  | access e he hb ho => exact Unpulsed.pulsedAtMostOnce ⟨[e], ho, noPulse_of_isAccess he⟩
  | pitch v => exact (setPitch_unpulsed v s).pulsedAtMostOnce
  | octave v => exact (setOctave_unpulsed v s).pulsedAtMostOnce
  | eclk v => exact (setEclk_unpulsed v s).pulsedAtMostOnce
  | divTick => exact (tickDivider_unpulsed s).pulsedAtMostOnce
  | interrupt f hi hf => exact (mergeIrq_unpulsed (s.onIrq f)).pulsedAtMostOnce
  | quiet hb ho | select d hi hb ho => exact (Unpulsed.of_silent ho).pulsedAtMostOnce
  | notWpe v =>
    rw [setNotWpe_eq]
    exact (Unpulsed.of_silent rfl).pulsedAtMostOnce
  | notEload v => exact (Unpulsed.of_silent (by simp)).pulsedAtMostOnce
  | volume | filter | ws | ptmO1 | ptmO2 | ptmO3 => exact (Unpulsed.of_silent rfl).pulsedAtMostOnce

/-- Every instruction emits the pulse at most once; RESET and RESTORE emit nothing (R184, R220). -/
theorem exec_pulsedAtMostOnce {i : Instr} {s t : State} (h : exec i s = .next t) : PulsedAtMostOnce s t := by
  by_cases hreset : i = .reset
  · subst hreset
    cases h
    exact (Unpulsed.of_silent rfl).pulsedAtMostOnce
  by_cases hrestore : i = .restore
  · subst hrestore
    obtain ⟨b, -, rfl⟩ := execRestore_eq_next.1 h
    exact (Unpulsed.of_silent rfl).pulsedAtMostOnce
  exact (exec_effect h hreset hrestore).pulsedAtMostOnce

/-- Settles O39: the pulse writes the output list only, and `exec_pulsedAtMostOnce` says it of every instruction. -/
theorem zeroCrossingInterruptIsAPulse : Obligations.ZeroCrossingInterruptIsAPulse := by
  refine ⟨fun s => ?_, fun s t i h => exec_pulsedAtMostOnce h⟩
  simp [pulseZcint, State.emit]

end Sys2Proof.Machine
end

section
/-! The input pins (R142, R143, R148 to R151, R180): the strobe of a run or load change read as the statements write it,
and the registers that are only stored. -/

namespace Sys2Proof.Machine

/-! ### What a strobe leaves in a settled state -/

/-- In a settled state the gates already follow the flip-flop, so a strobe writes the four zero-crossing lines only
(R134, R51). -/
theorem afterStrobe_lines_of_quiescent {s : State} (h : s.toBlock.Quiescent) :
    s.lines.afterStrobe = { s.lines with zx := false, zxFfClk := false, msbClk := false, ptmC1 := false } := by
  obtain ⟨-, ⟨-, hgzx, hupper, hpermit⟩, -⟩ := h
  apply Lines.eq_of_fields
  simp [Lines.afterStrobe, hpermit, permitEloadOf, hupper, hgzx]

/-- A strobe puts the control latch in force while the envelope-load pin is low, and otherwise keeps the direction
(R145, R148). -/
theorem EnvGen.afterStrobe_envDir (e : EnvGen) (notEload : Bool) :
    (e.afterStrobe notEload).envDir = if notEload then e.envDir else e.envDirCtrl :=
  apply_ite EnvGen.envDir ..

/-- With the derived values current, a strobe replaces the direction and recomputes them, even where the direction
stays (R112, R134). -/
theorem EnvGen.afterStrobe_eq_withDir {e : EnvGen} (h : e.Derived) (notEload : Bool) :
    e.afterStrobe notEload = e.withDir (if notEload then e.envDir else e.envDirCtrl) := by
  cases notEload with
  | true => exact (EnvGen.withDir_self h rfl).symm
  | false => rfl

/-- The strobe's frame holds the whole envelope generator of `t` when only the direction, the selector and tri have
changed (R112). -/
theorem State.withStrobeOf_eg {s t : State} (h : DirectionFrame s.eg t.eg) : (s.withStrobeOf t).eg = t.eg := by
  obtain ⟨henv, hctrl, htri, hcount, hdiv, heclk, hclk⟩ := h
  exact EnvGen.eq_of_fields
    ⟨henv.symm, rfl, hctrl.symm, rfl, rfl, htri.symm, hcount.symm, hdiv.symm, heclk.symm, hclk.symm⟩

/-! ### The run pin -/

/-- Settles O24: the whole effect of a run rise, whose strobe meets gates that follow the flip-flop. -/
theorem runRises : Obligations.RunRises := by
  intro s hinv hrun
  have hq := hinv.quiescent
  refine ⟨_, congrArg Host.Outcome.next (setRun_rise hq hrun), rfl, ?_, rfl, msbLoadValue_toNat s.pins.ws, rfl,
    EnvGen.afterStrobe_envDir .., rfl, ?_⟩
  · simp only [afterStrobe_lines_of_quiescent hq]
  · exact State.eq_of_fields (Block.eq_of_groups rfl rfl (State.withStrobeOf_eg (by simp)).symm rfl rfl rfl rfl rfl)
      rfl rfl rfl rfl rfl

/-- Settles O25: the whole effect of a run fall, whose strobe finds the flip-flop cleared and lowers the gates with
it. -/
theorem runFalls : Obligations.RunFalls := by
  intro s hinv hrun
  refine ⟨_, congrArg Host.Outcome.next (setRun_fall hinv.quiescent hrun), rfl, rfl, rfl,
    msbLoadValue_toNat s.pins.ws, rfl, rfl, rfl, EnvGen.afterStrobe_envDir .., rfl, ?_⟩
  exact State.eq_of_fields (Block.eq_of_groups rfl rfl (State.withStrobeOf_eg (by simp)).symm rfl rfl rfl rfl rfl)
    rfl rfl rfl rfl rfl

/-! ### The load pins -/

/-- Settles O26: the whole effect of a load pin change; the composite clock takes its level after the strobe has put
the direction in force, so it is halted by the tri of that direction. -/
theorem loadPinChangeStrobes : Obligations.LoadPinChangeStrobes := by
  intro s v hinv hchange
  have hq := hinv.quiescent
  have hset := setNotLoad_change hq hchange
  rw [afterStrobe_lines_of_quiescent hq, envClkOf_eq,
    EnvGen.afterStrobe_eq_withDir (PermissionSettled.of_quiescent hq).derived] at hset
  exact ⟨_, congrArg Host.Outcome.next hset, rfl, rfl, ⟨rfl, rfl⟩, rfl⟩

/-- Settles O28: `setNotEload_eq`, with the direction's selector and tri written out. -/
theorem envelopeLoadPin : Obligations.EnvelopeLoadPin :=
  fun _ v hinv => congrArg Host.Outcome.next (setNotEload_eq v hinv.quiescent)

/-! ### Stored levels and registers -/

/-- Settles O27: each setter asks first whether the value is the current one (R140). -/
theorem repeatedLevelsDoNothing : Obligations.RepeatedLevelsDoNothing := by
  intro s
  refine ⟨?_, ?_, ?_, ?_, ?_, ?_, ?_⟩ <;> exact congrArg Host.Outcome.next (if_pos rfl)

/-- Settles O29: not_wpe by `setNotWpe_eq`; the meanings of the others are the stores themselves. -/
theorem storedLevelsAndRegisters : Obligations.StoredLevelsAndRegisters :=
  fun s v _ => ⟨congrArg Host.Outcome.next (setNotWpe_eq v s), rfl, rfl, rfl, rfl⟩

/-- A pitch change reprograms the sample timer while run is high, with the new pitch (R151). -/
theorem setPitch_outputs (v : Nat) (s : State) :
    (setPitch v s).outputs = s.outputs
      ++ (if v ≠ s.pins.pitch ∧ s.lines.run = true then [.timerReprogram v s.pins.octave] else []) := by
  unfold setPitch
  split
  · rename_i hsame
    simp [hsame]
  · rename_i hchange
    cases hrun : s.lines.run <;> simp [hchange, hrun]

/-- An octave change reprograms the sample timer while run is high, with the new octave (R151). -/
theorem setOctave_outputs (v : Nat) (s : State) :
    (setOctave v s).outputs = s.outputs
      ++ (if v ≠ s.pins.octave ∧ s.lines.run = true then [.timerReprogram s.pins.pitch v] else []) := by
  unfold setOctave
  split
  · rename_i hsame
    simp [hsame]
  · rename_i hchange
    cases hrun : s.lines.run <;> simp [hchange, hrun]

/-- Settles O30: each setter's frame is one register, and its events are `setPitch_outputs` and `setOctave_outputs`. -/
theorem pitchAndOctaveReprogramTheTimer : Obligations.PitchAndOctaveReprogramTheTimer := by
  intro s v
  obtain ⟨hpitch, hpin, hpcar, hpres, hpdraws⟩ := setPitch_frame v s
  obtain ⟨hoctave, hoin, hocar, hores, hodraws⟩ := setOctave_frame v s
  exact ⟨congrArg Host.Outcome.next (State.eq_of_fields hpitch hpin hpcar (setPitch_outputs v s) hpres hpdraws),
    congrArg Host.Outcome.next (State.eq_of_fields hoctave hoin hocar (setOctave_outputs v s) hores hodraws)⟩

end Sys2Proof.Machine
end

section
/-! The data port (R120 to R123, R161, R162): the frame of a write and of a read, and the one counter that the wave
address is under load while run is low. -/

namespace Sys2Proof.Machine

/-! ### The frame of an access -/

/-- The frame of an advance as an equation (R120). -/
theorem advance_eq_withCrossingOf (s : State) : advance s = s.withCrossingOf (advance s) :=
  eq_withCrossingOf_of_chainFrame (by simp) (by simp) (by simp) (by simp)

/-- Settles O11: the byte and the other bytes by the RAM's read-after-write rules; an advance keeps the RAM, so its
frame is that of the write but for the RAM. -/
theorem waveWriteStoresOneByteAndAdvances : Obligations.WaveWriteStoresOneByteAndAdvances := by
  intro s d
  have hram : (advance (s.waveWrite d)).ram = s.ram.write s.addr d := by simp
  refine ⟨_, rfl, ?_, fun a ha => ?_, by simp, ?_⟩
  · rw [hram, Memory.read_write_same]
  · rw [hram, Memory.read_write_other s.ram d ha]
  · rw [hram]
    exact advance_eq_withCrossingOf (s.waveWrite d)

/-- Settles O12: a read returns the byte at the address before it either clears a pending new_addr or advances. -/
theorem waveReadReturnsTheByteAndAdvances : Obligations.WaveReadReturnsTheByteAndAdvances := by
  intro s
  have hread : exec .waveRd s = .next ((afterWaveRead s).withResult (.data (s.ram.read s.addr))) := rfl
  refine ⟨fun hpending => ?_, fun hclear => ⟨_, hread, rfl, ?_, ?_⟩⟩
  · rw [hread, afterWaveRead_of_pending hpending]
    rfl
  · simp [afterWaveRead_of_clear hclear]
  · rw [afterWaveRead_of_clear hclear]
    exact congrArg (State.withResult · _) (advance_eq_withCrossingOf s)

/-! ### The counter -/

/-- The wave address registers as one number, the MSB above the 7 bits of lsb (R12, R13). -/
def Sequencer.count (q : Sequencer) : Nat := q.msb.toNat * 2 ^ 7 + q.lsb.toNat

theorem Sequencer.count_lt (q : Sequencer) : q.count < 2 ^ 15 := by
  have hmsb := q.msb.isLt
  have hlsb := q.lsb.isLt
  unfold count
  omega

/-- Counting by one: lsb advances, and the MSB counts exactly when lsb returns to 0. -/
theorem Sequencer.count_succ {q r : Sequencer} (hlsb : r.lsb = q.lsb + 1)
    (hmsb : r.msb = if q.lsb = 127#7 then q.msb + 1 else q.msb) : r.count = (q.count + 1) % 2 ^ 15 := by
  unfold count
  rw [hlsb, hmsb]
  split
  · rename_i h127
    bv_omega
  · rename_i hne
    bv_omega

/-- Under load with run low nothing is latched, so an advance moves the MSB only where bit 6 of lsb falls (R123;
D10). -/
theorem AdvancedFrom.msb_of_load {s t : State} (h : AdvancedFrom s t) (hload : s.lines.notLoad = false)
    (hrun : s.lines.run = false) : t.seq.msb = if s.seq.lsb = 127#7 then s.seq.msb + 1 else s.seq.msb := by
  rw [h.msb, h.lsb, zxOf_succ]
  by_cases h127 : s.seq.lsb = 127#7
  · simp [h127, zxOf_127, crossingMsb, hload]
  · by_cases h63 : s.seq.lsb = 63#7
    · simp [h63, zxOf_63, crossingMsb, hrun]
    · simp [h127, h63]

/-- One advance under load with run low is one count. -/
theorem AdvancedFrom.count_of_load {s t : State} (h : AdvancedFrom s t) (hload : s.lines.notLoad = false)
    (hrun : s.lines.run = false) : t.seq.count = (s.seq.count + 1) % 2 ^ 15 :=
  Sequencer.count_succ h.lsb (h.msb_of_load hload hrun)

/-- A list of instructions whose first has a next state goes on from there. -/
theorem execAll_cons_of_next {i : Instr} {is : List Instr} {s t : State} (h : exec i s = .next t) :
    execAll (i :: is) s = execAll is t := by
  simp [execAll, h]

/-- Settles O16, by induction on the writes: each is one count, and keeps the invariant and both lines. -/
theorem dataPortUnderLoadIsOneCounter : Obligations.DataPortUnderLoadIsOneCounter := by
  intro ds
  induction ds with
  | nil => exact fun s _ _ _ => ⟨s, rfl, (Nat.mod_eq_of_lt s.seq.count_lt).symm⟩
  | cons d ds ih =>
    intro s hinv hload hrun
    obtain ⟨t, hexec, hadv⟩ := exec_advancedFrom (i := .waveWr d) hinv.quiescent (.inl ⟨d, rfl⟩)
    have hcount := hadv.count_of_load hload hrun
    obtain ⟨u, hall, hu⟩ := ih t (exec_inv rfl hinv hexec) (by rw [hadv.lines]; exact hload)
      (by rw [hadv.lines]; exact hrun)
    refine ⟨u, (execAll_cons_of_next hexec).trans hall, ?_⟩
    change u.seq.count = (s.seq.count + (ds.length + 1)) % 2 ^ 15
    calc u.seq.count = (t.seq.count + ds.length) % 2 ^ 15 := hu
      _ = (s.seq.count + (ds.length + 1)) % 2 ^ 15 := by rw [hcount, Nat.mod_add_mod, Nat.add_assoc, Nat.add_comm 1]

end Sys2Proof.Machine
end

section
/-! The register file (R163 to R168, R175, R176): the direction select, the latches, and the accesses no register
answers. -/

namespace Sys2Proof.Machine

/-- A direction select with the envelope's derived values current, whole (R163, R164). -/
theorem selectDirection_eq {s : State} (d : EnvDir) (h : s.eg.Derived) :
    selectDirection d s = { s with
      eg := if s.lines.permitEload then { s.eg with envDirCtrl := d }.withDir d
            else { s.eg with envDirCtrl := d } } :=
  permitted_select_eq d h

/-- Settles O17: all four forms are `selectDirection`, whose effect is `selectDirection_eq`; a read adds its result. -/
theorem directionSelect : Obligations.DirectionSelect := by
  intro s d hinv
  have hselect := fun dir => selectDirection_eq dir (PermissionSettled.of_quiescent hinv.quiescent).derived
  have hread := fun dir => congrArg (State.withResult · (.data 0#8)) (hselect dir)
  exact ⟨congrArg Host.Outcome.next (hselect .down), congrArg Host.Outcome.next (hselect .up),
    congrArg Host.Outcome.next (hread .down), congrArg Host.Outcome.next (hread .up)⟩

/-- Settles O18: the word by evaluation of the decoder, and the read's meaning is the result itself. -/
theorem volumeReadIsConstant : Obligations.VolumeReadIsConstant :=
  ⟨by decide, fun _ => rfl⟩

/-- Settles O19: the meaning of each write is the store itself. -/
theorem latchWritesStoreTheByte : Obligations.LatchWritesStoreTheByte :=
  fun _ _ => ⟨rfl, rfl⟩

/-- The diagnostic event adds no hardware signal (R50). -/
theorem signals_append_diagUnknown (es : List OutEvent) (rw : BusAccess) (off : Nat) :
    signals (es ++ [.diagUnknown rw off]) = signals es := by
  simp [signals, OutEvent.isSignal]

/-- Settles O20: an undecoded access emits the diagnostic event and writes nothing; a read of one returns 0. -/
theorem undecodedAccessesChangeNothing : Obligations.UndecodedAccessesChangeNothing := by
  intro s i
  constructor
  · rintro d (rfl | rfl | rfl) <;> exact ⟨_, rfl, rfl, signals_append_diagUnknown ..⟩
  · rintro (rfl | rfl | rfl | rfl) <;> exact ⟨_, rfl, rfl, signals_append_diagUnknown ..⟩

end Sys2Proof.Machine
end

section
/-! The external interface (R181, R184): which images a restore accepts, and the merge of the interrupt sources. -/

namespace Sys2Proof.Machine

/-- A restore that has a next state meets the invariant afterwards, holds the carried image, and has written the
block only (R184, D42). -/
theorem execRestore_loads {u t : State} (h : execRestore u = .next t) :
    t.Inv ∧ u.carried = some t.toBlock.image ∧ t = { u with toBlock := t.toBlock } := by
  obtain ⟨b, hcarried, hwt, hq, rfl⟩ := execRestore_next h
  exact ⟨⟨hwt, hq⟩, hcarried, rfl⟩

/-- Settles O42: images of consistent states are accepted by `execRestore_accepts`. A well-typed quiescent block is
the block of a state that meets the invariant, so an image of no such state is no such block's, and is refused. -/
theorem restoreLoadsOnlyConsistentImages : Obligations.RestoreLoadsOnlyConsistentImages := by
  intro u
  refine ⟨fun s hinv hcarried => execRestore_accepts hcarried hinv, fun t h => execRestore_loads h, fun hnone => ?_⟩
  exact execRestore_refused fun b hwt hq => hnone { u with toBlock := b } ⟨hwt, hq⟩

/-- Settles O38: whichever source takes its level, the merge of the lines it leaves is `mergeIrq_eq`. -/
theorem interruptMerge : Obligations.InterruptMerge := by
  intro s v
  have hmerge (q : IrqLines) := mergeIrq_eq (s.onIrq fun _ => q)
  exact ⟨congrArg Host.Outcome.next (hmerge { s.irq with in0 := v }),
    congrArg Host.Outcome.next (hmerge { s.irq with in1 := v }),
    congrArg Host.Outcome.next (hmerge { s.irq with in2 := v }),
    congrArg Host.Outcome.next (hmerge { s.irq with in3 := v }),
    congrArg Host.Outcome.next (hmerge { s.irq with in4 := v })⟩

end Sys2Proof.Machine
end

section
/-! The exceptional conditions (R200, R207, R208, R213): when an instruction is accepted, and the stopped block. -/

namespace Sys2Proof.Machine

/-- An instruction has a next state in every state, but for a sample tick, which needs the timer enabled, and a
restore, which needs a restorable image carried (R130, R184, R208). -/
theorem exec_accepts_iff {i : Instr} {s : State} :
    (∃ t, exec i s = .next t) ↔
      (i = .sampleTick → s.ptm.sampleTimerEnabled = true) ∧ (i = .restore → ∃ b, restorable s.carried = some b) := by
  constructor
  · rintro ⟨t, h⟩
    constructor
    · rintro rfl
      exact (execSampleTick_eq_next.1 h).1
    · rintro rfl
      obtain ⟨b, hb, -⟩ := execRestore_eq_next.1 h
      exact ⟨b, hb⟩
  · rintro ⟨htick, hrestore⟩
    cases i with
    | sampleTick => exact ⟨_, execSampleTick_eq_next.2 ⟨htick rfl, rfl⟩⟩
    | restore =>
      obtain ⟨b, hb⟩ := hrestore rfl
      exact ⟨_, execRestore_eq_next.2 ⟨b, hb, rfl⟩⟩
    | _ => exact ⟨_, rfl⟩

/-- Settles O9: a word that decodes is performed in the state the step begins in, which has the timer of `s` and
carries the image beside the word, so `exec_accepts_iff` reads as stated; one that does not decode has no step. -/
theorem everyWordIsAcceptedInEveryState : Obligations.EveryWordIsAcceptedInEveryState := by
  intro s inp rest hin
  cases hdec : decode inp.word with
  | error why => simp [step_cons hin, hdec]
  | ok i =>
    rw [step_of_decode hin hdec, exec_accepts_iff]
    simp

/-- Settles O52: the invariant ties the timer to run (R51), so the tick is refused as O35 says; the pull is silent by
O37, every other input is accepted by `exec_accepts_iff`, and PIN_RUN 1 is the run rise of O24. -/
theorem stoppedBlockIsSilentAndWakes : Obligations.StoppedBlockIsSilentAndWakes := by
  intro s hinv hrun
  obtain ⟨-, -, -, -, htimer, -, -⟩ := hinv.quiescent
  obtain ⟨t, hexec, hptm, hlines, -⟩ := runRises s hinv hrun
  refine ⟨?_, ?_, fun i htick hrestore => ?_, t, hexec, ?_, ?_⟩
  · exact (sampleTickComputesTheSample s).2 (htimer.trans hrun)
  · simpa [hrun] using pullReturnsTheSampleOrSilence s
  · exact exec_accepts_iff.2 ⟨fun h => absurd h htick, fun h => absurd h hrestore⟩
  · rw [hlines]
  · rw [hptm]

end Sys2Proof.Machine
end

section
/-! RESET (R220 to R223), and the data port after a strobe (R226, R227). -/

namespace Sys2Proof.Machine

/-! ### RESET -/

/-- RESET loads the reset block with the RAM kept, and leaves alone what is not the block (R220, R221; D36). -/
theorem exec_reset (s : State) : exec .reset s = .next { s with toBlock := { Block.reset with ram := s.ram } } := rfl

/-- Settles O43: `exec_reset`, with the reset block's values written out. -/
theorem resetWritesEveryField : Obligations.ResetWritesEveryField :=
  fun s => exec_reset s

/-- Settles O44: by `exec_reset` the RAM after RESET is the RAM before, so each of its bytes is. -/
theorem resetLeavesTheWaveRam : Obligations.ResetLeavesTheWaveRam :=
  fun s => ⟨_, exec_reset s, fun _ => rfl⟩

/-! ### The data port after a strobe -/

/-- The wave RAM and the sequencer's address side of `t` are those a strobe leaves from `s` (R134). -/
structure StrobedFrom (s t : State) : Prop where
  ram : t.ram = s.ram
  lsb : t.seq.lsb = 0#7
  msb : t.seq.msb = msbLoadValue s.pins.ws
  newAddr : t.seq.newAddr = true

/-- Every change of run or of the load pin strobes (R133, R142, R143). -/
theorem exec_strobedFrom {s t : State} {i : Instr} {v : Bool} (h : s.toBlock.Quiescent)
    (hchange : i = .pinRun v ∧ v ≠ s.lines.run ∨ i = .pinNotLoad v ∧ v ≠ s.lines.notLoad)
    (hexec : exec i s = .next t) : StrobedFrom s t := by
  obtain ⟨rfl, hv⟩ | ⟨rfl, hv⟩ := hchange
  · obtain rfl : setRun v s = t := Host.Outcome.next.inj hexec
    cases v with
    | true =>
      rw [setRun_rise h (by simpa using hv.symm)]
      exact ⟨rfl, rfl, rfl, rfl⟩
    | false =>
      rw [setRun_fall h (by simpa using hv.symm)]
      exact ⟨rfl, rfl, rfl, rfl⟩
  · obtain rfl : setNotLoad v s = t := Host.Outcome.next.inj hexec
    rw [setNotLoad_change h hv]
    exact ⟨rfl, rfl, rfl, rfl⟩

/-- The loaded MSB `0x80 | ws` puts the address at the start of page `ws`: the 14 bits drop its bit 7 (R14, R226). -/
theorem StrobedFrom.addr_toNat {s t : State} (h : StrobedFrom s t) : t.addr.toNat = s.pins.ws.toNat * 2 ^ 7 := by
  have hws := s.pins.ws.isLt
  rw [State.addr, waveAddr_toNat, h.lsb, h.msb, msbLoadValue_toNat]
  simp only [BitVec.toNat_ofNat]
  omega

/-- A read with new_addr pending only clears it, so the next read takes the byte at the same address (R162). -/
theorem waveRd_twice_of_pending {t : State} (h : t.seq.newAddr = true) :
    ∃ u w, exec .waveRd t = .next u ∧ u.result = some (.data (t.ram.read t.addr)) ∧ u.addr = t.addr
      ∧ exec .waveRd u = .next w ∧ w.result = some (.data (t.ram.read t.addr)) :=
  ⟨_, _, (waveReadReturnsTheByteAndAdvances t).1 h, rfl, rfl, rfl, rfl⟩

/-- Settles O51: the strobe leaves the address at the start of its page and new_addr pending, and a run or load change
leaves the RAM alone. -/
theorem readAfterStrobeDuplicates : Obligations.ReadAfterStrobeDuplicates := by
  intro s t i v hinv hchange hexec
  have hstrobe := exec_strobedFrom hinv.quiescent hchange hexec
  refine ⟨hstrobe.addr_toNat, ?_⟩
  rw [← hstrobe.ram]
  exact waveRd_twice_of_pending hstrobe.newAddr

end Sys2Proof.Machine
end
